-- ==== Sys2Proof/Word.lean ====
section
/-! DEFINITION. The data widths of CORE (00_scope.md R10): bytes, addresses, command words, and the two
byte-sequence shapes of the datapath, the 32-bit word of four bytes and the 16-byte block of four words.
The only arithmetic here is the exclusive or (00_scope.md R11, 40_primitives.md R91). -/

namespace Sys2Proof

/-- `U8`. -/
abbrev Byte := BitVec 8

/-- An address, `ALEN = 64` bits (00_scope.md R9). -/
abbrev Addr := BitVec 64

/-- A command word (30_encoding.md R60). -/
abbrev CmdWord := BitVec 32

/-- A 32-bit word as four bytes in memory order: `b0` stands at the lowest address (00_scope.md R12,
20_memory.md R43). -/
@[ext] structure Word32 where
  b0 : Byte
  b1 : Byte
  b2 : Byte
  b3 : Byte
  deriving DecidableEq, Repr

/-- `Bytes(16)`: an AES block, a round key or a field element, as its four words in memory order
(20_memory.md R41, 40_primitives.md R86: word `k` is column `k`, byte `r` of it is row `r`). -/
@[ext] structure Block where
  w0 : Word32
  w1 : Word32
  w2 : Word32
  w3 : Word32
  deriving DecidableEq, Repr

/-- Byte-wise exclusive or of two words (00_scope.md R11). -/
def xorWord (x y : Word32) : Word32 :=
  ⟨x.b0 ^^^ y.b0, x.b1 ^^^ y.b1, x.b2 ^^^ y.b2, x.b3 ^^^ y.b3⟩

/-- Byte-wise exclusive or of two blocks, the key addition of 40_primitives.md R91. -/
def xorBlock (x y : Block) : Block :=
  ⟨xorWord x.w0 y.w0, xorWord x.w1 y.w1, xorWord x.w2 y.w2, xorWord x.w3 y.w3⟩

/-- The word of four zero bytes. -/
def zeroWord : Word32 := ⟨0, 0, 0, 0⟩

/-- The block of sixteen zero bytes. -/
def zeroBlock : Block := ⟨zeroWord, zeroWord, zeroWord, zeroWord⟩

end Sys2Proof
end

