-- ==== Sys2Proof/Syntax.lean ====
section
/-! DEFINITION. The six commands of CORE command set, version 1 (00_scope.md R2), one constructor per
row of the opcode table (30_encoding.md R65). Operand addresses are no part of a command: they stand in
`P0..P2` (30_encoding.md R64). -/

namespace Sys2Proof

/-- A command with its immediate (30_encoding.md R63). The capability mask is two bits; `rounds` and
`bits` are counts, unsigned and never extended or scaled. -/
inductive Instr where
  /-- HASSUPPORT (41_capability.md R110). -/
  | hassupport (mask : BitVec 2)
  /-- CRYPTBLOCK.ENC (42_blockcipher.md R120). -/
  | cryptblockEnc (rounds : Nat)
  /-- CRYPTBLOCK.DEC (42_blockcipher.md R121). -/
  | cryptblockDec (rounds : Nat)
  /-- EXPANDKEY (43_keyschedule.md R135). -/
  | expandkey (bits : Nat)
  /-- DERIVEDEC (44_inversekey.md R155). -/
  | derivedec (rounds : Nat)
  /-- GFMUL (45_gfmul.md R165). -/
  | gfmul
  deriving DecidableEq, Repr

end Sys2Proof
end

