-- ==== Sys2Proof/WellFormed.lean ====
section
/-! DEFINITION. Which commands have a word: those "whose immediate fits its field" (30_encoding.md R68). -/

namespace Sys2Proof

/-- An immediate fits the 16-bit field `IMM` (30_encoding.md R61, R63). -/
def fitsImm (n : Nat) : Bool := decide (n < 2 ^ 16)

/-- The command's immediate fits its field. The mask of HASSUPPORT has two bits by its type and GFMUL
has no immediate, so both always fit. -/
def Instr.wellFormed : Instr → Bool
  | .hassupport _ => true
  | .cryptblockEnc rounds => fitsImm rounds
  | .cryptblockDec rounds => fitsImm rounds
  | .expandkey bits => fitsImm bits
  | .derivedec rounds => fitsImm rounds
  | .gfmul => true

end Sys2Proof
end

