-- ==== Sys2Proof/Decode.lean ====
section
/-! DEFINITION. Decoding and encoding of command words (30_encoding.md R60 to R68). -/

namespace Sys2Proof

/-- Why a word is illegal: the causes 30_encoding.md R66 lists, in the order decoding meets them. -/
inductive IllegalWord where
  /-- `RSV1 != 0`. -/
  | reservedHigh
  /-- `RSV0 != 0`. -/
  | reservedLow
  /-- `OPC` is 0x0 or 0x6 to 0xF. -/
  | opcode
  /-- `DIR = 1` with `OPC != 0x2`. -/
  | direction
  /-- `OPC = 0x1` with `IMM[15:2] != 0`. -/
  | maskBits
  /-- `OPC = 0x5` with `IMM != 0`. -/
  | immediate
  deriving DecidableEq, Repr

/-- What a word decodes to. -/
inductive Decoded where
  | command (i : Instr)
  | illegal (why : IllegalWord)
  deriving DecidableEq, Repr

/-- `OPC`, bits 3:0 (30_encoding.md R61). -/
def opcField (w : CmdWord) : BitVec 4 := w.extractLsb' 0 4

/-- `DIR`, bit 4 (30_encoding.md R61). -/
def dirField (w : CmdWord) : BitVec 1 := w.extractLsb' 4 1

/-- `RSV0`, bits 7:5 (30_encoding.md R61). -/
def rsv0Field (w : CmdWord) : BitVec 3 := w.extractLsb' 5 3

/-- `IMM`, bits 23:8 (30_encoding.md R61, R63). -/
def immField (w : CmdWord) : BitVec 16 := w.extractLsb' 8 16

/-- `RSV1`, bits 31:24 (30_encoding.md R61). -/
def rsv1Field (w : CmdWord) : BitVec 8 := w.extractLsb' 24 8

/-- The opcode of 30_encoding.md R62 with its direction bit and immediate; every opcode but CRYPTBLOCK's
needs `DIR = 0` (R61). -/
def decodeOpcode (opc : BitVec 4) (dir : BitVec 1) (imm : BitVec 16) : Decoded :=
  if opc = 0x2#4 then
    if dir = 0#1 then .command (.cryptblockEnc imm.toNat) else .command (.cryptblockDec imm.toNat)
  else if opc = 0x0#4 ∨ 0x6#4 ≤ opc then .illegal .opcode
  else if dir ≠ 0#1 then .illegal .direction
  else if opc = 0x1#4 then
    if imm.extractLsb' 2 14 = 0#14 then .command (.hassupport (imm.extractLsb' 0 2))
    else .illegal .maskBits
  else if opc = 0x3#4 then .command (.expandkey imm.toNat)
  else if opc = 0x4#4 then .command (.derivedec imm.toNat)
  else if imm = 0#16 then .command .gfmul
  else .illegal .immediate

/-- Decoding, total on all 2^32 words (30_encoding.md R66, R68). -/
def decode (w : CmdWord) : Decoded :=
  if rsv1Field w ≠ 0#8 then .illegal .reservedHigh
  else if rsv0Field w ≠ 0#3 then .illegal .reservedLow
  else decodeOpcode (opcField w) (dirField w) (immField w)

/-- `(imm << 8) | (dir << 4) | opc` (30_encoding.md R68), the pattern `00000000 iiiiiiii iiiiiiii 000d oooo`
(30_encoding.md R61). -/
def packFields (imm : BitVec 16) (dir : BitVec 1) (opc : BitVec 4) : CmdWord :=
  (imm.setWidth 32 <<< 8) ||| (dir.setWidth 32 <<< 4) ||| opc.setWidth 32

/-- Encoding (30_encoding.md R65, R68). -/
def encode : Instr → CmdWord
  | .hassupport mask => packFields (mask.setWidth 16) 0#1 0x1#4
  | .cryptblockEnc rounds => packFields (BitVec.ofNat 16 rounds) 0#1 0x2#4
  | .cryptblockDec rounds => packFields (BitVec.ofNat 16 rounds) 1#1 0x2#4
  | .expandkey bits => packFields (BitVec.ofNat 16 bits) 0#1 0x3#4
  | .derivedec rounds => packFields (BitVec.ofNat 16 rounds) 0#1 0x4#4
  | .gfmul => packFields 0#16 0#1 0x5#4

/-- A row of the opcode map: a word `w` is the row's iff `(w & mask) == pattern` (30_encoding.md R65). -/
structure OpcodeRow where
  mask : CmdWord
  pattern : CmdWord
  deriving DecidableEq, Repr

/-- The row of a command in the opcode map (30_encoding.md R65). -/
def opcodeRow : Instr → OpcodeRow
  | .hassupport _ => ⟨0xFFFFFCFF, 0x00000001⟩
  | .cryptblockEnc _ => ⟨0xFF0000FF, 0x00000002⟩
  | .cryptblockDec _ => ⟨0xFF0000FF, 0x00000012⟩
  | .expandkey _ => ⟨0xFF0000FF, 0x00000003⟩
  | .derivedec _ => ⟨0xFF0000FF, 0x00000004⟩
  | .gfmul => ⟨0xFFFFFFFF, 0x00000005⟩

/-- The one word of an instruction of `nbits` bits `w`: the bits above `nbits` are 0. -/
def tableWord (nbits w : Nat) : CmdWord := BitVec.ofNat 32 (w % 2 ^ nbits)

/-- The instruction the decoder reads from a word numbered as the opcode table numbers it: a command is
one 32-bit word with bit 0 least significant (30_encoding.md R60, R61). -/
def decodeTableWord (nbits w : Nat) : Option Instr :=
  match decode (tableWord nbits w) with
  | .command i => some i
  | .illegal _ => none

end Sys2Proof
end

