-- ==== Sys2Proof/Machine/Bytes.lean ====
section
/-! DEFINITION. Byte orders: between byte strings and blocks (20_memory.md R41, R43), and between blocks
and 128-bit values (00_scope.md R12). -/

namespace Sys2Proof.Machine

/-- Word `k` of a byte string: its bytes `4k .. 4k+3` (00_scope.md R12). -/
def wordOfBytes (bs : List Byte) (k : Nat) : Word32 :=
  ⟨bs.getD (4 * k) 0, bs.getD (4 * k + 1) 0, bs.getD (4 * k + 2) 0, bs.getD (4 * k + 3) 0⟩

/-- The `Bytes(16)` value at index `16*r` of a byte string (20_memory.md R43). -/
def blockOfBytes (bs : List Byte) (r : Nat) : Block :=
  ⟨wordOfBytes bs (4 * r), wordOfBytes bs (4 * r + 1), wordOfBytes bs (4 * r + 2),
    wordOfBytes bs (4 * r + 3)⟩

/-- The bytes of a word in memory order. -/
def bytesOfWord (w : Word32) : List Byte := [w.b0, w.b1, w.b2, w.b3]

/-- The words of a block in memory order. -/
def wordsOfBlock (b : Block) : List Word32 := [b.w0, b.w1, b.w2, b.w3]

/-- The bytes of a sequence of words in memory order. -/
def bytesOfWords (ws : List Word32) : List Byte := ws.flatMap bytesOfWord

/-- The bytes of a block in memory order. -/
def bytesOfBlock (b : Block) : List Byte := bytesOfWords (wordsOfBlock b)

/-- A word as a number with its first byte most significant. -/
def be32 (w : Word32) : BitVec 32 :=
  (w.b0.setWidth 32 <<< 24) ||| (w.b1.setWidth 32 <<< 16) ||| (w.b2.setWidth 32 <<< 8)
    ||| w.b3.setWidth 32

/-- `be128(b)`: byte 0 is most significant (00_scope.md R12). -/
def be128 (b : Block) : BitVec 128 :=
  ((be32 b.w0).setWidth 128 <<< 96) ||| ((be32 b.w1).setWidth 128 <<< 64)
    ||| ((be32 b.w2).setWidth 128 <<< 32) ||| (be32 b.w3).setWidth 128

/-- The inverse of `be32`. -/
def wordBe (v : BitVec 32) : Word32 :=
  ⟨v.extractLsb' 24 8, v.extractLsb' 16 8, v.extractLsb' 8 8, v.extractLsb' 0 8⟩

/-- `bytes_be(v)`, the inverse of `be128` (00_scope.md R12, 45_gfmul.md R170). -/
def blockBe (v : BitVec 128) : Block :=
  ⟨wordBe (v.extractLsb' 96 32), wordBe (v.extractLsb' 64 32), wordBe (v.extractLsb' 32 32),
    wordBe (v.extractLsb' 0 32)⟩

/-- The byte reversal of a word. -/
def revWord (w : Word32) : Word32 := ⟨w.b3, w.b2, w.b1, w.b0⟩

/-- `rev16(b)`, the byte reversal: byte `i` is `b[15-i]` (00_scope.md R12). -/
def rev16 (b : Block) : Block := ⟨revWord b.w3, revWord b.w2, revWord b.w1, revWord b.w0⟩

/-- A word as a number with its first byte least significant. -/
def le32 (w : Word32) : BitVec 32 :=
  (w.b3.setWidth 32 <<< 24) ||| (w.b2.setWidth 32 <<< 16) ||| (w.b1.setWidth 32 <<< 8)
    ||| w.b0.setWidth 32

/-- `le128(b)`: byte 0 is least significant (00_scope.md R12, 20_memory.md R42). -/
def le128 (b : Block) : BitVec 128 :=
  ((le32 b.w3).setWidth 128 <<< 96) ||| ((le32 b.w2).setWidth 128 <<< 64)
    ||| ((le32 b.w1).setWidth 128 <<< 32) ||| (le32 b.w0).setWidth 128

/-- The inverse of `le32`. -/
def wordLe (v : BitVec 32) : Word32 :=
  ⟨v.extractLsb' 0 8, v.extractLsb' 8 8, v.extractLsb' 16 8, v.extractLsb' 24 8⟩

/-- `dword(v, k)` for `k` in 0..3: bits `32k+31 .. 32k` (00_scope.md R12). -/
def dword (v : BitVec 128) (k : Nat) : BitVec 32 := v.extractLsb' (32 * k) 32

/-- `qword(v, k)` for `k` in 0..1: bits `64k+63 .. 64k` (00_scope.md R12, 40_primitives.md R102). -/
def qword (v : BitVec 128) (k : Nat) : BitVec 64 := v.extractLsb' (64 * k) 64

/-- `bytes_le(v)`, the inverse of `le128` (00_scope.md R12). -/
def blockLe (v : BitVec 128) : Block :=
  ⟨wordLe (dword v 0), wordLe (dword v 1), wordLe (dword v 2), wordLe (dword v 3)⟩

end Sys2Proof.Machine
end

