-- ==== Sys2Proof/Machine/Aes.lean ====
section
/-! DEFINITION. The datapath primitives of the AES commands (40_primitives.md R80 to R100). -/

namespace Sys2Proof.Machine

/-- Doubling in GF(2^8) under 0x11B (40_primitives.md R80). -/
def xtime (b : Byte) : Byte := (b <<< 1) ^^^ (if b.getLsbD 7 then 0x1B#8 else 0x00#8)

/-- `xtime` applied `i` times (40_primitives.md R81). -/
def xtimePow : Nat → Byte → Byte
  | 0, a => a
  | i + 1, a => xtime (xtimePow i a)

/-- Multiplication in GF(2^8): the exclusive or of `xtime^i(a)` over the bits `i` of `b` that are 1
(40_primitives.md R81). -/
def gmul8 (a b : Byte) : Byte :=
  (List.range 8).foldl (fun acc i => if b.getLsbD i then acc ^^^ xtimePow i a else acc) 0x00#8

/-- The round constant `RC[j]` for `j >= 1`: `RC[1] = 0x01`, each later one the double of the one before
(40_primitives.md R82). -/
def roundConstant (j : Nat) : Byte := xtimePow (j - 1) 0x01#8

/-- The S-box as its sixteen rows: row `H` holds `S(0xH0) .. S(0xHF)`, first entry on the left
(40_primitives.md R83). -/
def sBoxRows : List Nat :=
  [0x637c777bf26b6fc53001672bfed7ab76,
   0xca82c97dfa5947f0add4a2af9ca472c0,
   0xb7fd9326363ff7cc34a5e5f171d83115,
   0x04c723c31896059a071280e2eb27b275,
   0x09832c1a1b6e5aa0523bd6b329e32f84,
   0x53d100ed20fcb15b6acbbe394a4c58cf,
   0xd0efaafb434d338545f9027f503c9fa8,
   0x51a3408f929d38f5bcb6da2110fff3d2,
   0xcd0c13ec5f974417c4a77e3d645d1973,
   0x60814fdc222a908846eeb814de5e0bdb,
   0xe0323a0a4906245cc2d3ac629195e479,
   0xe7c8376d8dd54ea96c56f4ea657aae08,
   0xba78252e1ca6b4c6e8dd741f4bbd8b8a,
   0x703eb5664803f60e613557b986c11d9e,
   0xe1f8981169d98e949b1e87e9ce5528df,
   0x8ca1890dbfe6426841992d0fb054bb16]

/-- The inverse S-box, laid out the same way (40_primitives.md R84). -/
def invSBoxRows : List Nat :=
  [0x52096ad53036a538bf40a39e81f3d7fb,
   0x7ce339829b2fff87348e4344c4dee9cb,
   0x547b9432a6c2233dee4c950b42fac34e,
   0x082ea16628d924b2765ba2496d8bd125,
   0x72f8f66486689816d4a45ccc5d65b692,
   0x6c704850fdedb9da5e154657a78d9d84,
   0x90d8ab008cbcd30af7e45805b8b34506,
   0xd02c1e8fca3f0f02c1afbd0301138a6b,
   0x3a9111414f67dcea97f2cfcef0b4e673,
   0x96ac7422e7ad3585e2f937e81c75df6e,
   0x47f11a711d29c5896fb7620eaa18be1b,
   0xfc563e4bc6d279209adbc0fe78cd5af4,
   0x1fdda8338807c731b11210592780ec5f,
   0x60517fa919b54a0d2de57a9f93c99cef,
   0xa0e03b4dae2af5b0c8ebbb3c83539961,
   0x172b047eba77d626e169146355210c7d]

/-- The entry of a table in row `H`, column `L` for the byte `0xHL` (40_primitives.md R83). -/
def tableEntry (rows : List Nat) (a : Byte) : Byte :=
  BitVec.ofNat 8 (rows.getD (a.toNat / 16) 0 >>> (8 * (15 - a.toNat % 16)))

/-- `S` (40_primitives.md R83). -/
def sBox (a : Byte) : Byte := tableEntry sBoxRows a

/-- `IS` (40_primitives.md R84). -/
def invSBox (a : Byte) : Byte := tableEntry invSBoxRows a

/-- `SubWord` (40_primitives.md R85). -/
def subWord (w : Word32) : Word32 := ⟨sBox w.b0, sBox w.b1, sBox w.b2, sBox w.b3⟩

/-- `IS` on each byte of a word. -/
def invSubWord (w : Word32) : Word32 := ⟨invSBox w.b0, invSBox w.b1, invSBox w.b2, invSBox w.b3⟩

/-- `SubBytes` (40_primitives.md R85). -/
def subBytes (s : Block) : Block := ⟨subWord s.w0, subWord s.w1, subWord s.w2, subWord s.w3⟩

/-- `InvSubBytes` (40_primitives.md R85). -/
def invSubBytes (s : Block) : Block :=
  ⟨invSubWord s.w0, invSubWord s.w1, invSubWord s.w2, invSubWord s.w3⟩

/-- `ShiftRows`: row `r` of column `c` comes from column `c + r` (40_primitives.md R87). -/
def shiftRows (s : Block) : Block :=
  ⟨⟨s.w0.b0, s.w1.b1, s.w2.b2, s.w3.b3⟩,
   ⟨s.w1.b0, s.w2.b1, s.w3.b2, s.w0.b3⟩,
   ⟨s.w2.b0, s.w3.b1, s.w0.b2, s.w1.b3⟩,
   ⟨s.w3.b0, s.w0.b1, s.w1.b2, s.w2.b3⟩⟩

/-- `InvShiftRows`: row `r` of column `c` comes from column `c - r` (40_primitives.md R88). -/
def invShiftRows (s : Block) : Block :=
  ⟨⟨s.w0.b0, s.w3.b1, s.w2.b2, s.w1.b3⟩,
   ⟨s.w1.b0, s.w0.b1, s.w3.b2, s.w2.b3⟩,
   ⟨s.w2.b0, s.w1.b1, s.w0.b2, s.w3.b3⟩,
   ⟨s.w3.b0, s.w2.b1, s.w1.b2, s.w0.b3⟩⟩

/-- The column mix of one column (40_primitives.md R89). -/
def mixColumn (a : Word32) : Word32 :=
  ⟨gmul8 2 a.b0 ^^^ gmul8 3 a.b1 ^^^ a.b2 ^^^ a.b3,
   a.b0 ^^^ gmul8 2 a.b1 ^^^ gmul8 3 a.b2 ^^^ a.b3,
   a.b0 ^^^ a.b1 ^^^ gmul8 2 a.b2 ^^^ gmul8 3 a.b3,
   gmul8 3 a.b0 ^^^ a.b1 ^^^ a.b2 ^^^ gmul8 2 a.b3⟩

/-- The inverse column mix of one column (40_primitives.md R90). -/
def invMixColumn (a : Word32) : Word32 :=
  ⟨gmul8 14 a.b0 ^^^ gmul8 11 a.b1 ^^^ gmul8 13 a.b2 ^^^ gmul8 9 a.b3,
   gmul8 9 a.b0 ^^^ gmul8 14 a.b1 ^^^ gmul8 11 a.b2 ^^^ gmul8 13 a.b3,
   gmul8 13 a.b0 ^^^ gmul8 9 a.b1 ^^^ gmul8 14 a.b2 ^^^ gmul8 11 a.b3,
   gmul8 11 a.b0 ^^^ gmul8 13 a.b1 ^^^ gmul8 9 a.b2 ^^^ gmul8 14 a.b3⟩

/-- `MixColumns` (40_primitives.md R89). -/
def mixColumns (s : Block) : Block := ⟨mixColumn s.w0, mixColumn s.w1, mixColumn s.w2, mixColumn s.w3⟩

/-- `InvMixColumns` (40_primitives.md R90). -/
def invMixColumns (s : Block) : Block :=
  ⟨invMixColumn s.w0, invMixColumn s.w1, invMixColumn s.w2, invMixColumn s.w3⟩

/-- `RotWord` (40_primitives.md R92). -/
def rotWord (w : Word32) : Word32 := ⟨w.b1, w.b2, w.b3, w.b0⟩

/-- `[rcon, 0, 0, 0]` (40_primitives.md R99). -/
def rconWord (rcon : Byte) : Word32 := ⟨rcon, 0, 0, 0⟩

/-- `AesRound(acc, rk)`: the accumulator is transformed, the round key added (40_primitives.md R93, R94). -/
def aesRound (acc rk : Block) : Block := xorBlock (mixColumns (shiftRows (subBytes acc))) rk

/-- `AesFinalRound(acc, rk)`: no column mix (40_primitives.md R95). -/
def aesFinalRound (acc rk : Block) : Block := xorBlock (shiftRows (subBytes acc)) rk

/-- `AesInvRound(acc, rk)`: the key is added after the inverse column mix (40_primitives.md R96). -/
def aesInvRound (acc rk : Block) : Block :=
  xorBlock (invMixColumns (invShiftRows (invSubBytes acc))) rk

/-- `AesInvFinalRound(acc, rk)` (40_primitives.md R98). -/
def aesInvFinalRound (acc rk : Block) : Block := xorBlock (invShiftRows (invSubBytes acc)) rk

/-- `AesKeyGenAssist(x, rcon)`: words 0 and 2 of `x` are ignored (40_primitives.md R99). -/
def aesKeyGenAssist (x : Block) (rcon : Byte) : Block :=
  ⟨subWord x.w1, xorWord (rotWord (subWord x.w1)) (rconWord rcon),
   subWord x.w3, xorWord (rotWord (subWord x.w3)) (rconWord rcon)⟩

/-- `AesInvMixColumns(x)` (40_primitives.md R100). -/
def aesInvMixColumns (x : Block) : Block := invMixColumns x

end Sys2Proof.Machine
end

