-- ==== Sys2Proof/Config.lean ====
section
/-! DEFINITION. What an implementation fixes (00_scope.md R9) and the free values (00_scope.md R16). -/

namespace Sys2Proof

/-- The byte addresses `base .. base + size - 1`. -/
structure Region where
  base : Nat
  size : Nat
  deriving DecidableEq, Repr

/-- The parameters of the hardware that a rule depends on (00_scope.md R9, 10_state.md R29): fixed for
the life of the hardware. A state carries them unchanged, so that a statement about every state is a
statement about every value of them (log entry 1). -/
structure Platform where
  /-- `HW_AES`: the AES round instructions are available. -/
  hwAes : Bool
  /-- `HW_CLMUL`: the carry-less multiply instruction is available. -/
  hwClmul : Bool
  /-- `MEM_VALID`: an address exists iff some region holds it (20_memory.md R46). -/
  regions : List Region
  deriving DecidableEq, Repr

/-- The free value behind `draw(n)` (00_scope.md R16), with no body: the byte that the `k`-th drawn
byte of a run is, when the command that draws it read the operand bytes `key` ("possibly
key-dependent", 92_eei_decisions.md D14). Nothing constrains it (log entry 5). -/
opaque Config.drawByte (k : Nat) (key : List Byte) : Byte

end Sys2Proof
end

