-- ==== Sys2Proof/Machine/Platform.lean ====
section
/-! DEFINITION. The parameter values that `State.reset` carries. -/

namespace Sys2Proof.Machine

/-- The hardware whose state after reset `State.reset` is: both capabilities present and every 64-bit
address existing (DESIGN CHOICE, log entry 2: 00_scope.md R9 leaves all three open). No statement rests
on it: a statement about every state is about every platform. -/
def platformAtReset : Platform where
  hwAes := true
  hwClmul := true
  regions := [⟨0, 2 ^ 64⟩]

end Sys2Proof.Machine
end

