-- ==== Sys2Proof/Machine/State.lean ====
section
/-! DEFINITION. The state of one CORE instance (10_state.md R20), the host's moves (70_reset_and_hazards.md
R209), and the reasons a step can stop. -/

namespace Sys2Proof.Machine

/-- Memory: the listed bytes, addresses rising; what an unlisted address reads as is
`Machine.unlistedByte`. -/
abbrev Memory := List Host.Cell

/-- The three pointer registers (10_state.md R22). -/
inductive PtrReg where
  | p0
  | p1
  | p2
  deriving DecidableEq, Repr

/-- The locations of the register block (10_state.md R21). -/
inductive HostReg where
  | cmd
  | status
  | ptr (r : PtrReg)
  deriving DecidableEq, Repr

/-- The error kinds, `STATUS.ERR` (10_state.md R24, 60_exceptions.md R181). -/
inductive ErrKind where
  | invalidKeyLength
  deriving DecidableEq, Repr

/-- The causes of a fault, `STATUS.FCODE` (60_exceptions.md R184). -/
inductive FaultCause where
  | illegalCommand
  | capabilityAbsent
  | roundsInvalid
  | addressFault
  deriving DecidableEq, Repr

/-- The fields of `STATUS` (10_state.md R24). The reserved bits read 0 and are not stored; `ERR` and
`FCODE` hold only the codes that are ever produced, `none` being code 0. The 32-bit register the host
reads is `Machine.statusWord`. -/
structure Status where
  result : Bool
  err : Option ErrKind
  fault : Bool
  fcode : Option FaultCause
  deriving DecidableEq, Repr

/-- The host's moves (70_reset_and_hazards.md R209, 30_encoding.md R69, 10_state.md R21). -/
inductive HostMove where
  /-- `SETP Pi, v`. -/
  | setP (r : PtrReg) (v : Addr)
  /-- A write of a word to `CMD`: issues the command (10_state.md R23). -/
  | writeCmd (w : CmdWord)
  /-- A write to `STATUS`: ignored (10_state.md R21). -/
  | writeStatus (v : BitVec 32)
  /-- A read of a register (`RDSTATUS`, a read of `Pi`, a read of `CMD`). -/
  | readReg (r : HostReg)
  /-- `LD addr, n`. -/
  | load (addr : Addr) (n : Nat)
  /-- `ST addr, bytes`. -/
  | store (addr : Addr) (bytes : List Byte)
  /-- `RESET` (70_reset_and_hazards.md R205). -/
  | reset
  deriving DecidableEq, Repr

/-- What a move returns to the host. -/
inductive HostAnswer where
  /-- The value of a register; a 32-bit register's value is widened with zeros. -/
  | reg (v : BitVec 64)
  /-- Loaded bytes. -/
  | bytes (bs : List Byte)
  deriving DecidableEq, Repr

/-- The machine: the state of 10_state.md R20, the platform's parameters, and the model's own fields
`drawn`, `moves` and `answer`. -/
structure State where
  /-- `P0` (10_state.md R22). -/
  p0 : Addr
  /-- `P1` (10_state.md R22). -/
  p1 : Addr
  /-- `P2` (10_state.md R22). -/
  p2 : Addr
  /-- `STATUS` (10_state.md R24). -/
  status : Status
  /-- `CAPV` (10_state.md R28). -/
  capv : Bool
  /-- `CAP`: bit 0 AES, bit 1 carry-less multiply (10_state.md R28). -/
  cap : BitVec 2
  /-- `Mem` (10_state.md R30). -/
  mem : Memory
  /-- The parameters of the hardware (10_state.md R29); nothing changes them. -/
  platform : Platform
  /-- The model's own: how many free bytes have been drawn (log entry 5). -/
  drawn : Nat
  /-- The model's own: the host's moves still to be made, oldest first (log entry 6). -/
  moves : List HostMove
  /-- The model's own: what the last move returned to the host (log entry 6). -/
  answer : Option HostAnswer
  deriving DecidableEq, Repr

/-- Why the model stops at a fault. CORE's own faults are none of these: they are recorded in `STATUS`
and the machine goes on refusing commands (60_exceptions.md R185). -/
inductive Fault where
  /-- Raised by a host load or store (never by a command) one of whose bytes does not exist
  (00_scope.md R14). Safe: the model stops where the spec defines nothing (log entry 7). -/
  | hostAddressAbsent (addr : Addr) (n : Nat)
  deriving DecidableEq, Repr

/-- Why the model gives a command no meaning. -/
inductive Refusal where
  /-- Raised by a command that has no meaning yet; every command has one, so nothing raises it. Safe:
  the model stops. -/
  | notModelled (mnemonic : String)
  deriving DecidableEq, Repr

/-- The status register after reset (10_state.md R35). -/
def statusAtReset : Status where
  result := false
  err := none
  fault := false
  fcode := none

/-- The machine right after reset (10_state.md R35, 70_reset_and_hazards.md R205): pointers and `STATUS`
0, the cache empty, the host not yet having made a move. `cap` is the 0 that R35 lets a model take (log
entry 4); `mem` lists nothing (log entry 3). -/
def State.reset : State where
  p0 := 0
  p1 := 0
  p2 := 0
  status := statusAtReset
  capv := false
  cap := 0
  mem := []
  platform := platformAtReset
  drawn := 0
  moves := []
  answer := none

end Sys2Proof.Machine
end

