-- ==== Sys2Proof/Machine/Flags.lean ====
section
/-! DEFINITION. `STATUS`: the word the host reads, and its two ways of changing (10_state.md R24 to R26). -/

namespace Sys2Proof.Machine

/-- The code of an error, `STATUS.ERR` (10_state.md R24). -/
def errCode : Option ErrKind → BitVec 4
  | none => 0
  | some .invalidKeyLength => 1

/-- The code of a fault, `STATUS.FCODE` (10_state.md R24, 60_exceptions.md R184). -/
def faultCode : Option FaultCause → BitVec 4
  | none => 0
  | some .illegalCommand => 1
  | some .capabilityAbsent => 2
  | some .roundsInvalid => 3
  | some .addressFault => 4

/-- The 32-bit register: `FCODE` 15:12, `FAULT` 8, `ERR` 7:4, `RESULT` 0, every other bit 0
(10_state.md R24). -/
def statusWord (t : Status) : BitVec 32 :=
  ((faultCode t.fcode).setWidth 32 <<< 12) ||| ((BitVec.ofBool t.fault).setWidth 32 <<< 8)
    ||| ((errCode t.err).setWidth 32 <<< 4) ||| (BitVec.ofBool t.result).setWidth 32

/-- `STATUS` after a command that completes (10_state.md R25). -/
def statusComplete (t : Status) (result : Bool) (err : Option ErrKind) : Status :=
  { t with result := result, err := err }

/-- `STATUS` after a command that faults: written only if `FAULT` was 0, `RESULT` and `ERR` kept
(10_state.md R25, R26). -/
def statusFault (t : Status) (cause : FaultCause) : Status :=
  if t.fault then t else { t with fault := true, fcode := some cause }

/-- The answer of HASSUPPORT: at least one asked-for capability is cached as present
(41_capability.md R110, R113). -/
def anyCapability (cap mask : BitVec 2) : Bool := decide (cap &&& mask ≠ 0#2)

/-- `{HW_CLMUL, HW_AES}`: bit 0 AES, bit 1 carry-less multiply (10_state.md R28). -/
def capabilityBits (p : Platform) : BitVec 2 :=
  BitVec.ofBool p.hwClmul ++ BitVec.ofBool p.hwAes

end Sys2Proof.Machine
end

