-- ==== Sys2Proof/Machine/Memory.lean ====
section
/-! DEFINITION. Reading and writing `Mem` (00_scope.md R14, 20_memory.md R54), its canonical form, and
which addresses exist (20_memory.md R46). -/

namespace Sys2Proof.Machine

/-- What an address that is not listed reads as: `Mem` that nothing has written is unspecified
(10_state.md R35, 93_implementation_defined.md U16); the model takes 0x00 (DESIGN CHOICE, unsafe, log
entry 3). -/
def unlistedByte : Byte := 0x00#8

/-- The canonical form: addresses strictly rising, and no entry equal to what an unlisted address reads
as; so equal memories are equal lists. -/
abbrev Memory.wf (m : Memory) : Prop :=
  m.Pairwise (fun c d => c.1 < d.1) ∧ ∀ c ∈ m, c.2 ≠ unlistedByte

/-- The byte at an address. -/
def memGet : Memory → Nat → Byte
  | [], _ => unlistedByte
  | (k, v) :: rest, a => if k = a then v else memGet rest a

/-- List the byte `b` at address `a`, at its place in the rising order. -/
def memInsert : Memory → Nat → Byte → Memory
  | [], a, b => [(a, b)]
  | (k, v) :: rest, a, b =>
    if a < k then (a, b) :: (k, v) :: rest
    else if a = k then (a, b) :: rest
    else (k, v) :: memInsert rest a b

/-- Set the byte at an address, keeping the canonical form. -/
def memSet (m : Memory) (a : Nat) (b : Byte) : Memory :=
  if b = unlistedByte then m.filter (fun c => decide (c.1 ≠ a)) else memInsert m a b

/-- `MemRead(addr, n)` (00_scope.md R14). -/
def memRead (m : Memory) (addr n : Nat) : List Byte :=
  (List.range n).map fun i => memGet m (addr + i)

/-- `MemWrite(addr, n, b)` for the `n` bytes `b` (00_scope.md R14). -/
def memWrite : Memory → Nat → List Byte → Memory
  | m, _, [] => m
  | m, addr, b :: bs => memWrite (memSet m addr b) (addr + 1) bs

/-- `MEM_VALID(a)`: the byte at `a` exists (20_memory.md R46). -/
def memValid (p : Platform) (a : Nat) : Bool :=
  p.regions.any fun r => decide (r.base ≤ a) && decide (a < r.base + r.size)

/-- `Valid(addr, n)`: the region does not pass the top of the address space and every byte of it exists
(20_memory.md R46). -/
def spanValid (p : Platform) (addr n : Nat) : Bool :=
  decide (addr + n ≤ 2 ^ 64) && (List.range n).all fun i => memValid p (addr + i)

end Sys2Proof.Machine
end

