-- ==== Sys2Proof/Machine/Ops.lean ====
section
/-! DEFINITION. The named operations on the state: registers, memory, the ends of a command
(00_scope.md R13 to R16), taking a fault and leaving it by reset. -/

namespace Sys2Proof.Machine

/-- `P[i]` (00_scope.md R13). -/
def ptr (s : State) : PtrReg → Addr
  | .p0 => s.p0
  | .p1 => s.p1
  | .p2 => s.p2

/-- `Pi <- v` (70_reset_and_hazards.md R209). -/
def setPtr (r : PtrReg) (v : Addr) (s : State) : State :=
  match r with
  | .p0 => { s with p0 := v }
  | .p1 => { s with p1 := v }
  | .p2 => { s with p2 := v }

/-- `P[i] + off` on mathematical integers, the only addressing mode (20_memory.md R46). -/
def effAddr (s : State) (r : PtrReg) (off : Nat) : Nat := (ptr s r).toNat + off

/-- Write the bytes of an operand (00_scope.md R14). -/
def storeBytes (addr : Nat) (bytes : List Byte) (s : State) : State :=
  { s with mem := memWrite s.mem addr bytes }

/-- `complete(result, err)`, the writes to memory being done (00_scope.md R15, 10_state.md R25). -/
def complete (result : Bool) (err : Option ErrKind) (s : State) : State :=
  { s with status := statusComplete s.status result err }

/-- TAKING A FAULT, `raise Fault(code)` (00_scope.md R15, 60_exceptions.md R184, R194): the code goes to
`STATUS`, nothing else changes, no control is transferred; from then on every command is refused. -/
def raiseFault (cause : FaultCause) (s : State) : State :=
  { s with status := statusFault s.status cause }

/-- THE WAY BACK FROM A FAULT, the only one (60_exceptions.md R195, 70_reset_and_hazards.md R205): reset
sets `P0..P2`, `STATUS` and the cache to their reset values and leaves `Mem` and the parameters. -/
def resetEngine (s : State) : State :=
  { s with
    p0 := State.reset.p0
    p1 := State.reset.p1
    p2 := State.reset.p2
    status := State.reset.status
    capv := State.reset.capv
    cap := State.reset.cap }

/-- `draw(n)` (00_scope.md R16): `n` free bytes that a command which read the bytes `key` writes. -/
def drawBytes (n : Nat) (key : List Byte) (s : State) : List Byte :=
  (List.range n).map fun i => Config.drawByte (s.drawn + i) key

/-- The draws of `draw(n)` are used up, so that no later draw is the same. -/
def advanceDraws (n : Nat) (s : State) : State := { s with drawn := s.drawn + n }

/-- The probe: on the first query since reset both hardware facts are cached, afterwards nothing is
written (41_capability.md R110, R111). -/
def probeCapabilities (s : State) : State :=
  if s.capv then s else { s with cap := capabilityBits s.platform, capv := true }

end Sys2Proof.Machine
end

