-- ==== Sys2Proof/Machine/Operands.lean ====
section
/-! DEFINITION. The operand buffers of the commands: their regions (20_memory.md R49), the order in which
they are accessed (20_memory.md R53) and the values read from them (20_memory.md R41 to R45). -/

namespace Sys2Proof.Machine

/-- An operand region: the bytes `addr .. addr + len - 1`, on mathematical integers (20_memory.md R46). -/
structure Span where
  addr : Nat
  len : Nat
  deriving DecidableEq, Repr

/-- An access of a command (20_memory.md R53); the bytes of its span are accessed from the lowest
address upward. -/
inductive Access where
  | read (span : Span)
  | write (span : Span)
  deriving DecidableEq, Repr

/-- `rounds` in {10, 12, 14} (42_blockcipher.md R122, 44_inversekey.md R157). -/
def legalRounds (rounds : Nat) : Bool := rounds == 10 || rounds == 12 || rounds == 14

/-- `bits` in {128, 192, 256} (43_keyschedule.md R152). -/
def legalBits (bits : Nat) : Bool := bits == 128 || bits == 192 || bits == 256

/-- The rounds of the cipher for a key size (00_scope.md R8). -/
def roundsOfBits (bits : Nat) : Nat :=
  if bits = 128 then 10 else if bits = 192 then 12 else 14

/-- The length of a Round Key Sequence in bytes (20_memory.md R43). -/
def scheduleBytes (rounds : Nat) : Nat := 16 * (rounds + 1)

/-- How many bytes of unspecified value EXPANDKEY writes after the sequence (20_memory.md R49,
43_keyschedule.md R141, R146, R150). -/
def trailingBytes (bits : Nat) : Nat :=
  if bits = 128 then 0 else if bits = 192 then 8 else 16

/-- The region of `len` bytes at a pointer. -/
def spanAt (s : State) (r : PtrReg) (len : Nat) : Span := ⟨effAddr s r 0, len⟩

/-- The regions a command reads (20_memory.md R49), in the order `P0`, `P1`. -/
def readSpans (i : Instr) (s : State) : List Span :=
  match i with
  | .hassupport _ => []
  | .cryptblockEnc rounds =>
    if legalRounds rounds then [spanAt s .p0 (scheduleBytes rounds), spanAt s .p1 16] else []
  | .cryptblockDec rounds =>
    if legalRounds rounds then [spanAt s .p0 (scheduleBytes rounds), spanAt s .p1 16] else []
  | .expandkey bits => if legalBits bits then [spanAt s .p0 (bits / 8)] else []
  | .derivedec rounds =>
    if legalRounds rounds then [spanAt s .p0 (scheduleBytes rounds)] else []
  | .gfmul => [spanAt s .p0 16, spanAt s .p1 16]

/-- The regions a command writes (20_memory.md R49). -/
def writeSpans (i : Instr) (s : State) : List Span :=
  match i with
  | .hassupport _ => []
  | .cryptblockEnc rounds => if legalRounds rounds then [spanAt s .p2 16] else []
  | .cryptblockDec rounds => if legalRounds rounds then [spanAt s .p2 16] else []
  | .expandkey bits =>
    if legalBits bits then
      [spanAt s .p1 (scheduleBytes (roundsOfBits bits) + trailingBytes bits)]
    else []
  | .derivedec rounds =>
    if legalRounds rounds then [spanAt s .p1 (scheduleBytes rounds)] else []
  | .gfmul => [spanAt s .p2 16]

/-- The length of a command's region at a pointer, 0 where the command uses none there (20_memory.md R49,
10_state.md R22). -/
def operandBytes (i : Instr) (r : PtrReg) : Nat :=
  match i with
  | .hassupport _ => 0
  | .cryptblockEnc rounds =>
    if legalRounds rounds then (match r with | .p0 => scheduleBytes rounds | .p1 => 16 | .p2 => 16)
    else 0
  | .cryptblockDec rounds =>
    if legalRounds rounds then (match r with | .p0 => scheduleBytes rounds | .p1 => 16 | .p2 => 16)
    else 0
  | .expandkey bits =>
    if legalBits bits then
      (match r with
        | .p0 => bits / 8
        | .p1 => scheduleBytes (roundsOfBits bits) + trailingBytes bits
        | .p2 => 0)
    else 0
  | .derivedec rounds =>
    if legalRounds rounds then
      (match r with | .p0 => scheduleBytes rounds | .p1 => scheduleBytes rounds | .p2 => 0)
    else 0
  | .gfmul => 16

/-- The round-key spans at a pointer for the given indices (20_memory.md R43). -/
def keySpans (s : State) (r : PtrReg) (indices : List Nat) : List Span :=
  indices.map fun k => ⟨effAddr s r (16 * k), 16⟩

/-- The accesses of a command that runs, in the order of 20_memory.md R53. No agent can observe the
order, since the command is atomic; it is given for a reader that records a history. -/
def accesses (i : Instr) (s : State) : List Access :=
  match i with
  | .hassupport _ => []
  | .cryptblockEnc rounds =>
    .read (spanAt s .p1 16) :: ((keySpans s .p0 (List.range (rounds + 1))).map .read
      ++ [.write (spanAt s .p2 16)])
  | .cryptblockDec rounds =>
    .read (spanAt s .p1 16) :: ((keySpans s .p0 (List.range (rounds + 1))).map .read
      ++ [.write (spanAt s .p2 16)])
  | .expandkey bits =>
    [.read (spanAt s .p0 (bits / 8)),
     .write (spanAt s .p1 (scheduleBytes (roundsOfBits bits) + trailingBytes bits))]
  | .derivedec rounds =>
    (keySpans s .p0 (List.range (rounds + 1)).reverse).map .read
      ++ (keySpans s .p1 (List.range (rounds + 1))).map .write
  | .gfmul => [.read (spanAt s .p0 16), .read (spanAt s .p1 16), .write (spanAt s .p2 16)]

/-- The `Bytes(16)` value at an address (20_memory.md R41). -/
def readBlock (m : Memory) (addr : Nat) : Block := blockOfBytes (memRead m addr 16) 0

/-- Round key `r` of the sequence at `P0` (20_memory.md R43). -/
def roundKeyAt (s : State) (r : Nat) : Block := readBlock s.mem (effAddr s .p0 (16 * r))

end Sys2Proof.Machine
end

