-- ==== Sys2Proof/Machine/Checks.lean ====
section
/-! DEFINITION. The checks before a command runs and their order (60_exceptions.md R190), with the end
each of them gives the command. The check for an illegal word stands in HostPort.lean: a command that
has been decoded is legal. -/

namespace Sys2Proof.Machine

/-- What the checks decide. -/
inductive Verdict where
  /-- The engine is faulted: the command is refused (60_exceptions.md R185). -/
  | refused
  | fault (cause : FaultCause)
  | error (kind : ErrKind)
  | runs
  deriving DecidableEq, Repr

/-- The hardware fact a command needs: AES for the four AES commands, carry-less multiply for GFMUL,
none for HASSUPPORT (60_exceptions.md R187, 41_capability.md R116). -/
def capabilityPresent (i : Instr) (p : Platform) : Bool :=
  match i with
  | .hassupport _ => true
  | .cryptblockEnc _ => p.hwAes
  | .cryptblockDec _ => p.hwAes
  | .expandkey _ => p.hwAes
  | .derivedec _ => p.hwAes
  | .gfmul => p.hwClmul

/-- Check 5 of 60_exceptions.md R190. -/
def bitsAccepted : Instr → Bool
  | .hassupport _ => true
  | .cryptblockEnc _ => true
  | .cryptblockDec _ => true
  | .expandkey bits => legalBits bits
  | .derivedec _ => true
  | .gfmul => true

/-- Check 6 of 60_exceptions.md R190. -/
def roundsAccepted : Instr → Bool
  | .hassupport _ => true
  | .cryptblockEnc rounds => legalRounds rounds
  | .cryptblockDec rounds => legalRounds rounds
  | .expandkey _ => true
  | .derivedec rounds => legalRounds rounds
  | .gfmul => true

/-- Check 7 of 60_exceptions.md R190: every byte of every region exists (20_memory.md R48). -/
def footprintValid (i : Instr) (s : State) : Bool :=
  (readSpans i s ++ writeSpans i s).all fun r => spanValid s.platform r.addr r.len

/-- The checks in their order; HASSUPPORT meets only the first (60_exceptions.md R190). -/
def precheck (i : Instr) (s : State) : Verdict :=
  if s.status.fault then .refused
  else if !capabilityPresent i s.platform then .fault .capabilityAbsent
  else if !bitsAccepted i then .error .invalidKeyLength
  else if !roundsAccepted i then .fault .roundsInvalid
  else if !footprintValid i s then .fault .addressFault
  else .runs

/-- A command under its checks: a refused one changes nothing, a fault is taken, an error is a completion
that writes no memory, and otherwise the command's own rule `run` gives the state (00_scope.md R15,
20_memory.md R50, 60_exceptions.md R180). -/
def underChecks (i : Instr) (s : State) (run : State → State) :
    Host.Outcome State Fault Refusal :=
  match precheck i s with
  | .refused => .next s
  | .fault cause => .next (raiseFault cause s)
  | .error kind => .next (complete false (some kind) s)
  | .runs => .next (run s)

end Sys2Proof.Machine
end

