-- ==== Sys2Proof/Machine/BlockCipher.lean ====
section
/-! DEFINITION. The Block Cipher Engine (42_blockcipher.md). -/

namespace Sys2Proof.Machine

/-- The structure both directions share: key 0 is added, keys `1 .. rounds-1` go through the round
primitive in rising order, key `rounds` through the final one (42_blockcipher.md R123). -/
def cryptBlock (round final : Block → Block → Block) (rounds : Nat) (rk : Nat → Block)
    (input : Block) : Block :=
  let whitened := xorBlock input (rk 0)
  let acc := (List.range (rounds - 1)).foldl (fun acc r => round acc (rk (r + 1))) whitened
  final acc (rk rounds)

/-- The output of CRYPTBLOCK.ENC (42_blockcipher.md R120). -/
def encryptBlock (rounds : Nat) (rk : Nat → Block) (input : Block) : Block :=
  cryptBlock aesRound aesFinalRound rounds rk input

/-- The output of CRYPTBLOCK.DEC (42_blockcipher.md R121). -/
def decryptBlock (rounds : Nat) (rk : Nat → Block) (input : Block) : Block :=
  cryptBlock aesInvRound aesInvFinalRound rounds rk input

/-- CRYPTBLOCK.ENC: schedule at `P0`, input at `P1`, output to `P2` (42_blockcipher.md R120). -/
def execCryptblockEnc (rounds : Nat) (s : State) : Host.Outcome State Fault Refusal :=
  underChecks (.cryptblockEnc rounds) s fun s =>
    let input := readBlock s.mem (effAddr s .p1 0)
    let output := encryptBlock rounds (roundKeyAt s) input
    complete false none (storeBytes (effAddr s .p2 0) (bytesOfBlock output) s)

/-- CRYPTBLOCK.DEC: decryption schedule at `P0`, input at `P1`, output to `P2` (42_blockcipher.md R121). -/
def execCryptblockDec (rounds : Nat) (s : State) : Host.Outcome State Fault Refusal :=
  underChecks (.cryptblockDec rounds) s fun s =>
    let input := readBlock s.mem (effAddr s .p1 0)
    let output := decryptBlock rounds (roundKeyAt s) input
    complete false none (storeBytes (effAddr s .p2 0) (bytesOfBlock output) s)

end Sys2Proof.Machine
end

