-- ==== Sys2Proof/Machine/Capability.lean ====
section
/-! DEFINITION. The Capability Detector (41_capability.md). -/

namespace Sys2Proof.Machine

/-- HASSUPPORT: probe on the first query, then answer from the cache (41_capability.md R110). -/
def execHassupport (mask : BitVec 2) (s : State) : Host.Outcome State Fault Refusal :=
  underChecks (.hassupport mask) s fun s =>
    let probed := probeCapabilities s
    complete (anyCapability probed.cap mask) none probed

end Sys2Proof.Machine
end

