-- ==== Sys2Proof/Machine/Clmul.lean ====
section
/-! DEFINITION. Carry-less multiplication and the reduction of GFMUL's datapath (40_primitives.md R101,
R102; 45_gfmul.md R166 to R170). -/

namespace Sys2Proof.Machine

/-- `Clmul64(a, b)`: the exclusive or of `a << i` over the bits `i` of `b` that are 1
(40_primitives.md R101). -/
def clmul64 (a b : BitVec 64) : BitVec 128 :=
  (List.range 64).foldl
    (fun acc i => if b.getLsbD i then acc ^^^ (a.setWidth 128 <<< i) else acc) 0#128

/-- `ClmulWide(A, B)`: four 64-bit products, the two cross terms combined and spliced into the middle
(45_gfmul.md R167). -/
def clmulWide (x y : BitVec 128) : BitVec 256 :=
  let low := clmul64 (qword x 0) (qword y 0)
  let high := clmul64 (qword x 1) (qword y 1)
  let cross := clmul64 (qword x 0) (qword y 1) ^^^ clmul64 (qword x 1) (qword y 0)
  (high.setWidth 256 <<< 128) ^^^ (cross.setWidth 256 <<< 64) ^^^ low.setWidth 256

/-- `Reduce(X)` modulo x^128 + x^7 + x^2 + x + 1: the left shifts stay within the lowest 64-bit lane,
the right shifts go across 128 bits (45_gfmul.md R169, 90_conflicts.md C4). -/
def reduceGf (x : BitVec 256) : BitVec 128 :=
  let lo := x.extractLsb' 0 128
  let hi := x.extractLsb' 128 128
  let x0 := qword lo 0
  let x1 := qword lo 1
  let t := (x0 <<< 63) ^^^ (x0 <<< 62) ^^^ (x0 <<< 57)
  let h : BitVec 128 := ((x1 ^^^ t).setWidth 128 <<< 64) ||| x0.setWidth 128
  hi ^^^ h ^^^ (h >>> 1) ^^^ (h >>> 2) ^^^ (h >>> 7)

/-- The product of two field elements in wire format: load big-endian, multiply, shift the 256-bit
product left by one, reduce, store big-endian (45_gfmul.md R165 to R170). -/
def gfProduct (a b : Block) : Block :=
  blockBe (reduceGf (clmulWide (be128 a) (be128 b) <<< 1))

end Sys2Proof.Machine
end

