-- ==== Sys2Proof/Machine/GfMul.lean ====
section
/-! DEFINITION. The GF(2^128) Multiplier (45_gfmul.md). -/

namespace Sys2Proof.Machine

/-- GFMUL: factors at `P0` and `P1`, product to `P2` (45_gfmul.md R165). -/
def execGfmul (s : State) : Host.Outcome State Fault Refusal :=
  underChecks .gfmul s fun s =>
    let a := readBlock s.mem (effAddr s .p0 0)
    let b := readBlock s.mem (effAddr s .p1 0)
    complete false none (storeBytes (effAddr s .p2 0) (bytesOfBlock (gfProduct a b)) s)

end Sys2Proof.Machine
end

