-- ==== Sys2Proof/Machine/InverseKey.lean ====
section
/-! DEFINITION. The Inverse Key Deriver (44_inversekey.md). -/

namespace Sys2Proof.Machine

/-- Decryption round key `i`: the first and the last are the forward keys copied unchanged, every
interior one is transformed by the inverse column mix, in reversed order (44_inversekey.md R155, R156). -/
def decryptionKey (rounds : Nat) (fk : Nat → Block) (i : Nat) : Block :=
  if i = 0 then fk rounds
  else if i = rounds then fk 0
  else aesInvMixColumns (fk (rounds - i))

/-- The bytes of a Round Key Sequence (20_memory.md R43). -/
def bytesOfSchedule (rounds : Nat) (keys : Nat → Block) : List Byte :=
  (List.range (rounds + 1)).flatMap fun r => bytesOfBlock (keys r)

/-- DERIVEDEC: forward schedule at `P0`, decryption schedule to `P1` (44_inversekey.md R155). -/
def execDerivedec (rounds : Nat) (s : State) : Host.Outcome State Fault Refusal :=
  underChecks (.derivedec rounds) s fun s =>
    let out := bytesOfSchedule rounds (decryptionKey rounds (roundKeyAt s))
    complete false none (storeBytes (effAddr s .p1 0) out s)

end Sys2Proof.Machine
end

