-- ==== Sys2Proof/Machine/KeySchedule.lean ====
section
/-! DEFINITION. The Key Schedule Generator (43_keyschedule.md). -/

namespace Sys2Proof.Machine

/-- `Chain4`: the running exclusive or of four words from the feed `z` (43_keyschedule.md R137). -/
def chain4 (k : Block) (z : Word32) : Block :=
  let n0 := xorWord k.w0 z
  let n1 := xorWord k.w1 n0
  let n2 := xorWord k.w2 n1
  ⟨n0, n1, n2, xorWord k.w3 n2⟩

/-- The states that `n` steps make one after the other, the first being step `j` of the expansion. -/
def expansionSteps {α : Type} (step : Nat → α → α) : Nat → Nat → α → List α
  | 0, _, _ => []
  | n + 1, j, a => step j a :: expansionSteps step n (j + 1) (step j a)

/-- Step `j` of the 128-bit variant: the feed is word 3 of the assist (43_keyschedule.md R138). -/
def step128 (j : Nat) (p : Block) : Block :=
  chain4 p (aesKeyGenAssist p (roundConstant j)).w3

/-- The words that the 128-bit variant emits (43_keyschedule.md R138). -/
def expand128 (key : List Byte) : List Word32 :=
  let seed := blockOfBytes key 0
  (seed :: expansionSteps step128 10 1 seed).flatMap wordsOfBlock

/-- The state of the 192-bit variant: a 128-bit word and a trailing 64-bit word (43_keyschedule.md R142). -/
structure State192 where
  main : Block
  r4 : Word32
  r5 : Word32
  deriving DecidableEq, Repr

/-- Step `j` of the 192-bit variant: `r5` is word 1 of the assist's operand, whose words 2 and 3 do not
matter, and the feed is word 1 of its result (43_keyschedule.md R142). -/
def step192 (j : Nat) (st : State192) : State192 :=
  let feed := (aesKeyGenAssist ⟨st.r4, st.r5, zeroWord, zeroWord⟩ (roundConstant j)).w1
  let main := chain4 st.main feed
  let n4 := xorWord st.r4 main.w3
  ⟨main, n4, xorWord st.r5 n4⟩

/-- The six words of a state of the 192-bit variant, in the order they are emitted. -/
def words192 (st : State192) : List Word32 := wordsOfBlock st.main ++ [st.r4, st.r5]

/-- The words that the 192-bit variant emits (43_keyschedule.md R142). -/
def expand192 (key : List Byte) : List Word32 :=
  let seed : State192 := ⟨blockOfBytes key 0, wordOfBytes key 4, wordOfBytes key 5⟩
  (seed :: expansionSteps step192 8 1 seed).flatMap words192

/-- The state of the 256-bit variant: two 128-bit words (43_keyschedule.md R147). -/
structure State256 where
  a : Block
  b : Block
  deriving DecidableEq, Repr

/-- Paired step `j` of the 256-bit variant: the even key is fed by word 3 of the assist of `b`, the odd
key by word 2 of the assist, without constant, of the key just made (43_keyschedule.md R147). -/
def step256 (j : Nat) (st : State256) : State256 :=
  let a := chain4 st.a (aesKeyGenAssist st.b (roundConstant j)).w3
  ⟨a, chain4 st.b (aesKeyGenAssist a 0x00#8).w2⟩

/-- The eight words of a state of the 256-bit variant. -/
def words256 (st : State256) : List Word32 := wordsOfBlock st.a ++ wordsOfBlock st.b

/-- The words that the 256-bit variant emits (43_keyschedule.md R147). -/
def expand256 (key : List Byte) : List Word32 :=
  let seed : State256 := ⟨blockOfBytes key 0, blockOfBytes key 1⟩
  (seed :: expansionSteps step256 7 1 seed).flatMap words256

/-- The words of the Round Key Sequence: what the variant emits, less what lies beyond the sequence
(43_keyschedule.md R141, R145, R149). -/
def expandedWords (bits : Nat) (key : List Byte) : List Word32 :=
  (if bits = 128 then expand128 key else if bits = 192 then expand192 key else expand256 key).take
    (4 * (roundsOfBits bits + 1))

/-- EXPANDKEY: key at `P0`, sequence to `P1`; the bytes written beyond the sequence are drawn
(43_keyschedule.md R135, R146, R150, R152). -/
def execExpandkey (bits : Nat) (s : State) : Host.Outcome State Fault Refusal :=
  underChecks (.expandkey bits) s fun s =>
    let key := memRead s.mem (effAddr s .p0 0) (bits / 8)
    let out := bytesOfWords (expandedWords bits key) ++ drawBytes (trailingBytes bits) key s
    complete false none
      (advanceDraws (trailingBytes bits) (storeBytes (effAddr s .p1 0) out s))

end Sys2Proof.Machine
end

