-- ==== Sys2Proof/Machine/Dispatch.lean ====
section
/-! DEFINITION. The meaning of every command, one arm per constructor. -/

namespace Sys2Proof.Machine

def exec (i : Instr) (s : State) : Host.Outcome State Fault Refusal :=
  match i with
  | .hassupport mask => Sys2Proof.Machine.execHassupport mask s
  | .cryptblockEnc rounds => Sys2Proof.Machine.execCryptblockEnc rounds s
  | .cryptblockDec rounds => Sys2Proof.Machine.execCryptblockDec rounds s
  | .expandkey bits => Sys2Proof.Machine.execExpandkey bits s
  | .derivedec rounds => Sys2Proof.Machine.execDerivedec rounds s
  | .gfmul => Sys2Proof.Machine.execGfmul s

end Sys2Proof.Machine
end

