-- ==== Sys2Proof/Machine/HostPort.lean ====
section
/-! DEFINITION. The host's side: the register block (10_state.md R21), the command port (R23) and the
host's moves (70_reset_and_hazards.md R209). -/

namespace Sys2Proof.Machine

/-- The offset of a register in the register block (10_state.md R21). -/
def regOffset : HostReg → Nat
  | .cmd => 0x00
  | .status => 0x04
  | .ptr .p0 => 0x08
  | .ptr .p1 => 0x10
  | .ptr .p2 => 0x18

/-- The register at an address, for a register block placed at `regBase` (10_state.md R21; `REG_BASE` is
an argument, 00_scope.md R9). -/
def regAtAddress (regBase addr : Nat) : Option HostReg :=
  [HostReg.cmd, .status, .ptr .p0, .ptr .p1, .ptr .p2].find? fun r => regBase + regOffset r == addr

/-- What a read of a register returns; `CMD` reads 0, and no read has a side effect (10_state.md R21,
R24). -/
def readRegister (s : State) : HostReg → BitVec 64
  | .cmd => 0
  | .status => (statusWord s.status).setWidth 64
  | .ptr r => ptr s r

/-- The move that a host's write of `v` to a register is; a 32-bit register takes the low 32 bits. -/
def writeMove (r : HostReg) (v : BitVec 64) : HostMove :=
  match r with
  | .cmd => .writeCmd (v.setWidth 32)
  | .status => .writeStatus (v.setWidth 32)
  | .ptr p => .setP p v

/-- A host's write to the command port: a faulted engine refuses it, an illegal word faults, a legal word
runs its command (10_state.md R23, 30_encoding.md R66, 60_exceptions.md R190). -/
def issueWord (w : CmdWord) (s : State) : Host.Outcome State Fault Refusal :=
  if s.status.fault then .next s
  else
    match decode w with
    | .illegal _ => .next (raiseFault .illegalCommand s)
    | .command i => exec i s

/-- The host takes an answer. -/
def giveAnswer (a : HostAnswer) (s : State) : State := { s with answer := some a }

/-- One host move (70_reset_and_hazards.md R209). A load or store of bytes that do not exist has no
meaning (00_scope.md R14, log entry 7). -/
def performMove (m : HostMove) (s : State) : Host.Outcome State Fault Refusal :=
  match m with
  | .setP r v => .next (setPtr r v s)
  | .writeCmd w => issueWord w s
  | .writeStatus _ => .next s
  | .readReg r => .next (giveAnswer (.reg (readRegister s r)) s)
  | .load addr n =>
    if spanValid s.platform addr.toNat n then
      .next (giveAnswer (.bytes (memRead s.mem addr.toNat n)) s)
    else .fault (.hostAddressAbsent addr n)
  | .store addr bytes =>
    if spanValid s.platform addr.toNat bytes.length then
      .next (storeBytes addr.toNat bytes s)
    else .fault (.hostAddressAbsent addr bytes.length)
  | .reset => .next (resetEngine s)

/-- The state in which a move is made: it is no longer to be made, and nothing is answered yet. -/
def takeMove (rest : List HostMove) (s : State) : State :=
  { s with moves := rest, answer := none }

/-- The machine makes the host's oldest move; when there is none it is idle and keeps all its state
(60_exceptions.md R202, 70_reset_and_hazards.md R223). -/
def runNextMove (s : State) : Host.Outcome State Fault Refusal :=
  match s.moves with
  | [] => .next s
  | m :: rest => performMove m (takeMove rest s)

/-- The host is about to write the word `w` to the command port. -/
def placeCommand (w : CmdWord) (s : State) : State :=
  { s with moves := .writeCmd w :: s.moves }

end Sys2Proof.Machine
end

