-- ==== Sys2Proof/Machine/Step.lean ====
section
/-! DEFINITION. One step of the machine: one host move (70_reset_and_hazards.md R209, R223). -/

namespace Sys2Proof.Machine

/-- One step: the host's oldest move is made, or the engine is idle. -/
def step (s : State) : Host.Outcome State Fault Refusal := runNextMove s

/-- `s` with the command word of `nbits` bits `w` as the host's next move, so that the next step issues
it (log entry 6). -/
def State.withFetchWord (s : State) (nbits w : Nat) : State := placeCommand (tableWord nbits w) s

end Sys2Proof.Machine
end

