-- ==== Sys2Proof/Machine/Reference.lean ====
section
/-! DEFINITION. Reference functions the spec gives beside the datapath, and the words in which statements
speak of a command's effect. No command's meaning uses them. -/

namespace Sys2Proof.Machine

/-- The affine map `A` of the S-box: `b` with its four left rotations and 0x63 (40_primitives.md R83). -/
def affineMap (b : Byte) : Byte :=
  b ^^^ b.rotateLeft 1 ^^^ b.rotateLeft 2 ^^^ b.rotateLeft 3 ^^^ b.rotateLeft 4 ^^^ 0x63#8

/-- Multiplication by `x` in the bit-reflected field (45_gfmul.md R173, the update of `V`). -/
def refDouble (v : BitVec 128) : BitVec 128 :=
  if v.getLsbD 0 then (v >>> 1) ^^^ (0xE1#128 <<< 120) else v >>> 1

/-- `n` iterations of the loop of `RefMul`, the next one being iteration `i` (45_gfmul.md R173). -/
def refMulFrom (x : BitVec 128) : Nat → Nat → BitVec 128 → BitVec 128 → BitVec 128
  | 0, _, z, _ => z
  | n + 1, i, z, v =>
    refMulFrom x n (i + 1) (if x.getLsbD (127 - i) then z ^^^ v else z) (refDouble v)

/-- The bit-serial reference multiplier `RefMul` (45_gfmul.md R173). -/
def refMul (x y : BitVec 128) : BitVec 128 := refMulFrom x 128 0 0#128 y

/-- The plain inverse cipher from `y_r+1` down to `y_1`, with the forward keys `r .. 1`
(42_blockcipher.md R129). -/
def plainInverseFrom (rk : Nat → Block) : Nat → Block → Block
  | 0, y => y
  | r + 1, y =>
    plainInverseFrom rk r (invMixColumns (xorBlock (invSubBytes (invShiftRows y)) (rk (r + 1))))

/-- The straightforward inverse cipher with the forward keys taken backwards (42_blockcipher.md R129). -/
def plainInverse (rounds : Nat) (rk : Nat → Block) (x : Block) : Block :=
  let y1 := plainInverseFrom rk (rounds - 1) (xorBlock x (rk rounds))
  xorBlock (invSubBytes (invShiftRows y1)) (rk 0)

/-- The word at an address: four bytes, the first at the lowest address (20_memory.md R43). -/
def wordAt (m : Memory) (addr : Nat) : Word32 := wordOfBytes (memRead m addr 4) 0

/-- The block at an address (20_memory.md R41). -/
def blockAt (m : Memory) (addr : Nat) : Block := readBlock m addr

/-- `Valid(P[r], n)` in the words of 20_memory.md R46. -/
def ValidAt (s : State) (r : PtrReg) (n : Nat) : Prop :=
  effAddr s r 0 + n ≤ 2 ^ 64 ∧ ∀ k < n, memValid s.platform (effAddr s r 0 + k) = true

/-- `s` with a first fault recorded: `FAULT <- 1`, `FCODE <- code`, nothing else (00_scope.md R15). -/
def withFault (c : FaultCause) (s : State) : State :=
  { s with status := { s.status with fault := true, fcode := some c } }

/-- `s` with `RESULT` and `ERR` written, nothing else (00_scope.md R15). -/
def withResult (result : Bool) (err : Option ErrKind) (s : State) : State :=
  { s with status := { s.status with result := result, err := err } }

/-- `t` is `s` with `RESULT` and `ERR` at 0 and with other memory: no pointer register, no other field of
`STATUS`, no part of the cache or of the platform has changed. -/
def CompletedFrom (s t : State) : Prop := t = { withResult false none s with mem := t.mem }

/-- Every byte of memory outside `addr .. addr + len - 1` reads in `t` as in `s`. -/
def UnchangedOutside (s t : State) (addr len : Nat) : Prop :=
  ∀ a, a < addr ∨ addr + len ≤ a → memGet t.mem a = memGet s.mem a

end Sys2Proof.Machine
end

