-- ==== Sys2Proof/Safety.lean ====
section
/-! DEFINITION. What a run from reset keeps, the host's duties (70_reset_and_hazards.md R207 to R213) with
what the host has learnt from the answers it read, and what counts as a good run (R223). -/

namespace Sys2Proof.Safety

open Sys2Proof.Machine

/-- Only bytes that exist are listed (10_state.md R30, 20_memory.md R46). -/
abbrev MemExists (s : State) : Prop :=
  ∀ c ∈ s.mem, c.1 < 2 ^ 64 ∧ memValid s.platform c.1 = true

/-- The cache, once valid, holds the hardware facts (41_capability.md R111, R112). -/
abbrev CacheCorrect (s : State) : Prop := s.capv = true → s.cap = capabilityBits s.platform

/-- `FCODE` names a cause exactly when `FAULT` is set (10_state.md R24, R26). -/
abbrev FaultCoded (s : State) : Prop := s.status.fcode.isSome = s.status.fault

/-- The invariant of every run from reset. -/
abbrev EngineInv (s : State) : Prop :=
  s.mem.wf ∧ MemExists s ∧ CacheCorrect s ∧ FaultCoded s

/-- A state just after a reset (10_state.md R35): every register at its reset value, `CAP` unspecified,
on any platform and with any memory content that the platform can hold. -/
abbrev AfterReset (s : State) : Prop :=
  s.p0 = 0 ∧ s.p1 = 0 ∧ s.p2 = 0 ∧ s.status = statusAtReset ∧ s.capv = false ∧
    s.mem.wf ∧ MemExists s

/-- The good states: no fault has happened (70_reset_and_hazards.md R223). -/
abbrev NotFaulted (s : State) : Prop := s.status.fault = false

/-- Every byte of the command's footprint exists (70_reset_and_hazards.md R207, R213). -/
abbrev BuffersExist (i : Instr) (s : State) : Prop := footprintValid i s = true

/-- The bits of the key size whose schedule has `rounds` rounds (00_scope.md R8). -/
def bitsOfRounds (rounds : Nat) : Nat :=
  if rounds = 10 then 128 else if rounds = 12 then 192 else 256

/-- The forward schedule of a key for `rounds` (43_keyschedule.md R136). -/
def forwardKey (rounds : Nat) (key : List Byte) (r : Nat) : Block :=
  blockOfBytes (bytesOfWords (expandedWords (bitsOfRounds rounds) key)) r

/-- The duty of 70_reset_and_hazards.md R211 for CRYPTBLOCK.ENC and DERIVEDEC: the bytes at `P0` are the
forward schedule of some key of the right size. -/
def HoldsForwardSchedule (rounds : Nat) (s : State) : Prop :=
  ∃ key : List Byte, key.length = bitsOfRounds rounds / 8 ∧
    ∀ r ≤ rounds, roundKeyAt s r = forwardKey rounds key r

/-- The duty of 70_reset_and_hazards.md R211 for CRYPTBLOCK.DEC: the bytes at `P0` are what DERIVEDEC
makes of such a schedule. -/
def HoldsDecryptionSchedule (rounds : Nat) (s : State) : Prop :=
  ∃ key : List Byte, key.length = bitsOfRounds rounds / 8 ∧
    ∀ r ≤ rounds, roundKeyAt s r = decryptionKey rounds (forwardKey rounds key) r

/-- The data duty of a command (70_reset_and_hazards.md R211); the engine cannot check it
(60_exceptions.md R191) and runs without it. -/
def DataDuty (i : Instr) (s : State) : Prop :=
  match i with
  | .hassupport _ => True
  | .cryptblockEnc rounds => HoldsForwardSchedule rounds s
  | .cryptblockDec rounds => HoldsDecryptionSchedule rounds s
  | .expandkey _ => True
  | .derivedec rounds => HoldsForwardSchedule rounds s
  | .gfmul => True

/-- What the host has learnt since the last reset from the answers it read (70_reset_and_hazards.md
R210). -/
structure HostView where
  /-- The mask of the HASSUPPORT whose answer stands in `STATUS.RESULT`, if it is one's. -/
  asked : Option (BitVec 2)
  /-- `RESULT = 1` was read for mask bit 0. -/
  aes : Bool
  /-- `RESULT = 1` was read for mask bit 1. -/
  clmul : Bool
  deriving DecidableEq, Repr

/-- Nothing asked yet. -/
def HostView.none : HostView := ⟨.none, false, false⟩

/-- The host reads the answer `RESULT`. It has its answer for a bit if it asked for that bit alone: of a
mask with both bits a 1 does not say which is present (41_capability.md R113; log entry 13). -/
def HostView.reads (v : HostView) (result : Bool) : HostView :=
  { v with
    aes := v.aes || (result && decide (v.asked = some 1#2))
    clmul := v.clmul || (result && decide (v.asked = some 2#2)) }

/-- What a command leaves to be read in `RESULT`: the answer for its mask, if it is HASSUPPORT. -/
def queryOf : Instr → Option (BitVec 2)
  | .hassupport mask => some mask
  | .cryptblockEnc _ => none
  | .cryptblockDec _ => none
  | .expandkey _ => none
  | .derivedec _ => none
  | .gfmul => none

/-- The host has issued a word. -/
def HostView.issues (v : HostView) (w : CmdWord) : HostView :=
  match decode w with
  | .command i => { v with asked := queryOf i }
  | .illegal _ => v

/-- What the host has learnt once the move `m` has been made in `s`: a command leaves its own answer in
`RESULT`, a read of `STATUS` tells it, a reset begins anew. -/
def HostView.after (m : HostMove) (s : State) (v : HostView) : HostView :=
  match m with
  | .setP _ _ => v
  | .writeCmd w => v.issues w
  | .writeStatus _ => v
  | .readReg r => if r = .status then v.reads ((readRegister s r).getLsbD 0) else v
  | .load _ _ => v
  | .store _ _ => v
  | .reset => HostView.none

/-- The duty to ask first (70_reset_and_hazards.md R210): the host has read `RESULT = 1` for the
capability the command needs. -/
def AskedFirst (i : Instr) (v : HostView) : Prop :=
  match i with
  | .hassupport _ => True
  | .cryptblockEnc _ => v.aes = true
  | .cryptblockDec _ => v.aes = true
  | .expandkey _ => v.aes = true
  | .derivedec _ => v.aes = true
  | .gfmul => v.clmul = true

/-- The buffers of its own that the host provides at `P0`, `P1` and `P2`. A buffer has no size in
hardware (20_memory.md R48): which bytes the host means is the host's, and no part of the state (log
entry 16). -/
structure HostBuffers where
  p0 : Span
  p1 : Span
  p2 : Span
  deriving DecidableEq, Repr

/-- The buffer provided at a pointer. -/
def HostBuffers.buffer (b : HostBuffers) : PtrReg → Span
  | .p0 => b.p0
  | .p1 => b.p1
  | .p2 => b.p2

/-- One region lies in another. -/
abbrev SpanWithin (r q : Span) : Prop := q.addr ≤ r.addr ∧ r.addr + r.len ≤ q.addr + q.len

/-- The duty of 70_reset_and_hazards.md R213: at each pointer the command uses, its whole region, the long
outputs of EXPANDKEY included, lies in the buffer that the host provides there. -/
def BufferDuty (i : Instr) (b : HostBuffers) (s : State) : Prop :=
  ∀ r, 0 < operandBytes i r → SpanWithin (spanAt s r (operandBytes i r)) (b.buffer r)

/-- A host move, and the buffers that the host provides at the pointers when it makes it. -/
structure HostAct where
  move : HostMove
  buffers : HostBuffers
  deriving DecidableEq, Repr

/-- A host move that keeps the duties of 70_reset_and_hazards.md R210 to R213: a command the host may
issue by what it has learnt, on buffers of its own, on the data it is meant for; or any other move whose
bytes exist. That no one else writes a command's buffers while it runs (R212) holds, a command being one
step. A write to `STATUS` and a read of `CMD`, which R209's table does not list and to which 10_state.md
R21 gives no effect, are counted as dutiful (DESIGN CHOICE, safe, log entry 15). -/
def DutifulMove (m : HostMove) (b : HostBuffers) (v : HostView) (s : State) : Prop :=
  match m with
  | .setP _ _ => True
  | .writeCmd w => ∃ i, decode w = .command i ∧ AskedFirst i v ∧ BufferDuty i b s ∧ DataDuty i s
  | .writeStatus _ => True
  | .readReg _ => True
  | .load addr n => spanValid s.platform addr.toNat n = true
  | .store addr bytes => spanValid s.platform addr.toNat bytes.length = true
  | .reset => True

/-- The host makes one move. -/
def makeMove (m : HostMove) (s : State) : Host.Outcome State Fault Refusal :=
  step { s with moves := [m] }

/-- The moves are made one after the other from `s`, each dutiful, and `FAULT` is 0 before, between and
after them. -/
def GoodFrom : List HostAct → HostView → State → Prop
  | [], _, s => NotFaulted s
  | a :: rest, v, s =>
    NotFaulted s ∧ DutifulMove a.move a.buffers v s ∧
      ∃ t, makeMove a.move s = .next t ∧ GoodFrom rest (v.after a.move s) t

/-- A good run (70_reset_and_hazards.md R223): a finite sequence of moves from a state just after reset,
every duty kept at every command, `FAULT` 0 at the end and so throughout. -/
def GoodRun (acts : List HostAct) (s : State) : Prop := AfterReset s ∧ GoodFrom acts HostView.none s

/-- What the host has learnt is so, as long as the engine is not faulted: the answer that stands in
`RESULT` is the mask's, and a capability it was told of is present (41_capability.md R112). -/
abbrev ViewTruthful (v : HostView) (s : State) : Prop :=
  s.status.fault = false →
    (∀ mask, v.asked = some mask →
      s.status.result = anyCapability (capabilityBits s.platform) mask) ∧
    (v.aes = true → s.platform.hwAes = true) ∧ (v.clmul = true → s.platform.hwClmul = true)

end Sys2Proof.Safety
end

