-- ==== Sys2Proof/Certificates/Slice0/Obligations.lean ====
section
/-! DEFINITION. The statements about CORE, from the numbered rules of spec/. The host's moves reach the
machine through the model's own fields `moves` and `answer` (log entry 6): a statement about a step says
what they become beside what the rule says. -/

open Sys2Proof Sys2Proof.Machine Sys2Proof.Safety

/-! ## Command words -/

/-- 30_encoding.md R68. Decoding follows the listed procedure on every word; a command's word is
`(imm << 8) | (dir << 4) | opc`; decoding the word of a command whose immediate fits gives the command
back; encoding what a legal word decodes to gives the word back, and such a command's immediate fits. -/
def Obligations.DecodeAndEncodeAgree : Prop :=
  (∀ w : CmdWord, (match decode w with | .command i => some i | .illegal _ => none) =
    let opc := w.extractLsb' 0 4
    let dir := w.getLsbD 4
    let imm := w.extractLsb' 8 16
    if w.extractLsb' 24 8 ≠ 0#8 ∨ w.extractLsb' 5 3 ≠ 0#3 then none
    else if opc = 1#4 ∧ dir = false ∧ imm.extractLsb' 2 14 = 0#14 then
      some (.hassupport (imm.extractLsb' 0 2))
    else if opc = 2#4 ∧ dir = false then some (.cryptblockEnc imm.toNat)
    else if opc = 2#4 ∧ dir = true then some (.cryptblockDec imm.toNat)
    else if opc = 3#4 ∧ dir = false then some (.expandkey imm.toNat)
    else if opc = 4#4 ∧ dir = false then some (.derivedec imm.toNat)
    else if opc = 5#4 ∧ dir = false ∧ imm = 0#16 then some .gfmul
    else none) ∧
  (∀ (imm : BitVec 16) (mask : BitVec 2),
    encode (.hassupport mask) = (mask.setWidth 32 <<< 8) ||| 0x1#32 ∧
    encode (.cryptblockEnc imm.toNat) = (imm.setWidth 32 <<< 8) ||| 0x2#32 ∧
    encode (.cryptblockDec imm.toNat) = (imm.setWidth 32 <<< 8) ||| (1#32 <<< 4) ||| 0x2#32 ∧
    encode (.expandkey imm.toNat) = (imm.setWidth 32 <<< 8) ||| 0x3#32 ∧
    encode (.derivedec imm.toNat) = (imm.setWidth 32 <<< 8) ||| 0x4#32 ∧
    encode .gfmul = 0x5#32) ∧
  (∀ i : Instr, i.wellFormed = true → decode (encode i) = .command i) ∧
  (∀ (w : CmdWord) (i : Instr), decode w = .command i → encode i = w ∧ i.wellFormed = true)

/-- 30_encoding.md R65. A word is the command of a row iff, masked, it is the row's pattern; its operand is
the row's immediate. Two rows never match one word, and a word no row matches is illegal. -/
def Obligations.OpcodeMapIsComplete : Prop :=
  ∀ w : CmdWord,
    let imm := w.extractLsb' 8 16
    (∀ mask, decode w = .command (.hassupport mask) ↔
      w &&& 0xFFFFFCFF#32 = 0x00000001#32 ∧ mask = w.extractLsb' 8 2) ∧
    (∀ r, decode w = .command (.cryptblockEnc r) ↔
      w &&& 0xFF0000FF#32 = 0x00000002#32 ∧ r = imm.toNat) ∧
    (∀ r, decode w = .command (.cryptblockDec r) ↔
      w &&& 0xFF0000FF#32 = 0x00000012#32 ∧ r = imm.toNat) ∧
    (∀ b, decode w = .command (.expandkey b) ↔
      w &&& 0xFF0000FF#32 = 0x00000003#32 ∧ b = imm.toNat) ∧
    (∀ r, decode w = .command (.derivedec r) ↔
      w &&& 0xFF0000FF#32 = 0x00000004#32 ∧ r = imm.toNat) ∧
    (decode w = .command .gfmul ↔ w &&& 0xFFFFFFFF#32 = 0x00000005#32) ∧
    ((∃ why, decode w = .illegal why) ↔
      w &&& 0xFFFFFCFF#32 ≠ 0x00000001#32 ∧ w &&& 0xFF0000FF#32 ≠ 0x00000002#32 ∧
      w &&& 0xFF0000FF#32 ≠ 0x00000012#32 ∧ w &&& 0xFF0000FF#32 ≠ 0x00000003#32 ∧
      w &&& 0xFF0000FF#32 ≠ 0x00000004#32 ∧ w &&& 0xFFFFFFFF#32 ≠ 0x00000005#32)

/-- 30_encoding.md R66. Which words are illegal, and that issuing one on an engine that is not faulted
records `IllegalCommand` and changes nothing else. -/
def Obligations.IllegalWordsFault : Prop :=
  (∀ w : CmdWord, (∃ why, decode w = .illegal why) ↔
    (w.extractLsb' 24 8 ≠ 0#8 ∨ w.extractLsb' 5 3 ≠ 0#3 ∨
      (w.extractLsb' 0 4 = 0#4 ∨ 6#4 ≤ w.extractLsb' 0 4) ∨
      (w.getLsbD 4 = true ∧ w.extractLsb' 0 4 ≠ 2#4) ∨
      (w.extractLsb' 0 4 = 1#4 ∧ w.extractLsb' 10 14 ≠ 0#14) ∨
      (w.extractLsb' 0 4 = 5#4 ∧ w.extractLsb' 8 16 ≠ 0#16))) ∧
  (∀ (w : CmdWord) (why : IllegalWord) (s : State) (rest : List HostMove),
    decode w = .illegal why → s.status.fault = false → s.moves = .writeCmd w :: rest →
    step s = .next (withFault .illegalCommand { s with moves := rest, answer := none }))

/-- 30_encoding.md R65, the words a host will use: each decodes to the command it stands for. -/
def Obligations.HostWordsDecode : Prop :=
  decode 0x00000001 = .command (.hassupport 0) ∧ decode 0x00000101 = .command (.hassupport 1) ∧
  decode 0x00000201 = .command (.hassupport 2) ∧ decode 0x00000301 = .command (.hassupport 3) ∧
  decode 0x00000A02 = .command (.cryptblockEnc 10) ∧ decode 0x00000C02 = .command (.cryptblockEnc 12) ∧
  decode 0x00000E02 = .command (.cryptblockEnc 14) ∧ decode 0x00000A12 = .command (.cryptblockDec 10) ∧
  decode 0x00000C12 = .command (.cryptblockDec 12) ∧ decode 0x00000E12 = .command (.cryptblockDec 14) ∧
  decode 0x00008003 = .command (.expandkey 128) ∧ decode 0x0000C003 = .command (.expandkey 192) ∧
  decode 0x00010003 = .command (.expandkey 256) ∧ decode 0x00006403 = .command (.expandkey 100) ∧
  decode 0x00000A04 = .command (.derivedec 10) ∧ decode 0x00000C04 = .command (.derivedec 12) ∧
  decode 0x00000E04 = .command (.derivedec 14) ∧ decode 0x00000005 = .command .gfmul

/-- 10_state.md R23. Writing a legal word to `CMD` runs its command: the step is the command's meaning on
the state in which the move has been taken. -/
def Obligations.StepRunsTheDecodedCommand : Prop :=
  ∀ (s : State) (w : CmdWord) (i : Instr) (rest : List HostMove), decode w = .command i →
    (s.moves = .writeCmd w :: rest → step s = exec i { s with moves := rest, answer := none }) ∧
    step (s.withFetchWord 32 w.toNat) = exec i { s with answer := none }

/-! ## HASSUPPORT -/

/-- 41_capability.md R110, R111. HASSUPPORT completes on every engine that is not faulted: the first query
caches both facts, a later one leaves the cache, the answer is taken from the cache, `RESULT` and `ERR`
are written, and nothing else changes; a faulted engine refuses it. Its words are those of its row. -/
def Obligations.HassupportAnswersFromTheCache : Prop :=
  (∀ w : CmdWord, w &&& 0xFFFFFCFF#32 = 0x00000001#32 →
    decode w = .command (.hassupport (w.extractLsb' 8 2))) ∧
  ∀ (mask : BitVec 2) (s : State),
    (s.status.fault = true → exec (.hassupport mask) s = .next s) ∧
    (s.status.fault = false →
      let cap := if s.capv = true then s.cap else
        BitVec.ofBool s.platform.hwClmul ++ BitVec.ofBool s.platform.hwAes
      exec (.hassupport mask) s =
        .next { withResult (decide (cap &&& mask ≠ 0#2)) none s with capv := true, cap := cap })

/-- 41_capability.md R112, R113. In every state in which a valid cache holds the hardware facts the answer
is `(m[0] & HW_AES) | (m[1] & HW_CLMUL)`; every state after reset is such a state, and every step, a
`RESET` among them, leads to such a state again, with the same hardware facts. -/
def Obligations.HassupportIsDeterministic : Prop :=
  (∀ (mask : BitVec 2) (s : State), CacheCorrect s → s.status.fault = false →
    ∃ t, exec (.hassupport mask) s = .next t ∧
      t.status.result =
        ((mask.getLsbD 0 && s.platform.hwAes) || (mask.getLsbD 1 && s.platform.hwClmul))) ∧
  (∀ s : State, AfterReset s → CacheCorrect s) ∧
  (∀ s t : State, CacheCorrect s → step s = .next t → CacheCorrect t ∧ t.platform = s.platform)

/-- 41_capability.md R111. The first HASSUPPORT, whatever its mask, caches both hardware facts; once the
cache is valid, no command and no host move but `RESET` changes it; no other command ever writes it. -/
def Obligations.CacheIsWrittenOnce : Prop :=
  (∀ (i : Instr) (s t : State), exec i s = .next t →
    (s.capv = true → t.capv = true ∧ t.cap = s.cap) ∧
    (s.capv = false → (∀ mask, i ≠ .hassupport mask) → t.capv = false ∧ t.cap = s.cap)) ∧
  (∀ (m : HostMove) (rest : List HostMove) (s t : State), s.moves = m :: rest → m ≠ .reset →
    step s = .next t → s.capv = true → t.capv = true ∧ t.cap = s.cap) ∧
  (∀ (mask : BitVec 2) (s : State), s.status.fault = false → s.capv = false →
    ∃ t, exec (.hassupport mask) s = .next t ∧ t.capv = true ∧
      t.cap.getLsbD 0 = s.platform.hwAes ∧ t.cap.getLsbD 1 = s.platform.hwClmul)

/-! ## CRYPTBLOCK -/

/-- 42_blockcipher.md R120, R123. CRYPTBLOCK.ENC completes when no check stops it: there is a running
accumulator that starts as the input with key 0 added, goes through the fused round with keys
`1 .. rounds-1` and through the final round with key `rounds`, and its last value, which is the
function `encryptBlock` of the keys and the input, is what the 16 bytes at `P2` then hold; `RESULT` and
`ERR` become 0; no other byte and no other register changes. The checks end it as listed, in that
order; its words are those of its row. -/
def Obligations.EncryptionWritesTheCipherBlock : Prop :=
  (∀ w : CmdWord, w &&& 0xFF0000FF#32 = 0x00000002#32 →
    decode w = .command (.cryptblockEnc (w.extractLsb' 8 16).toNat)) ∧
  ∀ (rounds : Nat) (s : State),
    (s.status.fault = true → exec (.cryptblockEnc rounds) s = .next s) ∧ (s.status.fault = false →
    (s.platform.hwAes = true → rounds = 10 ∨ rounds = 12 ∨ rounds = 14 →
      ValidAt s .p0 (16 * (rounds + 1)) → ValidAt s .p1 16 → ValidAt s .p2 16 →
      ∃ (t : State) (acc : Nat → Block), exec (.cryptblockEnc rounds) s = .next t ∧
        acc 0 = xorBlock (blockAt s.mem (effAddr s .p1 0)) (blockAt s.mem (effAddr s .p0 0)) ∧
        (∀ r, 1 ≤ r → r < rounds →
          acc r = aesRound (acc (r - 1)) (blockAt s.mem (effAddr s .p0 (16 * r)))) ∧
        acc rounds =
          aesFinalRound (acc (rounds - 1)) (blockAt s.mem (effAddr s .p0 (16 * rounds))) ∧
        blockAt t.mem (effAddr s .p2 0) = acc rounds ∧
        acc rounds = encryptBlock rounds (roundKeyAt s) (blockAt s.mem (effAddr s .p1 0)) ∧
        UnchangedOutside s t (effAddr s .p2 0) 16 ∧ CompletedFrom s t) ∧
    (s.platform.hwAes = false →
      exec (.cryptblockEnc rounds) s = .next (withFault .capabilityAbsent s)) ∧
    (s.platform.hwAes = true → ¬ (rounds = 10 ∨ rounds = 12 ∨ rounds = 14) →
      exec (.cryptblockEnc rounds) s = .next (withFault .roundsInvalid s)) ∧
    (s.platform.hwAes = true → rounds = 10 ∨ rounds = 12 ∨ rounds = 14 →
      ¬ (ValidAt s .p0 (16 * (rounds + 1)) ∧ ValidAt s .p1 16 ∧ ValidAt s .p2 16) →
      exec (.cryptblockEnc rounds) s = .next (withFault .addressFault s)))

/-- 42_blockcipher.md R121, R123. CRYPTBLOCK.DEC: the same with the inverse round primitives and the
function `decryptBlock`, the keys again taken from index 0 upward. -/
def Obligations.DecryptionWritesThePlainBlock : Prop :=
  (∀ w : CmdWord, w &&& 0xFF0000FF#32 = 0x00000012#32 →
    decode w = .command (.cryptblockDec (w.extractLsb' 8 16).toNat)) ∧
  ∀ (rounds : Nat) (s : State),
    (s.status.fault = true → exec (.cryptblockDec rounds) s = .next s) ∧ (s.status.fault = false →
    (s.platform.hwAes = true → rounds = 10 ∨ rounds = 12 ∨ rounds = 14 →
      ValidAt s .p0 (16 * (rounds + 1)) → ValidAt s .p1 16 → ValidAt s .p2 16 →
      ∃ (t : State) (acc : Nat → Block), exec (.cryptblockDec rounds) s = .next t ∧
        acc 0 = xorBlock (blockAt s.mem (effAddr s .p1 0)) (blockAt s.mem (effAddr s .p0 0)) ∧
        (∀ r, 1 ≤ r → r < rounds →
          acc r = aesInvRound (acc (r - 1)) (blockAt s.mem (effAddr s .p0 (16 * r)))) ∧
        acc rounds =
          aesInvFinalRound (acc (rounds - 1)) (blockAt s.mem (effAddr s .p0 (16 * rounds))) ∧
        blockAt t.mem (effAddr s .p2 0) = acc rounds ∧
        acc rounds = decryptBlock rounds (roundKeyAt s) (blockAt s.mem (effAddr s .p1 0)) ∧
        UnchangedOutside s t (effAddr s .p2 0) 16 ∧ CompletedFrom s t) ∧
    (s.platform.hwAes = false →
      exec (.cryptblockDec rounds) s = .next (withFault .capabilityAbsent s)) ∧
    (s.platform.hwAes = true → ¬ (rounds = 10 ∨ rounds = 12 ∨ rounds = 14) →
      exec (.cryptblockDec rounds) s = .next (withFault .roundsInvalid s)) ∧
    (s.platform.hwAes = true → rounds = 10 ∨ rounds = 12 ∨ rounds = 14 →
      ¬ (ValidAt s .p0 (16 * (rounds + 1)) ∧ ValidAt s .p1 16 ∧ ValidAt s .p2 16) →
      exec (.cryptblockDec rounds) s = .next (withFault .addressFault s)))

/-- 42_blockcipher.md R129. With the decryption schedule that DERIVEDEC makes of any forward keys,
decryption is the straightforward inverse cipher with the forward keys taken backwards: as functions,
and as commands, `d` being the state before DERIVEDEC and `u` the state before CRYPTBLOCK.DEC, which may
come from the one after DERIVEDEC by any moves of the host that leave the schedule as it was made. -/
def Obligations.EquivalentInverseCipher : Prop :=
  (∀ (rounds : Nat) (rk : Nat → Block) (x : Block), 1 ≤ rounds →
    decryptBlock rounds (decryptionKey rounds rk) x = plainInverse rounds rk x) ∧
  (∀ (rounds : Nat) (d u : State), rounds = 10 ∨ rounds = 12 ∨ rounds = 14 →
    precheck (.derivedec rounds) d = .runs → precheck (.cryptblockDec rounds) u = .runs →
    ∃ e, exec (.derivedec rounds) d = .next e ∧
      ((∀ r ≤ rounds,
          blockAt u.mem (effAddr u .p0 (16 * r)) = blockAt e.mem (effAddr d .p1 (16 * r))) →
        ∃ v, exec (.cryptblockDec rounds) u = .next v ∧
          blockAt v.mem (effAddr u .p2 0) =
            plainInverse rounds (fun r => blockAt d.mem (effAddr d .p0 (16 * r)))
              (blockAt u.mem (effAddr u .p1 0))))

/-- 42_blockcipher.md R131, without memory: for any forward keys whatever, decryption with the derived
keys undoes encryption. -/
def Obligations.DecryptionUndoesEncryption : Prop :=
  ∀ (rounds : Nat) (rk : Nat → Block) (x : Block), 1 ≤ rounds →
    decryptBlock rounds (decryptionKey rounds rk) (encryptBlock rounds rk x) = x

/-- 42_blockcipher.md R131, band0's first testable property, as commands. In place of the rule's demand
that the buffers do not overlap stands the weaker one that the schedule and the ciphertext are still as
they were made, which non-overlap gives (CommandsChangeOnlyTheirFootprint). `k` is the state before
EXPANDKEY, `s` before CRYPTBLOCK.ENC, `d` before DERIVEDEC, `u` before CRYPTBLOCK.DEC; each may come from
the one before it by any moves of the host that leave the schedule and the ciphertext as they were made.
Every command completes, and the last output is the first input. -/
def Obligations.RoundTripOverCommands : Prop :=
  ∀ (rounds : Nat) (k s d u : State), rounds = 10 ∨ rounds = 12 ∨ rounds = 14 →
    precheck (.expandkey (bitsOfRounds rounds)) k = .runs →
    precheck (.cryptblockEnc rounds) s = .runs → precheck (.derivedec rounds) d = .runs →
    precheck (.cryptblockDec rounds) u = .runs →
    ∃ f, exec (.expandkey (bitsOfRounds rounds)) k = .next f ∧
      ((∀ r ≤ rounds,
          blockAt s.mem (effAddr s .p0 (16 * r)) = blockAt f.mem (effAddr k .p1 (16 * r)) ∧
          blockAt d.mem (effAddr d .p0 (16 * r)) = blockAt f.mem (effAddr k .p1 (16 * r))) →
        ∃ t e, exec (.cryptblockEnc rounds) s = .next t ∧ exec (.derivedec rounds) d = .next e ∧
          ((∀ r ≤ rounds,
              blockAt u.mem (effAddr u .p0 (16 * r)) = blockAt e.mem (effAddr d .p1 (16 * r))) →
            blockAt u.mem (effAddr u .p1 0) = blockAt t.mem (effAddr s .p2 0) →
            ∃ v, exec (.cryptblockDec rounds) u = .next v ∧
              blockAt v.mem (effAddr u .p2 0) = blockAt s.mem (effAddr s .p1 0)))

/-- 42_blockcipher.md R130. For a fixed schedule each direction is a bijection on blocks. -/
def Obligations.BlockCipherIsBijective : Prop :=
  ∀ (rounds : Nat) (rk : Nat → Block),
    Function.Bijective (encryptBlock rounds rk) ∧ Function.Bijective (decryptBlock rounds rk)

/-! ## EXPANDKEY -/

/-- 43_keyschedule.md R135, R136. EXPANDKEY with a supported size completes when no check stops it, and
the bytes at `P1` then are the FIPS-197 expansion of the key at `P0`: its first `Nk` words are the key's,
and every later word `i` is word `i - Nk` with the transformed word `i - 1` added. `RESULT` and `ERR`
become 0; no byte outside the 176, 216 or 256 bytes of the footprint and no other register changes. Of
the bytes after the sequence nothing is said, and nothing of the model's own count of drawn bytes. The
sequence is the function `expandedWords` of the key, and it is immaterial whether a word is rotated or
substituted first. The checks end the command as listed, in that order; its words are those of its row. -/
def Obligations.KeyExpansionFollowsFips197 : Prop :=
  (∀ w : CmdWord, w &&& 0xFF0000FF#32 = 0x00000003#32 →
    decode w = .command (.expandkey (w.extractLsb' 8 16).toNat)) ∧
  (∀ w : Word32, subWord (rotWord w) = rotWord (subWord w)) ∧
  ∀ (bits nk nr size : Nat) (s : State),
    (s.status.fault = true → exec (.expandkey bits) s = .next s) ∧
    (s.status.fault = false → s.platform.hwAes = false →
      exec (.expandkey bits) s = .next (withFault .capabilityAbsent s)) ∧
    (s.status.fault = false → s.platform.hwAes = true → bits ∉ [128, 192, 256] →
      exec (.expandkey bits) s = .next (withResult false (some .invalidKeyLength) s)) ∧
    (s.status.fault = false → s.platform.hwAes = true →
      (bits, nk, nr, size) ∈ [(128, 4, 10, 176), (192, 6, 12, 216), (256, 8, 14, 256)] →
      (¬ (ValidAt s .p0 (bits / 8) ∧ ValidAt s .p1 size) →
        exec (.expandkey bits) s = .next (withFault .addressFault s)) ∧
      (ValidAt s .p0 (bits / 8) → ValidAt s .p1 size →
        ∃ (t : State) (w : Nat → Word32), exec (.expandkey bits) s = .next t ∧
          (∀ i < 4 * (nr + 1), wordAt t.mem (effAddr s .p1 (4 * i)) = w i) ∧
          memRead t.mem (effAddr s .p1 0) (16 * (nr + 1)) =
            bytesOfWords (expandedWords bits (memRead s.mem (effAddr s .p0 0) (bits / 8))) ∧
          (∀ i < nk, w i = wordAt s.mem (effAddr s .p0 (4 * i))) ∧
          (∀ i, nk ≤ i → i < 4 * (nr + 1) →
            let temp :=
              if i % nk = 0 then
                xorWord (subWord (rotWord (w (i - 1)))) ⟨roundConstant (i / nk), 0, 0, 0⟩
              else if nk = 8 ∧ i % 8 = 4 then subWord (w (i - 1))
              else w (i - 1)
            w i = xorWord (w (i - nk)) temp) ∧
          UnchangedOutside s t (effAddr s .p1 0) size ∧
          t = { withResult false none s with mem := t.mem, drawn := t.drawn }))

/-- 43_keyschedule.md R152, 60_exceptions.md R181. Any other `bits` on hardware with the AES capability
completes with `ERR = 1` and `RESULT = 0` and changes nothing else, whatever the pointers hold. -/
def Obligations.InvalidKeyLengthTouchesNothing : Prop :=
  ∀ (bits : Nat) (s : State), s.status.fault = false → s.platform.hwAes = true →
    bits ≠ 128 → bits ≠ 192 → bits ≠ 256 →
    exec (.expandkey bits) s = .next (withResult false (some .invalidKeyLength) s)

/-- 40_primitives.md R82. The ten round constants: each is the double of the one before, and they are the
listed bytes. -/
def Obligations.RoundConstantsDouble : Prop :=
  roundConstant 1 = 0x01#8 ∧ (∀ j, 1 ≤ j → roundConstant (j + 1) = xtime (roundConstant j)) ∧
    (List.range 10).map (fun j => roundConstant (j + 1)) =
      [0x01#8, 0x02#8, 0x04#8, 0x08#8, 0x10#8, 0x20#8, 0x40#8, 0x80#8, 0x1B#8, 0x36#8]

/-- 43_keyschedule.md R139, R143, R148, R153. Everything the steps of each variant emit, 44, 54 and 64
words, satisfies the reference recurrence and begins with the key; different keys give different
sequences. -/
def Obligations.VariantsEqualTheRecurrence : Prop :=
  ∀ (bits nk total : Nat) (expand : List Byte → List Word32) (key : List Byte),
    (bits = 128 ∧ nk = 4 ∧ total = 44 ∧ expand = expand128) ∨
    (bits = 192 ∧ nk = 6 ∧ total = 54 ∧ expand = expand192) ∨
    (bits = 256 ∧ nk = 8 ∧ total = 64 ∧ expand = expand256) → key.length = bits / 8 →
    let w := fun i => (expand key).getD i zeroWord
    (expand key).length = total ∧
    (bytesOfWords (expandedWords bits key)).take (bits / 8) = key ∧
    (∀ i, nk ≤ i → i < total → w i = xorWord (w (i - nk))
      (if i % nk = 0 then xorWord (subWord (rotWord (w (i - 1)))) (rconWord (roundConstant (i / nk)))
       else if nk = 8 ∧ i % 8 = 4 then subWord (w (i - 1)) else w (i - 1))) ∧
    (∀ other : List Byte, other.length = bits / 8 → other ≠ key →
      expandedWords bits other ≠ expandedWords bits key)

/-! ## DERIVEDEC -/

/-- 44_inversekey.md R155, R156. DERIVEDEC completes when no check stops it, and the schedule at `P1` then
is, position by position, key `rounds` unchanged, the inverse column mix of key `rounds - i` at every
interior `i`, and key 0 unchanged; `RESULT` and `ERR` become 0; no byte outside the `16*(rounds+1)`
written and no other register changes. Each key is the function `decryptionKey` of the forward keys. The
checks end the command as listed, in that order; its words are those of its row. -/
def Obligations.DerivationWritesTheInverseSchedule : Prop :=
  (∀ w : CmdWord, w &&& 0xFF0000FF#32 = 0x00000004#32 →
    decode w = .command (.derivedec (w.extractLsb' 8 16).toNat)) ∧
  ∀ (rounds : Nat) (s : State),
    (s.status.fault = true → exec (.derivedec rounds) s = .next s) ∧ (s.status.fault = false →
    (s.platform.hwAes = true → rounds = 10 ∨ rounds = 12 ∨ rounds = 14 →
      ValidAt s .p0 (16 * (rounds + 1)) → ValidAt s .p1 (16 * (rounds + 1)) →
      ∃ t, exec (.derivedec rounds) s = .next t ∧
        blockAt t.mem (effAddr s .p1 0) = blockAt s.mem (effAddr s .p0 (16 * rounds)) ∧
        (∀ i, 0 < i → i < rounds → blockAt t.mem (effAddr s .p1 (16 * i)) =
          aesInvMixColumns (blockAt s.mem (effAddr s .p0 (16 * (rounds - i))))) ∧
        blockAt t.mem (effAddr s .p1 (16 * rounds)) = blockAt s.mem (effAddr s .p0 0) ∧
        (∀ i ≤ rounds, blockAt t.mem (effAddr s .p1 (16 * i)) = decryptionKey rounds (roundKeyAt s) i) ∧
        UnchangedOutside s t (effAddr s .p1 0) (16 * (rounds + 1)) ∧ CompletedFrom s t) ∧
    (s.platform.hwAes = false →
      exec (.derivedec rounds) s = .next (withFault .capabilityAbsent s)) ∧
    (s.platform.hwAes = true → ¬ (rounds = 10 ∨ rounds = 12 ∨ rounds = 14) →
      exec (.derivedec rounds) s = .next (withFault .roundsInvalid s)) ∧
    (s.platform.hwAes = true → rounds = 10 ∨ rounds = 12 ∨ rounds = 14 →
      ¬ (ValidAt s .p0 (16 * (rounds + 1)) ∧ ValidAt s .p1 (16 * (rounds + 1))) →
      exec (.derivedec rounds) s = .next (withFault .addressFault s)))

/-- 44_inversekey.md R160. Deriving is a bijection of schedules; deriving twice gives back the end keys
but the interior keys with the inverse column mix applied twice, which is not the key for some keys; the
inverse column mix has order 4. -/
def Obligations.DerivationIsBijectiveNotInvolutive : Prop :=
  (∀ (rounds : Nat) (fk gk : Nat → Block),
    (∀ i ≤ rounds, decryptionKey rounds fk i = decryptionKey rounds gk i) →
    ∀ i ≤ rounds, fk i = gk i) ∧
  (∀ (rounds : Nat) (dk : Nat → Block),
    ∃ fk : Nat → Block, ∀ i ≤ rounds, decryptionKey rounds fk i = dk i) ∧
  (∀ (rounds : Nat) (fk : Nat → Block), 1 ≤ rounds →
    decryptionKey rounds (decryptionKey rounds fk) 0 = fk 0 ∧
    decryptionKey rounds (decryptionKey rounds fk) rounds = fk rounds ∧
    ∀ i, 0 < i → i < rounds →
      decryptionKey rounds (decryptionKey rounds fk) i = invMixColumns (invMixColumns (fk i))) ∧
  (∃ b : Block, invMixColumns (invMixColumns b) ≠ b) ∧
  (∀ b : Block, invMixColumns (invMixColumns (invMixColumns (invMixColumns b))) = b)

/-! ## GFMUL -/

/-- 45_gfmul.md R165. GFMUL completes when no check stops it: the blocks at `P0` and `P1` are taken
big-endian, multiplied without carries, shifted left by one, reduced, and the result is written
big-endian at `P2`; `RESULT` and `ERR` become 0; no other byte and no other register changes. The result
is the function `gfProduct` of the factors, with the rule's worked example. The checks end the command
as listed, in that order; HW_AES plays no part; its word is that of its row. -/
def Obligations.GfmulWritesTheProduct : Prop :=
  (∀ w : CmdWord, w &&& 0xFFFFFFFF#32 = 0x00000005#32 → decode w = .command .gfmul) ∧
  gfProduct (blockBe 0x66e94bd4ef8a2c3b884cfa59ca342b2e) (blockBe 0x0388dace60b6a392f328c2b971b2fe78)
    = blockBe 0x5e2ec746917062882c85b0685353deb7 ∧
  ∀ s : State,
    (s.status.fault = true → exec .gfmul s = .next s) ∧ (s.status.fault = false →
    (s.platform.hwClmul = true → ValidAt s .p0 16 → ValidAt s .p1 16 → ValidAt s .p2 16 →
      ∃ (t : State) (a b : BitVec 128) (x : BitVec 256), exec .gfmul s = .next t ∧
        a = be128 (blockAt s.mem (effAddr s .p0 0)) ∧ b = be128 (blockAt s.mem (effAddr s .p1 0)) ∧
        x = clmulWide a b <<< 1 ∧ blockAt t.mem (effAddr s .p2 0) = blockBe (reduceGf x) ∧
        blockBe (reduceGf x) =
          gfProduct (blockAt s.mem (effAddr s .p0 0)) (blockAt s.mem (effAddr s .p1 0)) ∧
        UnchangedOutside s t (effAddr s .p2 0) 16 ∧ CompletedFrom s t) ∧
    (s.platform.hwClmul = false → exec .gfmul s = .next (withFault .capabilityAbsent s)) ∧
    (s.platform.hwClmul = true → ¬ (ValidAt s .p0 16 ∧ ValidAt s .p1 16 ∧ ValidAt s .p2 16) →
      exec .gfmul s = .next (withFault .addressFault s)))

/-- 45_gfmul.md R172. The product is bit-exact against the bit-serial reference multiplier of R173; it is
commutative and zero absorbs. -/
def Obligations.FieldProductIsTheReferenceProduct : Prop :=
  ∀ a b : Block, gfProduct a b = blockBe (refMul (be128 a) (be128 b)) ∧
    gfProduct a b = gfProduct b a ∧ gfProduct a zeroBlock = zeroBlock

/-- 45_gfmul.md R173. The element `80 00 .. 00` is neutral, the product distributes over the exclusive or
and is associative. -/
def Obligations.FieldProductLaws : Prop :=
  ∀ a b c : Block,
    gfProduct a ⟨⟨0x80#8, 0, 0, 0⟩, zeroWord, zeroWord, zeroWord⟩ = a ∧
    gfProduct a (xorBlock b c) = xorBlock (gfProduct a b) (gfProduct a c) ∧
    gfProduct a (gfProduct b c) = gfProduct (gfProduct a b) c

/-- 45_gfmul.md R167. `ClmulWide` is made of four 64-bit products, the cross terms combined and spliced
into the middle, in the rule's form and in its form of 64-bit quarters; it is the carry-less product of
its 128-bit operands, and its bit 255 is always 0. -/
def Obligations.WideProductIsCarryless : Prop :=
  ∀ x y : BitVec 128,
    (let x0 := x.extractLsb' 0 64
     let x1 := x.extractLsb' 64 64
     let y0 := y.extractLsb' 0 64
     let y1 := y.extractLsb' 64 64
     let c := clmul64 x0 y0
     let d := clmul64 x1 y1
     let g := clmul64 x0 y1 ^^^ clmul64 x1 y0
     clmulWide x y = (d.setWidth 256 <<< 128) ^^^ (g.setWidth 256 <<< 64) ^^^ c.setWidth 256 ∧
     clmulWide x y = d.extractLsb' 64 64 ++ ((d.extractLsb' 0 64 ^^^ g.extractLsb' 64 64) ++
       ((c.extractLsb' 64 64 ^^^ g.extractLsb' 0 64) ++ c.extractLsb' 0 64))) ∧
    clmulWide x y = (List.range 128).foldl
      (fun acc i => if y.getLsbD i then acc ^^^ (x.setWidth 256 <<< i) else acc) 0#256 ∧
    (clmulWide x y).getLsbD 255 = false

/-- 45_gfmul.md R169. The reduction as listed, and in its equivalent form with shifts of all 128 low bits
by 127, 126 and 121. -/
def Obligations.ReductionHasBothForms : Prop :=
  ∀ x : BitVec 256,
    let lo := x.extractLsb' 0 128
    let hi := x.extractLsb' 128 128
    let x0 := lo.extractLsb' 0 64
    let x1 := lo.extractLsb' 64 64
    let t := (x0 <<< 63) ^^^ (x0 <<< 62) ^^^ (x0 <<< 57)
    let h : BitVec 128 := (x1 ^^^ t) ++ x0
    reduceGf x = hi ^^^ h ^^^ (h >>> 1) ^^^ (h >>> 2) ^^^ (h >>> 7) ∧
    h = lo ^^^ (lo <<< 127) ^^^ (lo <<< 126) ^^^ (lo <<< 121)

/-- 45_gfmul.md R166, 20_memory.md R45. The integer form of a field element holds the coefficient of `x^k`
in bit `127 - k`: bit `7 - (k mod 8)` of byte `k div 8`; storing undoes loading, both ways. -/
def Obligations.WireFormatIsBitReflected : Prop :=
  (∀ (e : Block) (k : Nat), k < 128 →
    (be128 e).getLsbD (127 - k) = ((bytesOfBlock e).getD (k / 8) 0).getLsbD (7 - k % 8)) ∧
  (∀ e : Block, blockBe (be128 e) = e) ∧ (∀ v : BitVec 128, be128 (blockBe v) = v)

/-- 00_scope.md R12. The two integer forms of a block are the listed sums over its bytes, with their
inverses; the byte reversal turns one form into the other; lanes are slices of the listed bits, and word
`k` of a block is its bytes `4k .. 4k+3`. -/
def Obligations.ByteConversionsAgree : Prop :=
  (∀ b : Block,
    let byte := fun i => (bytesOfBlock b).getD i 0
    (le128 b).toNat = ((List.range 16).map fun i => (byte i).toNat * 2 ^ (8 * i)).sum ∧
    (be128 b).toNat = ((List.range 16).map fun i => (byte i).toNat * 2 ^ (8 * (15 - i))).sum ∧
    (∀ i < 16, (bytesOfBlock (rev16 b)).getD i 0 = byte (15 - i)) ∧
    be128 b = le128 (rev16 b) ∧ blockLe (le128 b) = b ∧ blockBe (be128 b) = b ∧
    (∀ k < 4, (wordsOfBlock b).getD k zeroWord =
      ⟨byte (4 * k), byte (4 * k + 1), byte (4 * k + 2), byte (4 * k + 3)⟩)) ∧
  (∀ v : BitVec 128, le128 (blockLe v) = v ∧ be128 (blockBe v) = v ∧
    (∀ k < 4, ∀ j < 32, (dword v k).getLsbD j = v.getLsbD (32 * k + j)) ∧
    (∀ k < 2, ∀ j < 64, (qword v k).getLsbD j = v.getLsbD (64 * k + j)))

/-- 40_primitives.md R101. `Clmul64` is the exclusive or of the shifted operand over the bits of the other
one; its laws and its five examples. -/
def Obligations.CarrylessProductLaws : Prop :=
  (∀ a b c : BitVec 64,
    clmul64 a b = (List.range 64).foldr
      (fun i acc => (if b.getLsbD i then a.setWidth 128 <<< i else 0#128) ^^^ acc) 0#128 ∧
    clmul64 a b = clmul64 b a ∧ clmul64 a 0 = 0 ∧ clmul64 a 1 = a.setWidth 128 ∧
    clmul64 a (b ^^^ c) = clmul64 a b ^^^ clmul64 a c ∧ (clmul64 a b).getLsbD 127 = false) ∧
  clmul64 3 3 = 5 ∧ clmul64 0x87 2 = 0x10E ∧
  clmul64 0x8000000000000000 0x8000000000000000 = 0x40000000000000000000000000000000 ∧
  clmul64 0xFFFFFFFFFFFFFFFF 0xFFFFFFFFFFFFFFFF = 0x55555555555555555555555555555555 ∧
  clmul64 0x0123456789ABCDEF 0xFEDCBA9876543210 = 0x00E038D8688850B040A0789828C810F0

/-! ## AES primitives -/

/-- 40_primitives.md R83, R84. Every entry of the S-box is the affine map of the inverse of its index (of
0 for 0), it has no fixed point, and the inverse S-box undoes it, both ways. -/
def Obligations.SBoxIsTheAffineInverse : Prop :=
  ∀ a : Byte, (∃ v : Byte, (if a = 0 then v = 0 else gmul8 a v = 1) ∧ sBox a = affineMap v) ∧
    sBox a ≠ a ∧ invSBox (sBox a) = a ∧ sBox (invSBox a) = a

/-- 40_primitives.md R81. The product in GF(2^8) is the exclusive or of the repeated doublings of the one
factor over the bits of the other; its laws and its two examples. -/
def Obligations.ByteProductLaws : Prop :=
  (∀ a b c : Byte,
    gmul8 a b = (List.range 8).foldr
      (fun i acc => (if b.getLsbD i then xtimePow i a else 0) ^^^ acc) 0 ∧
    xtimePow 0 a = a ∧ (∀ i, xtimePow (i + 1) a = xtime (xtimePow i a)) ∧
    gmul8 a b = gmul8 b a ∧ gmul8 a (gmul8 b c) = gmul8 (gmul8 a b) c ∧
    gmul8 a (b ^^^ c) = gmul8 a b ^^^ gmul8 a c ∧ gmul8 a 1 = a ∧ gmul8 a 0 = 0) ∧
  gmul8 0x57 0x83 = 0xC1 ∧ gmul8 0x57 0x13 = 0xFE

/-- 40_primitives.md R87, R88. The row shifts: byte `r + 4c` is taken from column `c + r`, or `c - r`; the
same in the listed index form; the inverse shift undoes the shift. -/
def Obligations.RowShiftsPermuteBytes : Prop :=
  ∀ s : Block,
    (∀ r < 4, ∀ c < 4,
      (bytesOfBlock (shiftRows s)).getD (r + 4 * c) 0 =
        (bytesOfBlock s).getD (r + 4 * ((c + r) % 4)) 0 ∧
      (bytesOfBlock (invShiftRows s)).getD (r + 4 * c) 0 =
        (bytesOfBlock s).getD (r + 4 * ((c + 4 - r) % 4)) 0) ∧
    bytesOfBlock (shiftRows s) = [0, 5, 10, 15, 4, 9, 14, 3, 8, 13, 2, 7, 12, 1, 6, 11].map
      (fun i => (bytesOfBlock s).getD i 0) ∧
    bytesOfBlock (invShiftRows s) = [0, 13, 10, 7, 4, 1, 14, 11, 8, 5, 2, 15, 12, 9, 6, 3].map
      (fun i => (bytesOfBlock s).getD i 0) ∧
    invShiftRows (shiftRows s) = s

/-- 40_primitives.md R89, R90. The two matrices, with the examples of the first; the inverse column mix
undoes the column mix, of each column and of the four of a state, and is linear. -/
def Obligations.InverseColumnMixUndoesColumnMix : Prop :=
  (∀ a0 a1 a2 a3 : Byte,
    mixColumn ⟨a0, a1, a2, a3⟩ =
      ⟨xtime a0 ^^^ (xtime a1 ^^^ a1) ^^^ a2 ^^^ a3, a0 ^^^ xtime a1 ^^^ (xtime a2 ^^^ a2) ^^^ a3,
       a0 ^^^ a1 ^^^ xtime a2 ^^^ (xtime a3 ^^^ a3), (xtime a0 ^^^ a0) ^^^ a1 ^^^ a2 ^^^ xtime a3⟩ ∧
    invMixColumn ⟨a0, a1, a2, a3⟩ =
      ⟨gmul8 14 a0 ^^^ gmul8 11 a1 ^^^ gmul8 13 a2 ^^^ gmul8 9 a3,
       gmul8 9 a0 ^^^ gmul8 14 a1 ^^^ gmul8 11 a2 ^^^ gmul8 13 a3,
       gmul8 13 a0 ^^^ gmul8 9 a1 ^^^ gmul8 14 a2 ^^^ gmul8 11 a3,
       gmul8 11 a0 ^^^ gmul8 13 a1 ^^^ gmul8 9 a2 ^^^ gmul8 14 a3⟩) ∧
  (∀ c0 c1 c2 c3 : Word32, mixColumns ⟨c0, c1, c2, c3⟩ =
      ⟨mixColumn c0, mixColumn c1, mixColumn c2, mixColumn c3⟩ ∧
    invMixColumns ⟨c0, c1, c2, c3⟩ =
      ⟨invMixColumn c0, invMixColumn c1, invMixColumn c2, invMixColumn c3⟩) ∧
  (∀ s : Block, invMixColumns (mixColumns s) = s) ∧
  (∀ x y : Block, invMixColumns (xorBlock x y) = xorBlock (invMixColumns x) (invMixColumns y)) ∧
  invMixColumns zeroBlock = zeroBlock ∧
  mixColumn ⟨0xdb, 0x13, 0x53, 0x45⟩ = ⟨0x8e, 0x4d, 0xa1, 0xbc⟩ ∧
  mixColumn ⟨0xf2, 0x0a, 0x22, 0x5c⟩ = ⟨0x9f, 0xdc, 0x58, 0x9d⟩ ∧
  mixColumn ⟨0x01, 0x01, 0x01, 0x01⟩ = ⟨0x01, 0x01, 0x01, 0x01⟩ ∧
  mixColumn ⟨0xc6, 0xc6, 0xc6, 0xc6⟩ = ⟨0xc6, 0xc6, 0xc6, 0xc6⟩

/-- 40_primitives.md R104. What undoes a forward round with its key known; the inverse primitive of the
same name with the same key does not always. -/
def Obligations.RoundsAreInvertible : Prop :=
  (∀ s k : Block,
    invShiftRows (invSubBytes (xorBlock (aesFinalRound s k) k)) = s ∧
    invSubBytes (invShiftRows (invMixColumns (xorBlock (aesRound s k) k))) = s) ∧
  (∃ s k : Block, aesInvRound (aesRound s k) k ≠ s) ∧
  (∃ s k : Block, aesInvFinalRound (aesFinalRound s k) k ≠ s)

/-- 40_primitives.md R94, R95, R96, R98, R100. What the round primitives are composed of, with the
examples of the rules. -/
def Obligations.RoundPrimitivesCompose : Prop :=
  (∀ acc rk : Block,
    aesRound acc rk = xorBlock (mixColumns (shiftRows (subBytes acc))) rk ∧
    aesFinalRound acc rk = xorBlock (shiftRows (subBytes acc)) rk ∧
    aesInvRound acc rk = xorBlock (invMixColumns (invShiftRows (invSubBytes acc))) rk ∧
    aesInvFinalRound acc rk = xorBlock (invShiftRows (invSubBytes acc)) rk ∧
    aesInvMixColumns acc = invMixColumns acc) ∧
  aesRound (blockBe 0x00102030405060708090a0b0c0d0e0f0) (blockBe 0xd6aa74fdd2af72fadaa678f1d6ab76fe)
    = blockBe 0x89d810e8855ace682d1843d8cb128fe4 ∧
  aesFinalRound (blockBe 0xbd6e7c3df2b5779e0b61216e8b10b689)
    (blockBe 0x13111d7fe3944a17f307a78b4d2b30c5) = blockBe 0x69c4e0d86a7b0430d8cdb78070b4c55a ∧
  aesInvRound (blockBe 0x7ad5fda789ef4e272bca100b3d9ff59f)
    (blockBe 0x13aa29be9c8faff6f770f58000f7bf03) = blockBe 0x54d990a16ba09ab596bbf40ea111702f ∧
  aesInvFinalRound (blockBe 0x6353e08c0960e104cd70b751bacad0e7)
    (blockBe 0x000102030405060708090a0b0c0d0e0f) = blockBe 0x00112233445566778899aabbccddeeff ∧
  aesInvMixColumns (blockBe 0x549932d1f08557681093ed9cbe2c974e)
    = blockBe 0x13aa29be9c8faff6f770f58000f7bf03

/-- 40_primitives.md R99. The words of the key-generation assist, and its example. -/
def Obligations.KeyGenAssistWords : Prop :=
  (∀ (x : Block) (rcon : Byte),
    (aesKeyGenAssist x rcon).w0 = subWord x.w1 ∧
    (aesKeyGenAssist x rcon).w1 = xorWord (rotWord (subWord x.w1)) ⟨rcon, 0, 0, 0⟩ ∧
    (aesKeyGenAssist x rcon).w2 = subWord x.w3 ∧
    (aesKeyGenAssist x rcon).w3 = xorWord (rotWord (subWord x.w3)) ⟨rcon, 0, 0, 0⟩) ∧
  aesKeyGenAssist (blockBe 0x000102030405060708090a0b0c0d0e0f) 0x01
    = blockBe 0xf26b6fc56a6fc5f2fed7ab76d6ab76fe

/-! ## Faults, reset and the host's moves -/

/-- 60_exceptions.md R190. The checks of all commands in their order. A word is looked at only on an
engine that is not faulted; HASSUPPORT meets no further check; then the capability, then `bits`, then
`rounds`, then the addresses; a command that no check stops runs and completes. -/
def Obligations.ChecksComeInOrder : Prop :=
  (∀ (w : CmdWord) (s : State) (rest : List HostMove), s.status.fault = true →
    s.moves = .writeCmd w :: rest → step s = .next { s with moves := rest, answer := none }) ∧
  (∀ (w : CmdWord) (why : IllegalWord) (s : State) (rest : List HostMove), s.status.fault = false →
    decode w = .illegal why → s.moves = .writeCmd w :: rest →
    step s = .next (withFault .illegalCommand { s with moves := rest, answer := none })) ∧
  (∀ (i : Instr) (s : State), s.status.fault = true → exec i s = .next s) ∧
  (∀ s : State, s.status.fault = false →
    (∀ mask, ∃ t, exec (.hassupport mask) s = .next t ∧ t.status.fault = false) ∧
    (s.platform.hwAes = false → ∀ n,
      exec (.cryptblockEnc n) s = .next (withFault .capabilityAbsent s) ∧
      exec (.cryptblockDec n) s = .next (withFault .capabilityAbsent s) ∧
      exec (.expandkey n) s = .next (withFault .capabilityAbsent s) ∧
      exec (.derivedec n) s = .next (withFault .capabilityAbsent s)) ∧
    (s.platform.hwClmul = false → exec .gfmul s = .next (withFault .capabilityAbsent s)) ∧
    (s.platform.hwAes = true → ∀ n, n ∉ [128, 192, 256] →
      exec (.expandkey n) s = .next (withResult false (some .invalidKeyLength) s)) ∧
    (s.platform.hwAes = true → ∀ n, n ∉ [10, 12, 14] →
      exec (.cryptblockEnc n) s = .next (withFault .roundsInvalid s) ∧
      exec (.cryptblockDec n) s = .next (withFault .roundsInvalid s) ∧
      exec (.derivedec n) s = .next (withFault .roundsInvalid s)) ∧
    (∀ i, capabilityPresent i s.platform = true → bitsAccepted i = true → roundsAccepted i = true →
      ((∃ r ∈ readSpans i s ++ writeSpans i s,
          2 ^ 64 < r.addr + r.len ∨ ∃ k < r.len, memValid s.platform (r.addr + k) = false) →
        exec i s = .next (withFault .addressFault s)) ∧
      ((∀ r ∈ readSpans i s ++ writeSpans i s,
          r.addr + r.len ≤ 2 ^ 64 ∧ ∀ k < r.len, memValid s.platform (r.addr + k) = true) →
        ∃ t, exec i s = .next t ∧ t.status.fault = false ∧ t.status.err = none)))

/-- 10_state.md R25, R26, 60_exceptions.md R182. `STATUS` after a command: one that runs writes `RESULT`
(0, but for HASSUPPORT) and `ERR` 0; only EXPANDKEY with unsupported `bits` ends with `ERR` 1; a fault
writes `FAULT` and `FCODE` and nothing else; a refused command writes nothing. A word is refused on a
faulted engine, and an illegal one faults on another; no move of the host but a command and `RESET`
changes `STATUS`. -/
def Obligations.CommandsWriteStatusAsListed : Prop :=
  (∀ (m : HostMove) (rest : List HostMove) (s t : State), s.moves = m :: rest →
    step s = .next t →
    (∀ w, m = .writeCmd w →
      (s.status.fault = true → t = { s with moves := rest, answer := none }) ∧
      (s.status.fault = false → (∃ why, decode w = .illegal why) →
        t = withFault .illegalCommand { s with moves := rest, answer := none })) ∧
    ((∀ w, m ≠ .writeCmd w) → m ≠ .reset → t.status = s.status)) ∧
  ∀ (i : Instr) (s t : State), exec i s = .next t →
    (precheck i s = .runs →
      t.status.err = none ∧ t.status.fault = false ∧ t.status.fcode = s.status.fcode ∧
      ((∀ mask, i ≠ .hassupport mask) → t.status.result = false) ∧
      (∀ mask, i = .hassupport mask → t.status.result = decide (t.cap &&& mask ≠ 0#2))) ∧
    (∀ e, precheck i s = .error e →
      t = withResult false (some .invalidKeyLength) s ∧
      ∃ bits, i = .expandkey bits ∧ bits ∉ [128, 192, 256]) ∧
    (∀ c, precheck i s = .fault c → s.status.fault = false ∧ t = withFault c s) ∧
    (precheck i s = .refused → s.status.fault = true ∧ t = s)

/-- 60_exceptions.md R185. Once `FAULT` is set, no host move but `RESET` changes `STATUS` or the cache, and
a write to `CMD`, legal or not, changes nothing the spec names; the host can still read the registers,
set the pointers and use its memory; `RESET` clears it. -/
def Obligations.FaultIsStickyUntilReset : Prop :=
  ∀ (m : HostMove) (rest : List HostMove) (s t : State), s.status.fault = true →
    s.moves = m :: rest → step s = .next t →
    (m ≠ .reset → t.status = s.status ∧ t.capv = s.capv ∧ t.cap = s.cap) ∧
    (∀ w, m = .writeCmd w → t = { s with moves := rest, answer := none }) ∧
    (∀ r, m = .readReg r → t.answer = some (.reg (readRegister s r))) ∧
    (∀ r v, m = .setP r v → ptr t r = v) ∧
    (∀ a n, m = .load a n → t.answer = some (.bytes (memRead s.mem a.toNat n))) ∧
    (∀ a bs, m = .store a bs → memRead t.mem a.toNat bs.length = bs) ∧
    (m = .reset → t.status.fault = false)

/-- 10_state.md R24, 60_exceptions.md R184. The word the host reads: `RESULT` is bit 0, `ERR` bits 7:4,
`FAULT` bit 8, `FCODE` bits 15:12, every other bit 0; the codes are 0 and 1 and 0 to 4; after reset it is
0; reading it has no side effect. -/
def Obligations.StatusWordLayout : Prop :=
  (∀ st : Status,
    (statusWord st).getLsbD 0 = st.result ∧ (statusWord st).extractLsb' 4 4 = errCode st.err ∧
    (statusWord st).getLsbD 8 = st.fault ∧ (statusWord st).extractLsb' 12 4 = faultCode st.fcode ∧
    ∀ k, k ∉ [0, 4, 5, 6, 7, 8, 12, 13, 14, 15] → (statusWord st).getLsbD k = false) ∧
  errCode none = 0 ∧ errCode (some .invalidKeyLength) = 1 ∧ faultCode none = 0 ∧
  faultCode (some .illegalCommand) = 1 ∧ faultCode (some .capabilityAbsent) = 2 ∧
  faultCode (some .roundsInvalid) = 3 ∧ faultCode (some .addressFault) = 4 ∧
  statusWord statusAtReset = 0 ∧
  ∀ (s : State) (rest : List HostMove), s.moves = .readReg .status :: rest →
    ∃ v : BitVec 64, v.setWidth 32 = statusWord s.status ∧
      step s = .next { s with moves := rest, answer := some (.reg v) }

/-- 70_reset_and_hazards.md R205, R206. `RESET`, in any state: the pointers and `STATUS` become 0 and the
cache invalid; memory and the hardware facts stay; the next HASSUPPORT is answered and caches the facts
again. No other move leaves the faulted state. -/
def Obligations.ResetMoveRestoresTheEngine : Prop :=
  (∀ (s : State) (rest : List HostMove), s.moves = .reset :: rest →
    ∃ t, step s = .next t ∧ t.p0 = 0 ∧ t.p1 = 0 ∧ t.p2 = 0 ∧ statusWord t.status = 0 ∧
      t.capv = false ∧ t.mem = s.mem ∧ t.platform = s.platform ∧
      ∀ mask, ∃ u, exec (.hassupport mask) t = .next u ∧ u.capv = true ∧
        u.cap = BitVec.ofBool s.platform.hwClmul ++ BitVec.ofBool s.platform.hwAes) ∧
  (∀ (m : HostMove) (rest : List HostMove) (s t : State), s.moves = m :: rest → m ≠ .reset →
    s.status.fault = true → step s = .next t → t.status.fault = true)

/-- 10_state.md R35. The machine right after reset: pointers, `STATUS` and `CAPV` are 0. -/
def Obligations.ResetValues : Prop :=
  State.reset.p0 = 0 ∧ State.reset.p1 = 0 ∧ State.reset.p2 = 0 ∧
    statusWord State.reset.status = 0 ∧ State.reset.capv = false

/-- 70_reset_and_hazards.md R209, 10_state.md R21. What each host move that issues no command does, in any
state: setting a pointer sets that one, a write to `STATUS` is ignored, a read of a register returns it
(`CMD` reads 0), a load returns the bytes, a store sets them; nothing else the spec names changes. That
the model stops at a load or store of bytes that do not exist, and is idle when the host makes no move, is
its own choice (log entries 6 and 7). -/
def Obligations.HostMovesDoWhatIsListed : Prop :=
  ∀ (s : State) (rest : List HostMove),
    let taken : State := { s with moves := rest, answer := none }
    (∀ r v, s.moves = .setP r v :: rest → step s = .next
      (match r with
        | .p0 => { taken with p0 := v } | .p1 => { taken with p1 := v }
        | .p2 => { taken with p2 := v })) ∧
    (∀ v, s.moves = .writeStatus v :: rest → step s = .next taken) ∧
    (s.moves = .readReg .cmd :: rest → step s = .next { taken with answer := some (.reg 0) }) ∧
    (s.moves = .readReg .status :: rest → step s =
      .next { taken with answer := some (.reg ((statusWord s.status).setWidth 64)) }) ∧
    (∀ r, s.moves = .readReg (.ptr r) :: rest → step s =
      .next { taken with answer := some (.reg (ptr s r)) }) ∧
    (∀ (a : Addr) (n : Nat), s.moves = .load a n :: rest → spanValid s.platform a.toNat n = true →
      ∃ bs : List Byte, bs.length = n ∧ (∀ k < n, bs.getD k 0 = memGet s.mem (a.toNat + k)) ∧
        step s = .next { taken with answer := some (.bytes bs) }) ∧
    (∀ (a : Addr) (bs : List Byte), s.moves = .store a bs :: rest →
      spanValid s.platform a.toNat bs.length = true →
      ∃ t, step s = .next t ∧ t = { taken with mem := t.mem } ∧
        (∀ k < bs.length, memGet t.mem (a.toNat + k) = bs.getD k 0) ∧
        UnchangedOutside s t a.toNat bs.length) ∧
    (∀ (a : Addr) (n : Nat), s.moves = .load a n :: rest → spanValid s.platform a.toNat n = false →
      step s = .fault (.hostAddressAbsent a n)) ∧
    (∀ (a : Addr) (bs : List Byte), s.moves = .store a bs :: rest →
      spanValid s.platform a.toNat bs.length = false →
      step s = .fault (.hostAddressAbsent a bs.length)) ∧
    (s.moves = [] → step s = .next s)

/-- 10_state.md R21. The register block: five locations at the listed offsets from its base, and no
register anywhere else. -/
def Obligations.RegisterBlockOffsets : Prop :=
  ∀ base addr : Nat,
    regAtAddress base (base + 0x00) = some .cmd ∧ regAtAddress base (base + 0x04) = some .status ∧
    regAtAddress base (base + 0x08) = some (.ptr .p0) ∧
    regAtAddress base (base + 0x10) = some (.ptr .p1) ∧
    regAtAddress base (base + 0x18) = some (.ptr .p2) ∧
    ((∀ off ∈ [0x00, 0x04, 0x08, 0x10, 0x18], addr ≠ base + off) → regAtAddress base addr = none)

/-! ## Whole-machine rules -/

/-- Every step keeps the invariant: memory stays canonical and holds only bytes that exist (10_state.md
R30), a valid cache holds the hardware facts (41_capability.md R112), `FCODE` names a cause exactly when
`FAULT` is set (10_state.md R24, R26). The canonical form is the model's (INVENTORY.md, '## State'). -/
def Obligations.StepKeepsTheInvariant : Prop :=
  ∀ s t : State, EngineInv s → step s = .next t → EngineInv t

/-- Every state just after a reset, on any platform and with any memory content, meets the invariant, and
`State.reset` is one of them (10_state.md R35). -/
def Obligations.InvariantHoldsAfterReset : Prop :=
  (∀ s : State, AfterReset s → EngineInv s) ∧ AfterReset State.reset

/-- What the host learns from the answers it reads stays true (41_capability.md R112,
70_reset_and_hazards.md R210): every move of the host, made in a state in which a valid cache holds the
hardware facts and what the host has learnt is so, leads to such a state. A command a host issues by what
it has learnt therefore never meets an absent capability. That the host learns of a bit only by asking
for it alone is the model's choice (log entry 13). -/
def Obligations.WhatTheHostLearnsStaysTrue : Prop :=
  (∀ (m : HostMove) (v : HostView) (s t : State), CacheCorrect s → ViewTruthful v s →
    makeMove m s = .next t → CacheCorrect t ∧ ViewTruthful (v.after m s) t) ∧
  (∀ (i : Instr) (v : HostView) (s : State), ViewTruthful v s → s.status.fault = false →
    AskedFirst i v → capabilityPresent i s.platform = true)

/-- Just after a reset the host has learnt nothing, and that is so (10_state.md R35); whatever
moves come first, a run is not good in which the host writes a word that is no HASSUPPORT before it has
once read `STATUS` (70_reset_and_hazards.md R210, R223). -/
def Obligations.HostStartsWithoutAnswers : Prop :=
  (∀ s : State, AfterReset s → CacheCorrect s ∧ ViewTruthful HostView.none s) ∧
  (∀ (pre : List HostAct) (w : CmdWord) (b : HostBuffers) (rest : List HostAct) (s : State),
    (∀ a ∈ pre, a.move ≠ .readReg .status) → (∀ mask, decode w ≠ .command (.hassupport mask)) →
    ¬ GoodRun (pre ++ ⟨.writeCmd w, b⟩ :: rest) s)

/-- What the duty of 70_reset_and_hazards.md R213 gives the host: a command whose regions lie in the
buffers that the host provides at its pointers reads and writes no byte of the host's other data. Every
region it reads or writes lies in a buffer, and every byte outside the buffers is as it was. That the
buffers are named beside each move is the model's choice (log entry 16). -/
def Obligations.OwnBuffersKeepOtherData : Prop :=
  ∀ (i : Instr) (b : HostBuffers) (s t : State), BufferDuty i b s → exec i s = .next t →
    (∀ q ∈ readSpans i s ++ writeSpans i s, ∃ r, SpanWithin q (b.buffer r)) ∧
    (∀ a, (∀ r, a < (b.buffer r).addr ∨ (b.buffer r).addr + (b.buffer r).len ≤ a) →
      memGet t.mem a = memGet s.mem a)

/-- 00_scope.md R13, 10_state.md R22, R29, 20_memory.md R49. No command changes a pointer register or a parameter, and every byte a
command changes lies in the footprint it writes; a command that does not run changes no byte. -/
def Obligations.CommandsChangeOnlyTheirFootprint : Prop :=
  ∀ (i : Instr) (s t : State), exec i s = .next t →
    t.p0 = s.p0 ∧ t.p1 = s.p1 ∧ t.p2 = s.p2 ∧ t.platform = s.platform ∧
    t.moves = s.moves ∧ t.answer = s.answer ∧
    (∀ a, (∀ r ∈ writeSpans i s, a < r.addr ∨ r.addr + r.len ≤ a) →
      memGet t.mem a = memGet s.mem a) ∧
    (precheck i s ≠ .runs → t.mem = s.mem)

/-- 10_state.md R29. Nothing the host or the engine does changes the hardware facts or which addresses
exist. -/
def Obligations.PlatformNeverChanges : Prop :=
  ∀ s t : State, step s = .next t → t.platform = s.platform

/-- 60_exceptions.md R180, 70_reset_and_hazards.md R221. Every command ends, in every state, and never in
a stop of the model. -/
def Obligations.EveryCommandEnds : Prop :=
  ∀ (i : Instr) (s : State), ∃ t, exec i s = .next t

/-- 10_state.md R27. `STATUS` never depends on the content of memory: states with the same pointers, the
same hardware facts and addresses, and the same `STATUS`, have the same `STATUS` and pointers after any
command, whatever their memories and, as long as a valid cache holds the facts, their caches hold, and
the same cache where it was the same. After two commands that completed `ERR` is a function of the word
alone, `RESULT` of the word and the hardware facts. -/
def Obligations.StatusIsIndependentOfMemory : Prop :=
  (∀ (i : Instr) (s u : State), u.p0 = s.p0 → u.p1 = s.p1 → u.p2 = s.p2 →
    u.platform = s.platform → u.status = s.status → CacheCorrect s → CacheCorrect u →
    ∃ t v, exec i s = .next t ∧ exec i u = .next v ∧ t.status = v.status ∧
      t.p0 = v.p0 ∧ t.p1 = v.p1 ∧ t.p2 = v.p2 ∧
      (u.capv = s.capv → u.cap = s.cap → t.capv = v.capv ∧ t.cap = v.cap)) ∧
  (∀ (i : Instr) (s t u v : State), exec i s = .next t → exec i u = .next v →
    t.status.fault = false → v.status.fault = false →
    t.status.err = v.status.err ∧
      (u.platform.hwAes = s.platform.hwAes → u.platform.hwClmul = s.platform.hwClmul →
        CacheCorrect s → CacheCorrect u → t.status.result = v.status.result))

/-- 20_memory.md R52. The addresses a command touches, their order and whether it faults are functions of
the command, the pointers and the platform, on engines equally faulted or not: never of memory. -/
def Obligations.AddressesAreIndependentOfData : Prop :=
  ∀ (i : Instr) (s u : State), u.p0 = s.p0 → u.p1 = s.p1 → u.p2 = s.p2 → u.platform = s.platform →
    u.status.fault = s.status.fault →
    accesses i u = accesses i s ∧ readSpans i u = readSpans i s ∧ writeSpans i u = writeSpans i s ∧
      precheck i u = precheck i s

/-- 20_memory.md R50 (a). What a command writes is a function of the bytes it reads: two states that
differ only in memory and agree on the read footprint agree afterwards on the write footprint. For the
bytes EXPANDKEY draws the model's free value gives this, by its choice of what they may depend on (log
entry 5); the spec says nothing of them, and neither does this statement. -/
def Obligations.ResultsDependOnlyOnBytesRead : Prop :=
  ∀ (i : Instr) (s t u : State) (m : Memory), precheck i s = .runs →
    (∀ r ∈ readSpans i s, ∀ a, r.addr ≤ a → a < r.addr + r.len → memGet m a = memGet s.mem a) →
    exec i s = .next t → exec i { s with mem := m } = .next u →
    ∀ r ∈ writeSpans i s, ∀ a, r.addr ≤ a →
      a < r.addr + r.len -
        (match i with | .expandkey bits => trailingBytes bits | _ => 0) →
      memGet t.mem a = memGet u.mem a

/-- 20_memory.md R54. A command other than HASSUPPORT whose write footprint meets none of its read
footprints leaves, issued twice, the memory it leaves issued once; for EXPANDKEY this is said of all but
the trailing bytes. -/
def Obligations.CommandsAreIdempotent : Prop :=
  ∀ (i : Instr) (s : State), (∀ mask, i ≠ .hassupport mask) →
    (∀ r ∈ readSpans i s, ∀ q ∈ writeSpans i s, r.addr + r.len ≤ q.addr ∨ q.addr + q.len ≤ r.addr) →
    ∃ t u, exec i s = .next t ∧ exec i t = .next u ∧
      ∀ a, (∀ bits, i = .expandkey bits → ∀ q ∈ writeSpans i s,
          a < q.addr + q.len - trailingBytes bits ∨ q.addr + q.len ≤ a) →
        memGet u.mem a = memGet t.mem a

/-- 20_memory.md R49, R53. The accesses of a command that runs are its footprint: a byte is read, or
written, by some access exactly when it lies in a region read, or written; all reads come before all
writes. -/
def Obligations.AccessesAreTheFootprint : Prop :=
  ∀ (i : Instr) (s : State), precheck i s = .runs →
    (∀ a, (∃ q, .read q ∈ accesses i s ∧ q.addr ≤ a ∧ a < q.addr + q.len) ↔
      ∃ r ∈ readSpans i s, r.addr ≤ a ∧ a < r.addr + r.len) ∧
    (∀ a, (∃ q, .write q ∈ accesses i s ∧ q.addr ≤ a ∧ a < q.addr + q.len) ↔
      ∃ r ∈ writeSpans i s, r.addr ≤ a ∧ a < r.addr + r.len) ∧
    (∃ reads writes : List Span, accesses i s = reads.map .read ++ writes.map .write)

/-- 20_memory.md R54. `Mem` is plain memory: bytes written are read back, other bytes are as before, and
writing the same bytes twice is the same as once. -/
def Obligations.MemoryIsPlain : Prop :=
  ∀ (m : Memory) (a : Nat) (bs : List Byte),
    memRead (memWrite m a bs) a bs.length = bs ∧
    (∀ x n, x + n ≤ a ∨ a + bs.length ≤ x → memRead (memWrite m a bs) x n = memRead m x n) ∧
    (m.wf → memWrite (memWrite m a bs) a bs = memWrite m a bs)
end

