-- ==== Sys2Proof/Laws/Memory.lean ====
section
/-! SUPPORT. The laws of memory: reading after writing, the canonical form, which addresses exist. -/

namespace Sys2Proof.Machine

variable {m n : Memory} {a x k len : Nat} {b v : Byte} {bs : List Byte} {p : Platform}

@[simp] theorem memGet_nil : memGet [] a = unlistedByte := rfl

theorem memGet_cons : memGet ((k, v) :: m) a = if k = a then v else memGet m a := rfl

theorem memGet_memInsert_self (m : Memory) (a : Nat) (b : Byte) : memGet (memInsert m a b) a = b := by
  induction m with
  | nil => simp [memInsert, memGet]
  | cons c rest ih =>
    obtain ⟨k, v⟩ := c
    unfold memInsert
    split
    · simp [memGet]
    · split
      · simp [memGet]
      · rw [memGet_cons, if_neg (by omega), ih]

theorem memGet_memInsert_other (m : Memory) (b : Byte) (h : x ≠ a) :
    memGet (memInsert m a b) x = memGet m x := by
  induction m with
  | nil => simp [memInsert, memGet, Ne.symm h]
  | cons c rest ih =>
    obtain ⟨k, v⟩ := c
    unfold memInsert
    split
    · rw [memGet_cons, if_neg (Ne.symm h)]
    · split
      · subst_vars
        rw [memGet_cons, memGet_cons, if_neg (Ne.symm h), if_neg (Ne.symm h)]
      · rw [memGet_cons, memGet_cons, ih]

theorem memGet_filter_self (m : Memory) (a : Nat) :
    memGet (m.filter fun c => decide (c.1 ≠ a)) a = unlistedByte := by
  induction m with
  | nil => rfl
  | cons c rest ih =>
    obtain ⟨k, v⟩ := c
    by_cases hk : k = a
    · simpa [List.filter_cons, hk] using ih
    · simpa [List.filter_cons, hk, memGet] using ih

theorem memGet_filter_other (m : Memory) (h : x ≠ a) :
    memGet (m.filter fun c => decide (c.1 ≠ a)) x = memGet m x := by
  induction m with
  | nil => rfl
  | cons c rest ih =>
    obtain ⟨k, v⟩ := c
    by_cases hk : k = a
    · subst hk
      simpa [List.filter_cons, memGet, Ne.symm h] using ih
    · simp only [List.filter_cons, ne_eq, hk, not_false_eq_true, decide_true, if_true, memGet]
      split
      · rfl
      · simpa using ih

/-- Read after write at the same address. -/
@[simp] theorem memGet_memSet_self (m : Memory) (a : Nat) (b : Byte) : memGet (memSet m a b) a = b := by
  unfold memSet
  split
  · rename_i h
    rw [memGet_filter_self, h]
  · exact memGet_memInsert_self m a b

/-- A write leaves every other address alone. -/
theorem memGet_memSet_other (m : Memory) (b : Byte) (h : x ≠ a) :
    memGet (memSet m a b) x = memGet m x := by
  unfold memSet
  split
  · exact memGet_filter_other m h
  · exact memGet_memInsert_other m b h

/-- What `MemWrite` can do to one byte (00_scope.md R14). -/
theorem memGet_memWrite (m : Memory) (a : Nat) (bs : List Byte) (x : Nat) :
    memGet (memWrite m a bs) x =
      if a ≤ x ∧ x < a + bs.length then bs.getD (x - a) 0 else memGet m x := by
  induction bs generalizing m a with
  | nil =>
    rw [if_neg (by simp only [List.length_nil]; omega)]
    rfl
  | cons b bs ih =>
    rw [memWrite, ih, List.length_cons]
    by_cases h1 : a + 1 ≤ x ∧ x < a + 1 + bs.length
    · rw [if_pos h1, if_pos (by omega), show x - a = (x - (a + 1)) + 1 by omega, List.getD_cons_succ]
    · rw [if_neg h1]
      by_cases h2 : x = a
      · subst h2
        rw [if_pos (by omega), memGet_memSet_self, Nat.sub_self, List.getD_cons_zero]
      · rw [if_neg (by omega), memGet_memSet_other m b h2]

theorem memGet_memWrite_outside (m : Memory) (bs : List Byte) (h : x < a ∨ a + bs.length ≤ x) :
    memGet (memWrite m a bs) x = memGet m x := by
  rw [memGet_memWrite, if_neg (by omega)]

theorem memGet_memWrite_inside (m : Memory) (bs : List Byte) (h : k < bs.length) :
    memGet (memWrite m a bs) (a + k) = bs.getD k 0 := by
  rw [memGet_memWrite, if_pos (by omega), Nat.add_sub_cancel_left]

@[simp] theorem memRead_length (m : Memory) (a len : Nat) : (memRead m a len).length = len := by
  simp [memRead]

theorem memRead_getD (m : Memory) (a : Nat) (h : k < len) :
    (memRead m a len).getD k 0 = memGet m (a + k) := by
  simp [memRead, List.getD, h]

theorem memRead_congr (h : ∀ i < len, memGet m (a + i) = memGet n (a + i)) :
    memRead m a len = memRead n a len :=
  List.map_congr_left fun i hi => h i (List.mem_range.mp hi)

/-- `MemRead` after `MemWrite` of the same bytes (00_scope.md R14). -/
theorem memRead_memWrite_self (m : Memory) (a : Nat) (bs : List Byte) :
    memRead (memWrite m a bs) a bs.length = bs := by
  apply List.ext_getElem (by simp)
  intro i h1 h2
  have := memGet_memWrite_inside (a := a) m bs h2
  simp [memRead, this, h2]

theorem memRead_memWrite_disjoint (m : Memory) (bs : List Byte)
    (h : x + len ≤ a ∨ a + bs.length ≤ x) : memRead (memWrite m a bs) x len = memRead m x len :=
  memRead_congr fun i hi => memGet_memWrite_outside m bs (by omega)

/-- Every listed address was listed before or is the one written. -/
theorem mem_memInsert {c : Host.Cell} (h : c ∈ memInsert m a b) : c ∈ m ∨ c = (a, b) := by
  induction m with
  | nil => simpa [memInsert] using h
  | cons d rest ih =>
    obtain ⟨k, v⟩ := d
    unfold memInsert at h
    split at h
    · rcases List.mem_cons.mp h with rfl | h
      · exact .inr rfl
      · exact .inl h
    · split at h
      · rcases List.mem_cons.mp h with rfl | h
        · exact .inr rfl
        · exact .inl (List.mem_cons_of_mem _ h)
      · rcases List.mem_cons.mp h with rfl | h
        · exact .inl List.mem_cons_self
        · exact (ih h).imp (List.mem_cons_of_mem _) id

theorem memInsert_wf (hm : m.wf) (hb : b ≠ unlistedByte) (a : Nat) : (memInsert m a b).wf := by
  refine ⟨?_, fun c hc => (mem_memInsert hc).elim (hm.2 c) fun h => h ▸ hb⟩
  obtain ⟨hs, -⟩ := hm
  induction m with
  | nil => simp [memInsert]
  | cons d rest ih =>
    obtain ⟨k, v⟩ := d
    obtain ⟨hk, hr⟩ := List.pairwise_cons.mp hs
    unfold memInsert
    split
    · refine List.pairwise_cons.mpr ⟨fun c hc => ?_, hs⟩
      rcases List.mem_cons.mp hc with rfl | hc
      · assumption
      · have := hk c hc
        simp only at this ⊢
        omega
    · split
      · subst_vars
        exact List.pairwise_cons.mpr ⟨hk, hr⟩
      · refine List.pairwise_cons.mpr ⟨fun c hc => ?_, ih hr⟩
        rcases mem_memInsert hc with hc | rfl
        · exact hk c hc
        · simp only
          omega

theorem memSet_wf (hm : m.wf) (a : Nat) (b : Byte) : (memSet m a b).wf := by
  unfold memSet
  split
  · exact ⟨hm.1.filter _, fun c hc => hm.2 c (List.mem_of_mem_filter hc)⟩
  · rename_i hb
    exact memInsert_wf hm hb a

/-- Every memory operation keeps the canonical form. -/
theorem memWrite_wf (hm : m.wf) (a : Nat) (bs : List Byte) : (memWrite m a bs).wf := by
  induction bs generalizing m a with
  | nil => exact hm
  | cons b bs ih => exact ih (memSet_wf hm a b) (a + 1)

theorem mem_memSet {c : Host.Cell} (h : c ∈ memSet m a b) : c ∈ m ∨ c.1 = a := by
  unfold memSet at h
  split at h
  · exact .inl (List.mem_of_mem_filter h)
  · exact (mem_memInsert h).imp id fun hc => by rw [hc]

/-- What `MemWrite` can list: an address listed before or one it writes. -/
theorem mem_memWrite {c : Host.Cell} (h : c ∈ memWrite m a bs) :
    c ∈ m ∨ (a ≤ c.1 ∧ c.1 < a + bs.length) := by
  induction bs generalizing m a with
  | nil => exact .inl h
  | cons b bs ih =>
    rw [List.length_cons]
    rcases ih h with h | h
    · exact (mem_memSet h).imp id fun h => by omega
    · exact .inr (by omega)

/-- An address is listed iff it does not read as an unlisted one. -/
theorem memGet_eq_of_mem (hm : m.wf) (h : (a, b) ∈ m) : memGet m a = b := by
  obtain ⟨hs, -⟩ := hm
  induction m with
  | nil => cases h
  | cons d rest ih =>
    obtain ⟨k, v⟩ := d
    obtain ⟨hk, hr⟩ := List.pairwise_cons.mp hs
    rcases List.mem_cons.mp h with h | h
    · cases h
      simp [memGet]
    · have := hk _ h
      rw [memGet_cons, if_neg (by simp only at this; omega), ih h hr]

theorem mem_of_memGet (h : memGet m a ≠ unlistedByte) : (a, memGet m a) ∈ m := by
  induction m with
  | nil => exact absurd rfl h
  | cons d rest ih =>
    obtain ⟨k, v⟩ := d
    rw [memGet_cons] at h ⊢
    split
    · subst_vars
      exact List.mem_cons_self
    · rename_i hk
      rw [if_neg hk] at h
      exact List.mem_cons_of_mem _ (ih h)

/-- Equal memories are equal data: canonical memories that read the same everywhere are one list. -/
theorem memory_ext (hm : m.wf) (hn : n.wf) (h : ∀ a, memGet m a = memGet n a) : m = n := by
  have sub : ∀ {m n : Memory}, m.wf → n.wf → (∀ a, memGet m a = memGet n a) → m ⊆ n := by
    intro m n hm _ h c hc
    obtain ⟨a, b⟩ := c
    have hg := memGet_eq_of_mem hm hc
    have hne : memGet n a ≠ unlistedByte := by
      rw [← h, hg]
      exact hm.2 _ hc
    have := mem_of_memGet hne
    rwa [← h, hg] at this
  have nodup : ∀ {m : Memory}, m.wf → m.Nodup := fun hm =>
    hm.1.imp fun hlt heq => by rw [heq] at hlt; exact Nat.lt_irrefl _ hlt
  refine List.Perm.eq_of_pairwise (le := fun c d => c.1 < d.1) ?_ hm.1 hn.1
    ((List.perm_ext_iff_of_nodup (nodup hm) (nodup hn)).mpr fun c =>
      ⟨fun hc => sub hm hn h hc, fun hc => sub hn hm (fun a => (h a).symm) hc⟩)
  intro c d _ _ h1 h2
  omega

/-- `Valid(addr, n)` in words (20_memory.md R46). -/
theorem spanValid_iff :
    spanValid p a len = true ↔ a + len ≤ 2 ^ 64 ∧ ∀ i < len, memValid p (a + i) = true := by
  simp [spanValid]

end Sys2Proof.Machine
end

