-- ==== Sys2Proof/Laws/State.lean ====
section
/-! SUPPORT. What each update of the state does to each field. -/

namespace Sys2Proof.Machine

variable (s : State)

@[simp] theorem storeBytes_p0 (a : Nat) (bs : List Byte) : (storeBytes a bs s).p0 = s.p0 := rfl
@[simp] theorem storeBytes_p1 (a : Nat) (bs : List Byte) : (storeBytes a bs s).p1 = s.p1 := rfl
@[simp] theorem storeBytes_p2 (a : Nat) (bs : List Byte) : (storeBytes a bs s).p2 = s.p2 := rfl
@[simp] theorem storeBytes_status (a : Nat) (bs : List Byte) : (storeBytes a bs s).status = s.status := rfl
@[simp] theorem storeBytes_capv (a : Nat) (bs : List Byte) : (storeBytes a bs s).capv = s.capv := rfl
@[simp] theorem storeBytes_cap (a : Nat) (bs : List Byte) : (storeBytes a bs s).cap = s.cap := rfl
@[simp] theorem storeBytes_mem (a : Nat) (bs : List Byte) : (storeBytes a bs s).mem = memWrite s.mem a bs := rfl
@[simp] theorem storeBytes_platform (a : Nat) (bs : List Byte) : (storeBytes a bs s).platform = s.platform := rfl
@[simp] theorem storeBytes_drawn (a : Nat) (bs : List Byte) : (storeBytes a bs s).drawn = s.drawn := rfl
@[simp] theorem storeBytes_moves (a : Nat) (bs : List Byte) : (storeBytes a bs s).moves = s.moves := rfl
@[simp] theorem storeBytes_answer (a : Nat) (bs : List Byte) : (storeBytes a bs s).answer = s.answer := rfl

@[simp] theorem complete_p0 (r : Bool) (e : Option ErrKind) : (complete r e s).p0 = s.p0 := rfl
@[simp] theorem complete_p1 (r : Bool) (e : Option ErrKind) : (complete r e s).p1 = s.p1 := rfl
@[simp] theorem complete_p2 (r : Bool) (e : Option ErrKind) : (complete r e s).p2 = s.p2 := rfl
@[simp] theorem complete_status (r : Bool) (e : Option ErrKind) : (complete r e s).status = statusComplete s.status r e := rfl
@[simp] theorem complete_capv (r : Bool) (e : Option ErrKind) : (complete r e s).capv = s.capv := rfl
@[simp] theorem complete_cap (r : Bool) (e : Option ErrKind) : (complete r e s).cap = s.cap := rfl
@[simp] theorem complete_mem (r : Bool) (e : Option ErrKind) : (complete r e s).mem = s.mem := rfl
@[simp] theorem complete_platform (r : Bool) (e : Option ErrKind) : (complete r e s).platform = s.platform := rfl
@[simp] theorem complete_drawn (r : Bool) (e : Option ErrKind) : (complete r e s).drawn = s.drawn := rfl
@[simp] theorem complete_moves (r : Bool) (e : Option ErrKind) : (complete r e s).moves = s.moves := rfl
@[simp] theorem complete_answer (r : Bool) (e : Option ErrKind) : (complete r e s).answer = s.answer := rfl

@[simp] theorem raiseFault_p0 (c : FaultCause) : (raiseFault c s).p0 = s.p0 := rfl
@[simp] theorem raiseFault_p1 (c : FaultCause) : (raiseFault c s).p1 = s.p1 := rfl
@[simp] theorem raiseFault_p2 (c : FaultCause) : (raiseFault c s).p2 = s.p2 := rfl
@[simp] theorem raiseFault_status (c : FaultCause) : (raiseFault c s).status = statusFault s.status c := rfl
@[simp] theorem raiseFault_capv (c : FaultCause) : (raiseFault c s).capv = s.capv := rfl
@[simp] theorem raiseFault_cap (c : FaultCause) : (raiseFault c s).cap = s.cap := rfl
@[simp] theorem raiseFault_mem (c : FaultCause) : (raiseFault c s).mem = s.mem := rfl
@[simp] theorem raiseFault_platform (c : FaultCause) : (raiseFault c s).platform = s.platform := rfl
@[simp] theorem raiseFault_drawn (c : FaultCause) : (raiseFault c s).drawn = s.drawn := rfl
@[simp] theorem raiseFault_moves (c : FaultCause) : (raiseFault c s).moves = s.moves := rfl
@[simp] theorem raiseFault_answer (c : FaultCause) : (raiseFault c s).answer = s.answer := rfl

@[simp] theorem resetEngine_p0 : (resetEngine s).p0 = 0 := rfl
@[simp] theorem resetEngine_p1 : (resetEngine s).p1 = 0 := rfl
@[simp] theorem resetEngine_p2 : (resetEngine s).p2 = 0 := rfl
@[simp] theorem resetEngine_status : (resetEngine s).status = statusAtReset := rfl
@[simp] theorem resetEngine_capv : (resetEngine s).capv = false := rfl
@[simp] theorem resetEngine_cap : (resetEngine s).cap = 0 := rfl
@[simp] theorem resetEngine_mem : (resetEngine s).mem = s.mem := rfl
@[simp] theorem resetEngine_platform : (resetEngine s).platform = s.platform := rfl
@[simp] theorem resetEngine_drawn : (resetEngine s).drawn = s.drawn := rfl
@[simp] theorem resetEngine_moves : (resetEngine s).moves = s.moves := rfl
@[simp] theorem resetEngine_answer : (resetEngine s).answer = s.answer := rfl

@[simp] theorem advanceDraws_p0 (n : Nat) : (advanceDraws n s).p0 = s.p0 := rfl
@[simp] theorem advanceDraws_p1 (n : Nat) : (advanceDraws n s).p1 = s.p1 := rfl
@[simp] theorem advanceDraws_p2 (n : Nat) : (advanceDraws n s).p2 = s.p2 := rfl
@[simp] theorem advanceDraws_status (n : Nat) : (advanceDraws n s).status = s.status := rfl
@[simp] theorem advanceDraws_capv (n : Nat) : (advanceDraws n s).capv = s.capv := rfl
@[simp] theorem advanceDraws_cap (n : Nat) : (advanceDraws n s).cap = s.cap := rfl
@[simp] theorem advanceDraws_mem (n : Nat) : (advanceDraws n s).mem = s.mem := rfl
@[simp] theorem advanceDraws_platform (n : Nat) : (advanceDraws n s).platform = s.platform := rfl
@[simp] theorem advanceDraws_drawn (n : Nat) : (advanceDraws n s).drawn = s.drawn + n := rfl
@[simp] theorem advanceDraws_moves (n : Nat) : (advanceDraws n s).moves = s.moves := rfl
@[simp] theorem advanceDraws_answer (n : Nat) : (advanceDraws n s).answer = s.answer := rfl

@[simp] theorem giveAnswer_p0 (a : HostAnswer) : (giveAnswer a s).p0 = s.p0 := rfl
@[simp] theorem giveAnswer_p1 (a : HostAnswer) : (giveAnswer a s).p1 = s.p1 := rfl
@[simp] theorem giveAnswer_p2 (a : HostAnswer) : (giveAnswer a s).p2 = s.p2 := rfl
@[simp] theorem giveAnswer_status (a : HostAnswer) : (giveAnswer a s).status = s.status := rfl
@[simp] theorem giveAnswer_capv (a : HostAnswer) : (giveAnswer a s).capv = s.capv := rfl
@[simp] theorem giveAnswer_cap (a : HostAnswer) : (giveAnswer a s).cap = s.cap := rfl
@[simp] theorem giveAnswer_mem (a : HostAnswer) : (giveAnswer a s).mem = s.mem := rfl
@[simp] theorem giveAnswer_platform (a : HostAnswer) : (giveAnswer a s).platform = s.platform := rfl
@[simp] theorem giveAnswer_drawn (a : HostAnswer) : (giveAnswer a s).drawn = s.drawn := rfl
@[simp] theorem giveAnswer_moves (a : HostAnswer) : (giveAnswer a s).moves = s.moves := rfl
@[simp] theorem giveAnswer_answer (a : HostAnswer) : (giveAnswer a s).answer = some a := rfl

@[simp] theorem takeMove_p0 (ms : List HostMove) : (takeMove ms s).p0 = s.p0 := rfl
@[simp] theorem takeMove_p1 (ms : List HostMove) : (takeMove ms s).p1 = s.p1 := rfl
@[simp] theorem takeMove_p2 (ms : List HostMove) : (takeMove ms s).p2 = s.p2 := rfl
@[simp] theorem takeMove_status (ms : List HostMove) : (takeMove ms s).status = s.status := rfl
@[simp] theorem takeMove_capv (ms : List HostMove) : (takeMove ms s).capv = s.capv := rfl
@[simp] theorem takeMove_cap (ms : List HostMove) : (takeMove ms s).cap = s.cap := rfl
@[simp] theorem takeMove_mem (ms : List HostMove) : (takeMove ms s).mem = s.mem := rfl
@[simp] theorem takeMove_platform (ms : List HostMove) : (takeMove ms s).platform = s.platform := rfl
@[simp] theorem takeMove_drawn (ms : List HostMove) : (takeMove ms s).drawn = s.drawn := rfl
@[simp] theorem takeMove_moves (ms : List HostMove) : (takeMove ms s).moves = ms := rfl
@[simp] theorem takeMove_answer (ms : List HostMove) : (takeMove ms s).answer = none := rfl

@[simp] theorem placeCommand_p0 (w : CmdWord) : (placeCommand w s).p0 = s.p0 := rfl
@[simp] theorem placeCommand_p1 (w : CmdWord) : (placeCommand w s).p1 = s.p1 := rfl
@[simp] theorem placeCommand_p2 (w : CmdWord) : (placeCommand w s).p2 = s.p2 := rfl
@[simp] theorem placeCommand_status (w : CmdWord) : (placeCommand w s).status = s.status := rfl
@[simp] theorem placeCommand_capv (w : CmdWord) : (placeCommand w s).capv = s.capv := rfl
@[simp] theorem placeCommand_cap (w : CmdWord) : (placeCommand w s).cap = s.cap := rfl
@[simp] theorem placeCommand_mem (w : CmdWord) : (placeCommand w s).mem = s.mem := rfl
@[simp] theorem placeCommand_platform (w : CmdWord) : (placeCommand w s).platform = s.platform := rfl
@[simp] theorem placeCommand_drawn (w : CmdWord) : (placeCommand w s).drawn = s.drawn := rfl
@[simp] theorem placeCommand_moves (w : CmdWord) : (placeCommand w s).moves = .writeCmd w :: s.moves := rfl
@[simp] theorem placeCommand_answer (w : CmdWord) : (placeCommand w s).answer = s.answer := rfl

@[simp] theorem setPtr_status (r : PtrReg) (v : Addr) : (setPtr r v s).status = s.status := by
  cases r <;> rfl
@[simp] theorem setPtr_capv (r : PtrReg) (v : Addr) : (setPtr r v s).capv = s.capv := by
  cases r <;> rfl
@[simp] theorem setPtr_cap (r : PtrReg) (v : Addr) : (setPtr r v s).cap = s.cap := by
  cases r <;> rfl
@[simp] theorem setPtr_mem (r : PtrReg) (v : Addr) : (setPtr r v s).mem = s.mem := by
  cases r <;> rfl
@[simp] theorem setPtr_platform (r : PtrReg) (v : Addr) : (setPtr r v s).platform = s.platform := by
  cases r <;> rfl
@[simp] theorem setPtr_drawn (r : PtrReg) (v : Addr) : (setPtr r v s).drawn = s.drawn := by
  cases r <;> rfl
@[simp] theorem setPtr_moves (r : PtrReg) (v : Addr) : (setPtr r v s).moves = s.moves := by
  cases r <;> rfl
@[simp] theorem setPtr_answer (r : PtrReg) (v : Addr) : (setPtr r v s).answer = s.answer := by
  cases r <;> rfl

/-- A pointer register holds what was set last; the others are as before. -/
@[simp] theorem ptr_setPtr (r q : PtrReg) (v : Addr) :
    ptr (setPtr r v s) q = if q = r then v else ptr s q := by
  cases r <;> cases q <;> rfl

@[simp] theorem probeCapabilities_p0 : (probeCapabilities s).p0 = s.p0 := by
  unfold probeCapabilities; split <;> rfl
@[simp] theorem probeCapabilities_p1 : (probeCapabilities s).p1 = s.p1 := by
  unfold probeCapabilities; split <;> rfl
@[simp] theorem probeCapabilities_p2 : (probeCapabilities s).p2 = s.p2 := by
  unfold probeCapabilities; split <;> rfl
@[simp] theorem probeCapabilities_status : (probeCapabilities s).status = s.status := by
  unfold probeCapabilities; split <;> rfl
@[simp] theorem probeCapabilities_mem : (probeCapabilities s).mem = s.mem := by
  unfold probeCapabilities; split <;> rfl
@[simp] theorem probeCapabilities_platform : (probeCapabilities s).platform = s.platform := by
  unfold probeCapabilities; split <;> rfl
@[simp] theorem probeCapabilities_drawn : (probeCapabilities s).drawn = s.drawn := by
  unfold probeCapabilities; split <;> rfl
@[simp] theorem probeCapabilities_moves : (probeCapabilities s).moves = s.moves := by
  unfold probeCapabilities; split <;> rfl
@[simp] theorem probeCapabilities_answer : (probeCapabilities s).answer = s.answer := by
  unfold probeCapabilities; split <;> rfl

/-- After the probe the cache is valid (41_capability.md R110). -/
@[simp] theorem probeCapabilities_capv : (probeCapabilities s).capv = true := by
  unfold probeCapabilities
  split
  · assumption
  · rfl

/-- The probe writes the cache only when it was not valid (41_capability.md R111). -/
@[simp] theorem probeCapabilities_cap :
    (probeCapabilities s).cap = if s.capv then s.cap else capabilityBits s.platform := by
  unfold probeCapabilities; split <;> rfl

/-- An update that keeps the pointers keeps every operand address. -/
theorem effAddr_congr {s t : State} (h : ∀ r, ptr t r = ptr s r) (r : PtrReg) (off : Nat) :
    effAddr t r off = effAddr s r off := by
  rw [effAddr, effAddr, h]

/-- Two states are equal when all their fields are. -/
theorem State.eq_of_fields {s t : State} (h0 : s.p0 = t.p0) (h1 : s.p1 = t.p1) (h2 : s.p2 = t.p2)
    (hs : s.status = t.status) (hv : s.capv = t.capv) (hc : s.cap = t.cap) (hm : s.mem = t.mem)
    (hp : s.platform = t.platform) (hd : s.drawn = t.drawn) (hq : s.moves = t.moves)
    (ha : s.answer = t.answer) : s = t := by
  cases s; cases t; simp_all

end Sys2Proof.Machine
end

