-- ==== Sys2Proof/Laws/Checks.lean ====
section
/-! SUPPORT. What the checks and the shared ends of a command can do. -/

namespace Sys2Proof.Machine

variable {i : Instr} {s t : State} {run : State → State}

/-- The checks and their order (60_exceptions.md R190). -/
theorem precheck_cases (i : Instr) (s : State) :
    (s.status.fault = true ∧ precheck i s = .refused) ∨
    (s.status.fault = false ∧ capabilityPresent i s.platform = false ∧
      precheck i s = .fault .capabilityAbsent) ∨
    (s.status.fault = false ∧ capabilityPresent i s.platform = true ∧ bitsAccepted i = false ∧
      precheck i s = .error .invalidKeyLength) ∨
    (s.status.fault = false ∧ capabilityPresent i s.platform = true ∧ bitsAccepted i = true ∧
      roundsAccepted i = false ∧ precheck i s = .fault .roundsInvalid) ∨
    (s.status.fault = false ∧ capabilityPresent i s.platform = true ∧ bitsAccepted i = true ∧
      roundsAccepted i = true ∧ footprintValid i s = false ∧ precheck i s = .fault .addressFault) ∨
    (s.status.fault = false ∧ capabilityPresent i s.platform = true ∧ bitsAccepted i = true ∧
      roundsAccepted i = true ∧ footprintValid i s = true ∧ precheck i s = .runs) := by
  unfold precheck
  cases s.status.fault <;> cases capabilityPresent i s.platform <;> cases bitsAccepted i <;>
    cases roundsAccepted i <;> cases footprintValid i s <;> simp

/-- A command runs iff no check fires. -/
theorem precheck_runs_iff :
    precheck i s = .runs ↔ s.status.fault = false ∧ capabilityPresent i s.platform = true ∧
      bitsAccepted i = true ∧ roundsAccepted i = true ∧ footprintValid i s = true := by
  unfold precheck
  cases s.status.fault <;> cases capabilityPresent i s.platform <;> cases bitsAccepted i <;>
    cases roundsAccepted i <;> cases footprintValid i s <;> simp

/-- A command that no check stops has its own effect. -/
theorem underChecks_runs (h : precheck i s = .runs) : underChecks i s run = .next (run s) := by
  simp [underChecks, h]

/-- A faulted engine refuses every command and changes nothing (60_exceptions.md R185). -/
theorem underChecks_refused (h : s.status.fault = true) : underChecks i s run = .next s := by
  simp [underChecks, precheck, h]

/-- Everything a command under its checks can do: it answers a next state, which is the old one, the old
one with a fault or an error recorded, or the command's own effect. -/
theorem underChecks_cases (h : underChecks i s run = .next t) :
    (precheck i s = .refused ∧ t = s) ∨
    (∃ c, precheck i s = .fault c ∧ t = raiseFault c s) ∨
    (∃ e, precheck i s = .error e ∧ t = complete false (some e) s) ∨
    (precheck i s = .runs ∧ t = run s) := by
  unfold underChecks at h
  rcases hv : precheck i s with _ | c | e | _ <;> rw [hv] at h <;> cases h
  · exact .inl ⟨rfl, rfl⟩
  · exact .inr (.inl ⟨c, rfl, rfl⟩)
  · exact .inr (.inr (.inl ⟨e, rfl, rfl⟩))
  · exact .inr (.inr (.inr ⟨rfl, rfl⟩))

/-- A command under its checks always answers a next state (60_exceptions.md R180). -/
theorem underChecks_total (i : Instr) (s : State) (run : State → State) :
    ∃ t, underChecks i s run = .next t := by
  unfold underChecks
  split <;> exact ⟨_, rfl⟩

/-- `STATUS` after a fault that is the first one (10_state.md R26). -/
theorem statusFault_first {st : Status} (h : st.fault = false) (c : FaultCause) :
    statusFault st c = { st with fault := true, fcode := some c } := by
  simp [statusFault, h]

/-- A later fault leaves `STATUS` as it is (10_state.md R26). -/
theorem statusFault_later {st : Status} (h : st.fault = true) (c : FaultCause) :
    statusFault st c = st := by
  simp [statusFault, h]

/-- What HASSUPPORT answers from the hardware facts (41_capability.md R112, R113). -/
theorem anyCapability_facts (p : Platform) (mask : BitVec 2) :
    anyCapability (capabilityBits p) mask =
      ((mask.getLsbD 0 && p.hwAes) || (mask.getLsbD 1 && p.hwClmul)) := by
  have facts : ∀ (aes clmul : Bool) (mask : BitVec 2),
      anyCapability (BitVec.ofBool clmul ++ BitVec.ofBool aes) mask =
        ((mask.getLsbD 0 && aes) || (mask.getLsbD 1 && clmul)) := by decide
  exact facts _ _ _

/-- The regions of a command are those at the pointers it uses (20_memory.md R49). -/
theorem mem_footprint {q : Span} :
    q ∈ readSpans i s ++ writeSpans i s ↔
      ∃ r, 0 < operandBytes i r ∧ q = spanAt s r (operandBytes i r) := by
  have hp : ∀ p : PtrReg → Prop, (∃ r, p r) ↔ p .p0 ∨ p .p1 ∨ p .p2 := fun p =>
    ⟨fun ⟨r, h⟩ => by cases r <;> simp [h], fun h => by rcases h with h | h | h <;> exact ⟨_, h⟩⟩
  rw [hp]
  cases i with
  | hassupport mask => simp [readSpans, writeSpans, operandBytes]
  | cryptblockEnc rounds =>
    cases h : legalRounds rounds <;>
      simp [readSpans, writeSpans, operandBytes, h, scheduleBytes]
  | cryptblockDec rounds =>
    cases h : legalRounds rounds <;>
      simp [readSpans, writeSpans, operandBytes, h, scheduleBytes]
  | expandkey bits =>
    cases h : legalBits bits
    · simp [readSpans, writeSpans, operandBytes, h]
    · have hk : 0 < bits / 8 := by
        simp only [legalBits, Bool.or_eq_true, beq_iff_eq] at h
        omega
      simp [readSpans, writeSpans, operandBytes, h, hk, scheduleBytes]
  | derivedec rounds =>
    cases h : legalRounds rounds <;>
      simp [readSpans, writeSpans, operandBytes, h, scheduleBytes]
  | gfmul => simp [readSpans, writeSpans, operandBytes]

/-- The regions of a command all lie where bytes exist, one by one. -/
theorem footprintValid_iff :
    footprintValid i s = true ↔
      ∀ r ∈ readSpans i s ++ writeSpans i s, spanValid s.platform r.addr r.len = true := by
  rw [footprintValid, List.all_eq_true]

end Sys2Proof.Machine
end

