-- ==== Sys2Proof/Laws/Datapath.lean ====
section
/-! SUPPORT. Lengths, and the ways between bytes, words, blocks and numbers. -/

namespace Sys2Proof.Machine

@[simp] theorem bytesOfWord_length (w : Word32) : (bytesOfWord w).length = 4 := rfl

@[simp] theorem bytesOfBlock_length (b : Block) : (bytesOfBlock b).length = 16 := rfl

@[simp] theorem wordsOfBlock_length (b : Block) : (wordsOfBlock b).length = 4 := rfl

theorem bytesOfWords_length (ws : List Word32) : (bytesOfWords ws).length = 4 * ws.length := by
  induction ws with
  | nil => rfl
  | cons w ws ih =>
    simp only [bytesOfWords, List.flatMap_cons, List.length_append, List.length_cons] at ih ⊢
    rw [ih, bytesOfWord_length]
    omega

/-- A sequence of equal-sized pieces has the length of all of them. -/
theorem length_flatMap_const {α β : Type} (l : List α) (f : α → List β) (k : Nat)
    (h : ∀ a ∈ l, (f a).length = k) : (l.flatMap f).length = k * l.length := by
  induction l with
  | nil => simp
  | cons a l ih =>
    rw [List.flatMap_cons, List.length_append, h a List.mem_cons_self,
      ih fun b hb => h b (List.mem_cons_of_mem _ hb), List.length_cons, Nat.mul_succ, Nat.add_comm]

/-- A Round Key Sequence is `16*(rounds+1)` bytes (20_memory.md R43). -/
@[simp] theorem bytesOfSchedule_length (rounds : Nat) (keys : Nat → Block) :
    (bytesOfSchedule rounds keys).length = scheduleBytes rounds := by
  rw [bytesOfSchedule, length_flatMap_const _ _ 16 (fun _ _ => bytesOfBlock_length _),
    List.length_range, scheduleBytes]

@[simp] theorem drawBytes_length (n : Nat) (key : List Byte) (s : State) :
    (drawBytes n key s).length = n := by
  simp [drawBytes]

@[simp] theorem expansionSteps_length {α : Type} (step : Nat → α → α) (n j : Nat) (a : α) :
    (expansionSteps step n j a).length = n := by
  induction n generalizing j a with
  | zero => rfl
  | succ n ih => rw [expansionSteps, List.length_cons, ih]

theorem expand128_length (key : List Byte) : (expand128 key).length = 44 := by
  rw [expand128, length_flatMap_const _ _ 4 (fun _ _ => wordsOfBlock_length _)]
  simp

theorem expand192_length (key : List Byte) : (expand192 key).length = 54 := by
  rw [expand192, length_flatMap_const _ _ 6 (fun _ _ => rfl)]
  simp

theorem expand256_length (key : List Byte) : (expand256 key).length = 64 := by
  rw [expand256, length_flatMap_const _ _ 8 (fun _ _ => rfl)]
  simp

/-- The words of a schedule are four for each of its `rounds + 1` keys (43_keyschedule.md R136). -/
theorem expandedWords_length (bits : Nat) (key : List Byte) :
    (expandedWords bits key).length = 4 * (roundsOfBits bits + 1) := by
  unfold expandedWords roundsOfBits
  rw [List.length_take]
  split
  · rw [expand128_length]; rfl
  · split
    · rw [expand192_length]; rfl
    · rw [expand256_length]; rfl

/-- A block read from its own bytes. -/
@[simp] theorem blockOfBytes_bytesOfBlock (b : Block) : blockOfBytes (bytesOfBlock b) 0 = b := rfl

/-- A block read back where it was written. -/
theorem readBlock_memWrite_self (m : Memory) (a : Nat) (b : Block) :
    readBlock (memWrite m a (bytesOfBlock b)) a = b := by
  have := memRead_memWrite_self m a (bytesOfBlock b)
  rw [bytesOfBlock_length] at this
  rw [readBlock, this, blockOfBytes_bytesOfBlock]

/-- A block depends on its sixteen bytes. -/
theorem readBlock_congr {m n : Memory} {a : Nat} (h : ∀ i < 16, memGet m (a + i) = memGet n (a + i)) :
    readBlock m a = readBlock n a := by
  rw [readBlock, readBlock, memRead_congr h]

/-- The bits of a word as a number (00_scope.md R12). -/
theorem be32_getLsbD (w : Word32) {i : Nat} (hi : i < 32) :
    (be32 w).getLsbD i =
      if i < 8 then w.b3.getLsbD i else if i < 16 then w.b2.getLsbD (i - 8)
      else if i < 24 then w.b1.getLsbD (i - 16) else w.b0.getLsbD (i - 24) := by
  have out : ∀ (x : Byte) (j : Nat), 8 ≤ j → x.getLsbD j = false := fun x j h =>
    BitVec.getLsbD_of_ge x j h
  simp only [be32, BitVec.getLsbD_or, BitVec.getLsbD_shiftLeft, BitVec.getLsbD_setWidth]
  split
  · simp [*, show i < 16 by omega, show i < 24 by omega]
  · split
    · simp [*, show i < 24 by omega, show i - 8 < 32 by omega, out w.b3 i (by omega)]
    · split
      · simp [*, show i - 8 < 32 by omega, show i - 16 < 32 by omega, out w.b3 i (by omega),
          out w.b2 (i - 8) (by omega)]
      · simp [*, show i - 8 < 32 by omega, show i - 16 < 32 by omega, show i - 24 < 32 by omega,
          out w.b3 i (by omega), out w.b2 (i - 8) (by omega), out w.b1 (i - 16) (by omega)]

/-- Storing a word's number gives the word back. -/
@[simp] theorem wordBe_be32 (w : Word32) : wordBe (be32 w) = w := by
  obtain ⟨a, b, c, d⟩ := w
  simp only [wordBe, be32, Word32.mk.injEq]
  refine ⟨?_, ?_, ?_, ?_⟩ <;> ext i hi <;> interval_cases i <;> simp

/-- Loading a stored number gives the number back. -/
@[simp] theorem be32_wordBe (v : BitVec 32) : be32 (wordBe v) = v := by
  apply BitVec.eq_of_getLsbD_eq
  intro i hi
  rw [be32_getLsbD _ hi]
  simp only [wordBe, BitVec.getLsbD_extractLsb']
  repeat' split
  · simp [*]
  · simp [show i - 8 < 8 by omega, show 8 + (i - 8) = i by omega]
  · simp [show i - 16 < 8 by omega, show 16 + (i - 16) = i by omega]
  · simp [show i - 24 < 8 by omega, show 24 + (i - 24) = i by omega]

/-- The two byte orders of a word are each other's byte reversal (00_scope.md R12). -/
theorem le32_eq_be32_revWord (w : Word32) : le32 w = be32 (revWord w) := rfl

/-- Reversing the bytes twice changes nothing. -/
@[simp] theorem revWord_revWord (w : Word32) : revWord (revWord w) = w := rfl

/-- Storing a word's little-endian number gives the word back. -/
@[simp] theorem wordLe_le32 (w : Word32) : wordLe (le32 w) = w := by
  rw [show wordLe (le32 w) = revWord (wordBe (be32 (revWord w))) from rfl, wordBe_be32, revWord_revWord]

/-- Loading a number stored little-endian gives the number back. -/
@[simp] theorem le32_wordLe (v : BitVec 32) : le32 (wordLe v) = v := be32_wordBe v

/-- Loading a word is linear. -/
theorem be32_xorWord (x y : Word32) : be32 (xorWord x y) = be32 x ^^^ be32 y := by
  apply BitVec.eq_of_getLsbD_eq
  intro i hi
  rw [BitVec.getLsbD_xor, be32_getLsbD _ hi, be32_getLsbD _ hi, be32_getLsbD _ hi]
  repeat' split
  all_goals simp [xorWord]

end Sys2Proof.Machine
end

