-- ==== Sys2Proof/Laws/Exec.lean ====
section
/-! SUPPORT. Every command as its checks over its own effect, and what the effects write. -/

namespace Sys2Proof.Machine

/-- What a command stores when it runs: the address and the bytes (20_memory.md R49). -/
def stored (i : Instr) (s : State) : Nat × List Byte :=
  match i with
  | .hassupport _ => (0, [])
  | .cryptblockEnc rounds =>
    (effAddr s .p2 0, bytesOfBlock (encryptBlock rounds (roundKeyAt s) (readBlock s.mem (effAddr s .p1 0))))
  | .cryptblockDec rounds =>
    (effAddr s .p2 0, bytesOfBlock (decryptBlock rounds (roundKeyAt s) (readBlock s.mem (effAddr s .p1 0))))
  | .expandkey bits =>
    let key := memRead s.mem (effAddr s .p0 0) (bits / 8)
    (effAddr s .p1 0, bytesOfWords (expandedWords bits key) ++ drawBytes (trailingBytes bits) key s)
  | .derivedec rounds =>
    (effAddr s .p1 0, bytesOfSchedule rounds (decryptionKey rounds (roundKeyAt s)))
  | .gfmul =>
    (effAddr s .p2 0, bytesOfBlock
      (gfProduct (readBlock s.mem (effAddr s .p0 0)) (readBlock s.mem (effAddr s .p1 0))))

/-- The free bytes a command draws when it runs. -/
def drawsOf : Instr → Nat
  | .expandkey bits => trailingBytes bits
  | _ => 0

/-- The answer a command leaves in `RESULT` when it runs. -/
def answerOf (i : Instr) (s : State) : Bool :=
  match i with
  | .hassupport mask => anyCapability (probeCapabilities s).cap mask
  | _ => false

/-- The cache after a command that runs. -/
def cacheAfter (i : Instr) (s : State) : State :=
  match i with
  | .hassupport _ => probeCapabilities s
  | _ => s

/-- A command's own effect: it may fill the cache, it stores, it draws, it completes. -/
def effectOf (i : Instr) (s : State) : State :=
  complete (answerOf i s) none
    (advanceDraws (drawsOf i) (storeBytes (stored i s).1 (stored i s).2 (cacheAfter i s)))

/-- Every command is its own effect under the checks. -/
theorem exec_eq_underChecks (i : Instr) (s : State) : exec i s = underChecks i s (effectOf i) := by
  cases i <;> rfl

/-- A command that no check stops has its own effect. -/
theorem exec_of_runs {i : Instr} {s : State} (h : precheck i s = .runs) :
    exec i s = .next (effectOf i s) := by
  rw [exec_eq_underChecks, underChecks_runs h]

variable (i : Instr) (s : State)

@[simp] theorem cacheAfter_mem : (cacheAfter i s).mem = s.mem := by cases i <;> simp [cacheAfter]
@[simp] theorem cacheAfter_p0 : (cacheAfter i s).p0 = s.p0 := by cases i <;> simp [cacheAfter]
@[simp] theorem cacheAfter_p1 : (cacheAfter i s).p1 = s.p1 := by cases i <;> simp [cacheAfter]
@[simp] theorem cacheAfter_p2 : (cacheAfter i s).p2 = s.p2 := by cases i <;> simp [cacheAfter]
@[simp] theorem cacheAfter_status : (cacheAfter i s).status = s.status := by
  cases i <;> simp [cacheAfter]
@[simp] theorem cacheAfter_platform : (cacheAfter i s).platform = s.platform := by
  cases i <;> simp [cacheAfter]
@[simp] theorem cacheAfter_drawn : (cacheAfter i s).drawn = s.drawn := by cases i <;> simp [cacheAfter]
@[simp] theorem cacheAfter_moves : (cacheAfter i s).moves = s.moves := by cases i <;> simp [cacheAfter]
@[simp] theorem cacheAfter_answer : (cacheAfter i s).answer = s.answer := by
  cases i <;> simp [cacheAfter]

@[simp] theorem effectOf_mem : (effectOf i s).mem = memWrite s.mem (stored i s).1 (stored i s).2 := by
  simp [effectOf]
@[simp] theorem effectOf_p0 : (effectOf i s).p0 = s.p0 := by simp [effectOf]
@[simp] theorem effectOf_p1 : (effectOf i s).p1 = s.p1 := by simp [effectOf]
@[simp] theorem effectOf_p2 : (effectOf i s).p2 = s.p2 := by simp [effectOf]
@[simp] theorem effectOf_platform : (effectOf i s).platform = s.platform := by simp [effectOf]
@[simp] theorem effectOf_moves : (effectOf i s).moves = s.moves := by simp [effectOf]
@[simp] theorem effectOf_answer : (effectOf i s).answer = s.answer := by simp [effectOf]
@[simp] theorem effectOf_status :
    (effectOf i s).status = statusComplete s.status (answerOf i s) none := by simp [effectOf]
@[simp] theorem effectOf_capv : (effectOf i s).capv = (cacheAfter i s).capv := by simp [effectOf]
@[simp] theorem effectOf_cap : (effectOf i s).cap = (cacheAfter i s).cap := by simp [effectOf]
@[simp] theorem effectOf_drawn : (effectOf i s).drawn = s.drawn + drawsOf i := by simp [effectOf]

/-- Everything a command can do to memory: nothing, or its own store. -/
theorem exec_mem {i : Instr} {s t : State} (h : exec i s = .next t) :
    (precheck i s = .runs ∧ t.mem = memWrite s.mem (stored i s).1 (stored i s).2) ∨
    (precheck i s ≠ .runs ∧ t.mem = s.mem) := by
  rw [exec_eq_underChecks] at h
  rcases underChecks_cases h with ⟨hv, rfl⟩ | ⟨c, hv, rfl⟩ | ⟨e, hv, rfl⟩ | ⟨hv, rfl⟩ <;> simp [hv]

/-- What a running command stores lies exactly in the regions it writes. -/
theorem stored_span {i : Instr} {s : State} (h : precheck i s = .runs) :
    (∃ mask, i = .hassupport mask) ∨
      writeSpans i s = [⟨(stored i s).1, (stored i s).2.length⟩] := by
  obtain ⟨-, -, hb, hr, -⟩ := precheck_runs_iff.mp h
  cases i with
  | hassupport mask => exact .inl ⟨mask, rfl⟩
  | cryptblockEnc rounds => exact .inr (by simp_all [writeSpans, stored, spanAt, roundsAccepted])
  | cryptblockDec rounds => exact .inr (by simp_all [writeSpans, stored, spanAt, roundsAccepted])
  | expandkey bits =>
    refine .inr ?_
    simp only [bitsAccepted] at hb
    simp [writeSpans, stored, spanAt, hb, bytesOfWords_length, expandedWords_length, scheduleBytes]
    omega
  | derivedec rounds => exact .inr (by simp_all [writeSpans, stored, spanAt, roundsAccepted])
  | gfmul => exact .inr (by simp [writeSpans, stored, spanAt])

end Sys2Proof.Machine
end

