-- ==== Sys2Proof/Laws/PerInstr.lean ====
section
/-! SUPPORT. The family OpcodeRowMatch: the word of a well-formed command lies in the command's row of the
opcode map (30_encoding.md R65). -/

namespace Sys2Proof.Laws.OpcodeRowMatch

/-- The word of the command, masked, is the row's pattern. -/
def Statement (i : Instr) : Prop :=
  i.wellFormed = true → encode i &&& (opcodeRow i).mask = (opcodeRow i).pattern

/-- The immediate stands outside the mask that every row but two has. -/
theorem packFields_masked (imm : BitVec 16) (dir : BitVec 1) (opc : BitVec 4) :
    packFields imm dir opc &&& 0xFF0000FF#32 = packFields 0#16 dir opc := by
  ext i hi
  interval_cases i <;> simp [packFields]

theorem hassupport : ∀ mask, Statement (.hassupport mask) := by
  intro mask _
  revert mask
  decide

theorem cryptblockEnc : ∀ rounds, Statement (.cryptblockEnc rounds) :=
  fun _ _ => packFields_masked _ _ _

theorem cryptblockDec : ∀ rounds, Statement (.cryptblockDec rounds) :=
  fun _ _ => packFields_masked _ _ _

theorem expandkey : ∀ bits, Statement (.expandkey bits) := fun _ _ => packFields_masked _ _ _

theorem derivedec : ∀ rounds, Statement (.derivedec rounds) := fun _ _ => packFields_masked _ _ _

theorem gfmul : Statement .gfmul := by
  intro _
  decide

end Sys2Proof.Laws.OpcodeRowMatch
end

