-- ==== Sys2Proof/Tests/Slice0.lean ====
section
/-! SUPPORT. Tests against the spec's own encodings, tables and vectors (95_test_vectors.md), and a witness
for the hypotheses of every statement. -/

namespace Sys2Proof.Tests

open Sys2Proof.Machine Sys2Proof.Safety

/-- `n` bytes given as one hexadecimal number in memory order, first byte first. -/
def hexBytes (n v : Nat) : List Byte := (List.range n).map fun i => BitVec.ofNat 8 (v >>> (8 * (n - 1 - i)))

/-- A block given the same way. -/
def hexBlock (v : Nat) : Block := blockOfBytes (hexBytes 16 v) 0

/-- An engine after reset on the platform of 95_test_vectors.md, `MEM_VALID = [0x1000, 0x3000)`, with its
pointers set. -/
def engine (aes clmul : Bool) (p0 p1 p2 : Addr) : State :=
  { State.reset with
    platform := ⟨aes, clmul, [⟨0x1000, 0x2000⟩]⟩
    p0 := p0
    p1 := p1
    p2 := p2 }

/-- The same engine with bytes in memory. -/
def holding (s : State) (addr n v : Nat) : State := storeBytes addr (hexBytes n v) s

/-- The engine once it has faulted. -/
def faultedEngine : State := raiseFault .addressFault (engine true true 0x1000 0x1100 0x1200)

/-- The host is about to make the move. -/
def before (m : HostMove) (s : State) : State := { s with moves := [m] }

/-- The state after one step, `s` itself where the step is no next state. -/
def after (s : State) : State :=
  match step s with
  | .next t => t
  | .fault _ => s
  | .refused _ => s

/-- `STATUS` after the host has issued a word. -/
def statusAfter (w : CmdWord) (s : State) : BitVec 32 :=
  statusWord (after (before (.writeCmd w) s)).status

/-! ### Well-formedness -/

theorem test_wellFormed_refuses_enc : (Instr.cryptblockEnc 65536).wellFormed = false := by decide
theorem test_wellFormed_refuses_dec : (Instr.cryptblockDec 65536).wellFormed = false := by decide
theorem test_wellFormed_refuses_expandkey : (Instr.expandkey 65536).wellFormed = false := by decide
theorem test_wellFormed_refuses_derivedec : (Instr.derivedec 65536).wellFormed = false := by decide
theorem test_wellFormed_accepts_top : (Instr.expandkey 65535).wellFormed = true := by decide

/-! ### Decoding: words laid out field by field from 30_encoding.md R61, R62
(`RSV1 IMM RSV0 DIR OPC`) -/

theorem test_decode_hassupport :
    decode 0b00000000_0000000000000010_000_0_0001 = .command (.hassupport 2) := by decide
theorem test_decode_enc :
    decode 0b00000000_0000000000001010_000_0_0010 = .command (.cryptblockEnc 10) := by decide
theorem test_decode_dec :
    decode 0b00000000_0000000000001110_000_1_0010 = .command (.cryptblockDec 14) := by decide
theorem test_decode_expandkey :
    decode 0b00000000_0000000100000000_000_0_0011 = .command (.expandkey 256) := by decide
theorem test_decode_expandkey_top :
    decode 0b00000000_1111111111111111_000_0_0011 = .command (.expandkey 65535) := by decide
theorem test_decode_derivedec :
    decode 0b00000000_0000000000001100_000_0_0100 = .command (.derivedec 12) := by decide
theorem test_decode_gfmul :
    decode 0b00000000_0000000000000000_000_0_0101 = .command .gfmul := by decide

/-- 95_test_vectors.md V16, the illegal words, each by the name of its cause. -/
theorem test_decode_illegal :
    decode 0x00000000 = .illegal .opcode ∧ decode 0x00000006 = .illegal .opcode ∧
    decode 0x0000000F = .illegal .opcode ∧ decode 0x01000A02 = .illegal .reservedHigh ∧
    decode 0x00000A22 = .illegal .reservedLow ∧ decode 0x00000013 = .illegal .direction ∧
    decode 0x00000015 = .illegal .direction ∧ decode 0x00000105 = .illegal .immediate ∧
    decode 0x00000401 = .illegal .maskBits := by decide

/-- The words of 30_encoding.md R65. -/
theorem test_encode_words :
    encode (.hassupport 3) = 0x00000301 ∧ encode (.cryptblockEnc 12) = 0x00000C02 ∧
    encode (.cryptblockDec 12) = 0x00000C12 ∧ encode (.expandkey 100) = 0x00006403 ∧
    encode (.derivedec 14) = 0x00000E04 ∧ encode .gfmul = 0x00000005 := by decide

theorem test_decodeTableWord : decodeTableWord 32 0x00000A12 = some (.cryptblockDec 10) := by decide

/-! ### Primitives (95_test_vectors.md V13, 40_primitives.md R81) -/

theorem test_gmul8 : gmul8 0x57 0x83 = 0xC1 ∧ gmul8 0x57 0x13 = 0xFE := by decide
theorem test_subBytes : subBytes (hexBlock 0x00102030405060708090a0b0c0d0e0f0)
    = hexBlock 0x63cab7040953d051cd60e0e7ba70e18c := by decide +kernel
theorem test_mixColumns : mixColumns (hexBlock 0xdb135345f20a225c01010101c6c6c6c6)
    = hexBlock 0x8e4da1bc9fdc589d01010101c6c6c6c6 := by decide +kernel
theorem test_aesRound : aesRound (hexBlock 0x00102030405060708090a0b0c0d0e0f0)
    (hexBlock 0xd6aa74fdd2af72fadaa678f1d6ab76fe)
    = hexBlock 0x89d810e8855ace682d1843d8cb128fe4 := by decide +kernel
theorem test_aesInvRound : aesInvRound (hexBlock 0x00102030405060708090a0b0c0d0e0f0)
    (hexBlock 0xd6aa74fdd2af72fadaa678f1d6ab76fe)
    = hexBlock 0x4e88a83e2db2fbc352f0b4f653e65e0f := by decide +kernel
theorem test_aesInvFinalRound : aesInvFinalRound (hexBlock 0x00102030405060708090a0b0c0d0e0f0)
    (hexBlock 0xd6aa74fdd2af72fadaa678f1d6ab76fe)
    = hexBlock 0x84ca332da0d3d206e0ca2ce6c93de6f6 := by decide +kernel
theorem test_aesKeyGenAssist : aesKeyGenAssist (hexBlock 0x000102030405060708090a0b0c0d0e0f) 0x00
    = hexBlock 0xf26b6fc56b6fc5f2fed7ab76d7ab76fe := by decide +kernel
theorem test_byteOrders : le128 (hexBlock 0x000102030405060708090a0b0c0d0e0f)
    = 0x0f0e0d0c0b0a09080706050403020100 ∧ be128 (hexBlock 0x000102030405060708090a0b0c0d0e0f)
    = 0x000102030405060708090a0b0c0d0e0f := by decide +kernel
theorem test_clmul64 : clmul64 0x0123456789ABCDEF 0xFEDCBA9876543210
    = 0x00E038D8688850B040A0789828C810F0 := by decide +kernel

/-! ### HASSUPPORT (95_test_vectors.md V15) -/

theorem test_hassupport_aes_only :
    statusAfter 0x00000101 (engine true false 0 0 0) = 0x00000001 ∧
    statusAfter 0x00000201 (engine true false 0 0 0) = 0x00000000 := by decide
theorem test_hassupport_any_of :
    statusAfter 0x00000301 (engine false true 0 0 0) = 0x00000001 ∧
    statusAfter 0x00000001 (engine true true 0 0 0) = 0x00000000 := by decide

/-! ### CRYPTBLOCK (95_test_vectors.md V1, V3) -/

/-- The forward schedule of V1, for `rounds = 10`. -/
def scheduleV1 : List Byte := bytesOfWords (expandedWords 128
  (hexBytes 16 0x000102030405060708090a0b0c0d0e0f))

theorem test_expand128_last_key :
    blockOfBytes scheduleV1 10 = hexBlock 0x13111d7fe3944a17f307a78b4d2b30c5 := by decide +kernel

/-- V1: the output of CRYPTBLOCK.ENC 10. -/
theorem test_enc :
    encryptBlock 10 (fun r => blockOfBytes scheduleV1 r) (hexBlock 0x00112233445566778899aabbccddeeff)
      = hexBlock 0x69c4e0d86a7b0430d8cdb78070b4c55a := by decide +kernel

/-- V3: decryption with the derived schedule. -/
theorem test_dec :
    decryptBlock 10 (decryptionKey 10 fun r => blockOfBytes scheduleV1 r)
      (hexBlock 0x69c4e0d86a7b0430d8cdb78070b4c55a)
      = hexBlock 0x00112233445566778899aabbccddeeff := by decide +kernel

/-! ### EXPANDKEY (95_test_vectors.md V6, V7, V8) -/

theorem test_expand192_last_key :
    blockOfBytes (bytesOfWords (expandedWords 192
      (hexBytes 24 0x8e73b0f7da0e6452c810f32b809079e562f8ead2522c6b7b))) 12
      = hexBlock 0xe98ba06f448c773c8ecc720401002202 := by decide +kernel
theorem test_expand256_last_key :
    blockOfBytes (bytesOfWords (expandedWords 256 (hexBytes 32
      0x603deb1015ca71be2b73aef0857d77811f352c073b6108d72d9810a30914dff4))) 14
      = hexBlock 0xfe4890d1e6188d0b046df344706c631e := by decide +kernel
theorem test_expandkey_100 :
    statusAfter 0x00006403 (engine true false 0 0 0) = 0x00000010 ∧
    statusAfter 0x00006403 (engine false false 0 0 0) = 0x00002100 := by decide

/-! ### DERIVEDEC (95_test_vectors.md V5) -/

/-- V5 and V17 (d): key 9 of V1's schedule, alone among zeros, and DERIVEDEC in place: position 1 is its
inverse column mix. -/
theorem test_derivedec_in_place :
    blockAt (after (before (.writeCmd 0x00000A04) (holding (engine true true 0x1100 0x1100 0)
      0x1190 16 0x549932d1f08557681093ed9cbe2c974e))).mem 0x1110
      = hexBlock 0x13aa29be9c8faff6f770f58000f7bf03 := by decide +kernel

/-! ### GFMUL (95_test_vectors.md V2, V14) -/

/-- V2, in place over `b` (PG2). -/
theorem test_gfmul_in_place :
    blockAt (after (before (.writeCmd 0x00000005) (holding (holding
      (engine false true 0x1000 0x1010 0x1010) 0x1000 16 0x66e94bd4ef8a2c3b884cfa59ca342b2e)
      0x1010 16 0x0388dace60b6a392f328c2b971b2fe78))).mem 0x1010
      = hexBlock 0x5e2ec746917062882c85b0685353deb7 := by decide +kernel
/-- V14: the deepest reduction. -/
theorem test_gfProduct_deep : gfProduct (hexBlock 1) (hexBlock 1)
    = hexBlock 0xe6080000000000000000000000000003 := by decide +kernel

/-! ### Checks and faults (95_test_vectors.md V16, PG4) -/

theorem test_capability_before_rounds :
    statusAfter 0x00000B02 (engine false true 0x1000 0x1100 0x1200) = 0x00002100 := by decide
theorem test_rounds_before_addresses :
    statusAfter 0x00000B02 (engine true true 0 0 0) = 0x00003100 := by decide
theorem test_last_schedule_byte_missing :
    statusAfter 0x00000A02 (engine true true 0x2F51 0x1100 0x1200) = 0x00004100 := by decide +kernel
theorem test_last_schedule_byte_present :
    statusAfter 0x00000A02 (engine true true 0x2F50 0x1100 0x1200) = 0x00000000 := by decide +kernel
theorem test_expandkey_192_needs_216 :
    statusAfter 0x0000C003 (engine true true 0x1000 0x2F29 0) = 0x00004100 := by decide +kernel
theorem test_expandkey_192_has_216 :
    statusAfter 0x0000C003 (engine true true 0x1000 0x2F28 0) = 0x00000000 := by decide +kernel
theorem test_derivedec_writes_240 :
    statusAfter 0x00000E04 (engine true true 0x1000 0x2F10 0) = 0x00000000 := by decide +kernel
theorem test_region_past_the_top :
    statusAfter 0x00000005 (engine true true 0xFFFFFFFFFFFFFFF8 0x1000 0x1000) = 0x00004100 := by
  decide +kernel
theorem test_illegal_word :
    statusAfter 0x00000A22 (engine true true 0x1000 0x1100 0x1200) = 0x00001100 := by decide
/-- PG4: a faulted engine refuses; reset brings it back. -/
theorem test_refused_until_reset :
    statusAfter 0x00000101 faultedEngine = 0x00004100 ∧
    statusWord (after (before .reset faultedEngine)).status = 0 := by decide

/-! ### The host's moves (10_state.md R21, 70_reset_and_hazards.md R209) -/

theorem test_host_reads_status :
    (after (before (.readReg .status) faultedEngine)).answer = some (.reg 0x4100) := by decide
theorem test_host_load_after_store :
    (after (before (.load 0x1001 2) (after (before (.store 0x1000 [1, 2, 3])
      (engine true true 0 0 0))))).answer = some (.bytes [2, 3]) := by decide
theorem test_host_load_outside :
    step (before (.load 0x2FFF 2) (engine true true 0 0 0)) = .fault (.hostAddressAbsent 0x2FFF 2) := by
  rfl
theorem test_register_block : regAtAddress 0x4000 0x4010 = some (.ptr .p1) ∧
    regAtAddress 0x4000 0x4004 = some .status ∧ regAtAddress 0x4000 0x400C = none := by decide

/-! ### Witnesses for the hypotheses of the statements -/

theorem valid_of_span {s : State} {r : PtrReg} {n : Nat}
    (h : spanValid s.platform (effAddr s r 0) n = true) : ValidAt s r n :=
  spanValid_iff.mp h

theorem missing_of_span {s : State} {r : PtrReg} {n : Nat}
    (h : spanValid s.platform (effAddr s r 0) n = false) : ¬ ValidAt s r n := fun hv => by
  rw [spanValid_iff.mpr hv] at h
  cases h

/-- DecodeAndEncodeAgree, OpcodeMapIsComplete: well-formed commands at both ends of the immediate, and a
word of a command. -/
theorem witness_decodeAndEncode :
    (Instr.cryptblockEnc 0).wellFormed = true ∧ (Instr.cryptblockEnc 65535).wellFormed = true ∧
    decode 0x00FFFF12 = .command (.cryptblockDec 65535) := by decide

/-- IllegalWordsFault, ChecksComeInOrder: an illegal word before an engine that is not faulted. -/
theorem witness_illegalWord : decode 0x00000000 = .illegal .opcode ∧
    (before (.writeCmd 0) State.reset).status.fault = false ∧
    (before (.writeCmd 0) State.reset).moves = [.writeCmd 0x00000000] := by decide

/-- StepRunsTheDecodedCommand: a legal word before an engine. -/
theorem witness_stepRuns : decode 0x00000005 = .command .gfmul ∧
    (before (.writeCmd 5) State.reset).moves = .writeCmd 0x00000005 :: [] := by decide

/-- HassupportAnswersFromTheCache, HassupportIsDeterministic: engines with an empty and with a valid
cache, and a faulted one. -/
theorem witness_hassupport :
    CacheCorrect State.reset ∧ State.reset.status.fault = false ∧
    (probeCapabilities State.reset).capv = true ∧ CacheCorrect (probeCapabilities State.reset) ∧
    (probeCapabilities State.reset).status.fault = false ∧ faultedEngine.status.fault = true := by
  decide

/-- CacheIsWrittenOnce: a command and a move on a valid cache, another command on an empty one, the first
query. -/
theorem witness_cacheWrittenOnce :
    (∃ t, exec (.hassupport 3) (probeCapabilities State.reset) = .next t) ∧
    (probeCapabilities State.reset).capv = true ∧
    (∃ t, exec .gfmul State.reset = .next t) ∧ State.reset.capv = false ∧
    (∀ mask, Instr.gfmul ≠ .hassupport mask) ∧
    (HostMove.setP .p0 1 ≠ .reset) ∧
    (∃ t, step (before (.setP .p0 1) (probeCapabilities State.reset)) = .next t) ∧
    State.reset.status.fault = false :=
  ⟨⟨_, rfl⟩, rfl, ⟨_, rfl⟩, rfl, fun _ h => (by cases h), by decide, ⟨_, rfl⟩, rfl⟩

/-- EncryptionWritesTheCipherBlock, DecryptionWritesThePlainBlock: every legal `rounds` at the last
schedule address that exists. -/
theorem witness_cryptblock :
    ∀ q ∈ [(10, 0x2F50), (12, 0x2F30), (14, 0x2F10)],
      let s := engine true true (BitVec.ofNat 64 q.2) 0x2FF0 0x2FF0
      s.status.fault = false ∧ s.platform.hwAes = true ∧
      spanValid s.platform (effAddr s .p0 0) (16 * (q.1 + 1)) = true ∧
      spanValid s.platform (effAddr s .p1 0) 16 = true ∧
      spanValid s.platform (effAddr s .p2 0) 16 = true := by decide +kernel

/-- The same statements' checks: no capability, a `rounds` beside a legal one, a missing last byte. -/
theorem witness_cryptblock_checks :
    (engine false true 0 0 0).platform.hwAes = false ∧ ¬ (11 = 10 ∨ 11 = 12 ∨ 11 = 14) ∧
    ¬ ValidAt (engine true true 0x2F51 0x1100 0x1200) .p0 (16 * (10 + 1)) ∧
    ¬ ValidAt (engine true true 0x1000 0x1100 0x2FF1) .p2 16 ∧ faultedEngine.status.fault = true :=
  ⟨rfl, by decide, missing_of_span (by decide +kernel), missing_of_span (by decide +kernel), rfl⟩

/-- The statements of the six commands, their words: one of each row, with the largest immediate. -/
theorem witness_rowWords :
    0x00000301#32 &&& 0xFFFFFCFF#32 = 0x00000001#32 ∧ 0x00FFFF02#32 &&& 0xFF0000FF#32 = 0x00000002#32 ∧
    0x00FFFF12#32 &&& 0xFF0000FF#32 = 0x00000012#32 ∧ 0x00FFFF03#32 &&& 0xFF0000FF#32 = 0x00000003#32 ∧
    0x00FFFF04#32 &&& 0xFF0000FF#32 = 0x00000004#32 ∧ 0x00000005#32 &&& 0xFFFFFFFF#32 = 0x00000005#32 := by
  decide

/-- EquivalentInverseCipher, DecryptionUndoesEncryption: their bound at its lowest and at a legal count. -/
theorem witness_roundCounts : 1 ≤ 1 ∧ 1 ≤ 14 := by decide

/-- Before EXPANDKEY of the round trip, on memory of zeros. -/
def rtKey : State := engine true true 0x1000 0x1100 0

/-- Before CRYPTBLOCK.ENC and before DERIVEDEC, both after EXPANDKEY. -/
def rtEnc (bits : Nat) : State :=
  { after (before (.writeCmd (encode (.expandkey bits))) rtKey) with p0 := 0x1100, p1 := 0x1400, p2 := 0x1410 }
def rtDerive (bits : Nat) : State :=
  { after (before (.writeCmd (encode (.expandkey bits))) rtKey) with p0 := 0x1100, p1 := 0x1200 }

/-- Before CRYPTBLOCK.DEC: after DERIVEDEC, the host having stored the ciphertext. -/
def rtDec (bits rounds : Nat) : State :=
  storeBytes 0x1410
    (bytesOfBlock (blockAt (after (before (.writeCmd (encode (.cryptblockEnc rounds))) (rtEnc bits))).mem 0x1410))
    { after (before (.writeCmd (encode (.derivedec rounds))) (rtDerive bits)) with
      p0 := 0x1200, p1 := 0x1410, p2 := 0x1420 }

/-- RoundTripOverCommands, EquivalentInverseCipher: four states in which the four commands run, for each
size. -/
theorem witness_roundTrip :
    ∀ rounds ∈ [10, 12, 14],
      precheck (.expandkey (bitsOfRounds rounds)) rtKey = .runs ∧
      precheck (.cryptblockEnc rounds) (rtEnc (bitsOfRounds rounds)) = .runs ∧
      precheck (.derivedec rounds) (rtDerive (bitsOfRounds rounds)) = .runs ∧
      precheck (.cryptblockDec rounds) (rtDec (bitsOfRounds rounds) rounds) = .runs := by
  decide +kernel

/-- Their premises about memory: the states before CRYPTBLOCK.ENC and DERIVEDEC hold the schedule that
EXPANDKEY left. -/
theorem witness_roundTrip_forward (bits r : Nat) :
    blockAt (rtEnc bits).mem (effAddr (rtEnc bits) .p0 (16 * r)) =
      blockAt (after (before (.writeCmd (encode (.expandkey bits))) rtKey)).mem (effAddr rtKey .p1 (16 * r)) ∧
    blockAt (rtDerive bits).mem (effAddr (rtDerive bits) .p0 (16 * r)) =
      blockAt (after (before (.writeCmd (encode (.expandkey bits))) rtKey)).mem
        (effAddr rtKey .p1 (16 * r)) :=
  ⟨rfl, rfl⟩

/-- The state before CRYPTBLOCK.DEC holds the schedule that DERIVEDEC left and the ciphertext. -/
theorem witness_roundTrip_inverse (bits rounds r : Nat) (hr : r ≤ 14) :
    blockAt (rtDec bits rounds).mem (effAddr (rtDec bits rounds) .p0 (16 * r)) =
      blockAt (after (before (.writeCmd (encode (.derivedec rounds))) (rtDerive bits))).mem
        (effAddr (rtDerive bits) .p1 (16 * r)) ∧
    blockAt (rtDec bits rounds).mem (effAddr (rtDec bits rounds) .p1 0) =
      blockAt (after (before (.writeCmd (encode (.cryptblockEnc rounds))) (rtEnc bits))).mem
        (effAddr (rtEnc bits) .p2 0) := by
  have h0 : effAddr (rtDec bits rounds) .p0 (16 * r) = 0x1200 + 16 * r := rfl
  have h1 : effAddr (rtDerive bits) .p1 (16 * r) = 0x1200 + 16 * r := rfl
  refine ⟨?_, readBlock_memWrite_self _ _ _⟩
  rw [h0, h1]
  exact readBlock_congr fun i hi => memGet_memWrite_outside _ _ (.inl (by omega))

/-- KeyExpansionFollowsFips197: each size at the last addresses at which its buffers exist. -/
theorem witness_expandkey :
    ∀ q ∈ [(128, 0x2FF0, 176, 0x2F50), (192, 0x2FE8, 216, 0x2F28), (256, 0x2FE0, 256, 0x2F00)],
      let s := engine true true (BitVec.ofNat 64 q.2.1) (BitVec.ofNat 64 q.2.2.2) 0
      s.status.fault = false ∧ s.platform.hwAes = true ∧
      spanValid s.platform (effAddr s .p0 0) (q.1 / 8) = true ∧
      spanValid s.platform (effAddr s .p1 0) q.2.2.1 = true := by decide +kernel

/-- KeyExpansionFollowsFips197, InvalidKeyLengthTouchesNothing: its other ends. -/
theorem witness_expandkey_checks :
    (engine false true 0 0 0).platform.hwAes = false ∧ (engine true false 0 0 0).platform.hwAes = true ∧
    127 ∉ [128, 192, 256] ∧ 129 ∉ [128, 192, 256] ∧
    ¬ ValidAt (engine true true 0x1000 0x2F29 0) .p1 216 ∧ faultedEngine.status.fault = true :=
  ⟨rfl, rfl, by decide, by decide, missing_of_span (by decide +kernel), rfl⟩

/-- VariantsEqualTheRecurrence: keys of the three lengths, and a different one. -/
theorem witness_variants : (hexBytes 16 0).length = 128 / 8 ∧ (hexBytes 24 0).length = 192 / 8 ∧
    (hexBytes 32 0).length = 256 / 8 ∧ hexBytes 16 1 ≠ hexBytes 16 0 := by decide

/-- DerivationWritesTheInverseSchedule: each legal `rounds` at the last output address that exists. -/
theorem witness_derivedec :
    ∀ q ∈ [(10, 0x2F50), (12, 0x2F30), (14, 0x2F10)],
      let s := engine true true 0x1000 (BitVec.ofNat 64 q.2) 0
      s.status.fault = false ∧ s.platform.hwAes = true ∧
      spanValid s.platform (effAddr s .p0 0) (16 * (q.1 + 1)) = true ∧
      spanValid s.platform (effAddr s .p1 0) (16 * (q.1 + 1)) = true := by decide +kernel

theorem witness_derivedec_checks :
    ¬ (0 = 10 ∨ 0 = 12 ∨ 0 = 14) ∧ ¬ ValidAt (engine true true 0x1000 0x2F11 0) .p1 (16 * (14 + 1)) :=
  ⟨by decide, missing_of_span (by decide +kernel)⟩

/-- GfmulWritesTheProduct: an engine without AES at the last addresses that exist, one without the
multiply, one whose region passes the top. -/
theorem witness_gfmul :
    let s := engine false true 0x2FF0 0x2FF0 0x2FF0
    s.status.fault = false ∧ s.platform.hwClmul = true ∧ ValidAt s .p0 16 ∧ ValidAt s .p1 16 ∧
      ValidAt s .p2 16 ∧ (engine true false 0 0 0).platform.hwClmul = false ∧
      ¬ ValidAt (engine true true 0xFFFFFFFFFFFFFFF8 0x1000 0x1000) .p0 16 :=
  ⟨rfl, rfl, valid_of_span (by decide), valid_of_span (by decide), valid_of_span (by decide), rfl,
    missing_of_span (by decide)⟩

/-- ChecksComeInOrder, its last clause: a command of each address shape that passes the earlier checks and
that only a missing byte stops, and one that none stops. -/
theorem witness_addressFault :
    (∀ i ∈ [Instr.cryptblockEnc 10, .cryptblockDec 10, .expandkey 128, .derivedec 10, .gfmul],
      capabilityPresent i (engine true true 0 0 0).platform = true ∧ bitsAccepted i = true ∧
      roundsAccepted i = true ∧
      precheck i (engine true true 0 0 0) = .fault .addressFault ∧
      precheck i (engine true true 0x1000 0x1100 0x1200) = .runs) ∧
    (∃ r ∈ readSpans .gfmul (engine true true 0 0 0),
      ∃ k < r.len, memValid (engine true true 0 0 0).platform (r.addr + k) = false) :=
  ⟨by decide +kernel, ⟨0, 16⟩, by decide, 0, by decide, by decide⟩

/-- CommandsWriteStatusAsListed, CommandsChangeOnlyTheirFootprint: one command for each verdict. -/
theorem witness_verdicts :
    precheck .gfmul (engine true true 0x1000 0x1000 0x1000) = .runs ∧
    precheck (.expandkey 100) (engine true true 0 0 0) = .error .invalidKeyLength ∧
    precheck .gfmul (engine true false 0 0 0) = .fault .capabilityAbsent ∧
    precheck .gfmul faultedEngine = .refused ∧
    (∃ t, exec .gfmul (engine true true 0x1000 0x1000 0x1000) = .next t) :=
  ⟨by decide, by decide, by decide, by decide, ⟨_, rfl⟩⟩

/-- FaultIsStickyUntilReset, ResetMoveRestoresTheEngine, CommandsWriteStatusAsListed: a faulted engine
before a command, before each other move and before `RESET`. -/
theorem witness_faultSticky :
    faultedEngine.status.fault = true ∧
    (∃ t, step (before (.readReg .status) faultedEngine) = .next t) ∧
    (∃ t, step (before (.load 0x1000 2) faultedEngine) = .next t) ∧
    (∃ t, step (before (.store 0x1000 [1]) faultedEngine) = .next t) ∧
    (∃ t, step (before (.writeCmd 0x00000101) faultedEngine) = .next t) ∧
    (∃ t, step (before (.setP .p1 7) faultedEngine) = .next t) ∧
    (∃ t, step (before .reset faultedEngine) = .next t) :=
  ⟨rfl, ⟨_, rfl⟩, ⟨_, rfl⟩, ⟨_, rfl⟩, ⟨_, rfl⟩, ⟨_, rfl⟩, ⟨_, rfl⟩⟩

/-- ResetMoveRestoresTheEngine, StatusWordLayout, HostMovesDoWhatIsListed: the moves before an engine, a
load and a store that end at the last byte that exists, and one past it. -/
theorem witness_hostMoves :
    (before .reset faultedEngine).moves = .reset :: [] ∧
    (before (.readReg .status) faultedEngine).moves = .readReg .status :: [] ∧
    (before (.load 0x2FFE 2) faultedEngine).moves = .load 0x2FFE 2 :: [] ∧
    spanValid faultedEngine.platform (0x2FFE : Addr).toNat 2 = true ∧
    spanValid faultedEngine.platform (0x2FFF : Addr).toNat 2 = false ∧ State.reset.moves = [] := by
  decide

/-- RegisterBlockOffsets: an address that is no register's. -/
theorem witness_noRegister : ∀ off ∈ [0x00, 0x04, 0x08, 0x10, 0x18], 0x20 ≠ 0 + off := by decide

/-- StepKeepsTheInvariant, InvariantHoldsAfterReset, PlatformNeverChanges: a state after reset with bytes
in memory, and one with a valid cache, before a step that is a next state. -/
theorem witness_invariant :
    AfterReset (holding (engine true true 0 0 0) 0x1000 4 0xdeadbeef) ∧
    EngineInv (probeCapabilities (holding (engine true true 0 0 0) 0x1000 4 0xdeadbeef)) ∧
    (∃ t, step (before (.writeCmd 5) (engine true true 0x1000 0x1000 0x1000)) = .next t) ∧
    EngineInv (before (.writeCmd 5) (engine true true 0x1000 0x1000 0x1000)) :=
  ⟨by decide, by decide, ⟨_, rfl⟩, by decide⟩

/-- StatusIsIndependentOfMemory, AddressesAreIndependentOfData: two engines that differ in memory; a
command that completes on both. -/
theorem witness_twoMemories :
    let s := engine true true 0x1000 0x1000 0x1000
    let u := holding s 0x1000 4 0xdeadbeef
    u.p0 = s.p0 ∧ u.p1 = s.p1 ∧ u.p2 = s.p2 ∧ u.platform = s.platform ∧ u.status = s.status ∧
      CacheCorrect s ∧ CacheCorrect u ∧ u.mem ≠ s.mem ∧
      (after (before (.writeCmd 0x00000005) s)).status.fault = false ∧
      (after (before (.writeCmd 0x00000005) u)).status.fault = false := by decide +kernel

/-- ResultsDependOnlyOnBytesRead: memories that differ only outside the bytes GFMUL reads. -/
theorem witness_sameBytesRead :
    let s := engine true true 0x1000 0x1010 0x1020
    let m := (holding s 0x2000 4 0xdeadbeef).mem
    precheck .gfmul s = .runs ∧ m ≠ s.mem ∧
      (∀ r ∈ readSpans .gfmul s, ∀ k ∈ List.range r.len, memGet m (r.addr + k) = memGet s.mem (r.addr + k)) ∧
      (∃ t, exec .gfmul s = .next t) ∧ (∃ u, exec .gfmul { s with mem := m } = .next u) :=
  ⟨by decide, by decide, by decide, ⟨_, rfl⟩, ⟨_, rfl⟩⟩

/-- CommandsAreIdempotent: footprints that do not meet, for every command but HASSUPPORT, also just
touching. -/
theorem witness_idempotent :
    ∀ i ∈ [Instr.cryptblockEnc 10, .cryptblockDec 14, .expandkey 192, .derivedec 12, .gfmul],
      let s := engine true true 0x1020 (match i with | .expandkey _ => 0x1038 | _ => 0x1110) 0x1010
      (∀ r ∈ readSpans i s, ∀ q ∈ writeSpans i s,
        r.addr + r.len ≤ q.addr ∨ q.addr + q.len ≤ r.addr) := by decide

/-- AccessesAreTheFootprint: one command of each shape that runs. -/
theorem witness_accesses :
    ∀ i ∈ [Instr.hassupport 1, .cryptblockEnc 10, .cryptblockDec 12, .expandkey 256, .derivedec 14,
      .gfmul], precheck i (engine true true 0x1000 0x1200 0x1400) = .runs := by decide +kernel

/-- ByteConversionsAgree: its indices at both ends. -/
theorem witness_conversionIndices : (0 : Nat) < 16 ∧ 15 < 16 ∧ 3 < 4 ∧ 31 < 32 ∧ 1 < 2 ∧ 63 < 64 := by decide

/-- WhatTheHostLearnsStaysTrue: after HASSUPPORT 1 and a read of `STATUS` the host has learnt of AES, and
a step from there is a next state. -/
theorem witness_hostView :
    let s := after (before (.writeCmd 0x00000101) (engine true false 0x1000 0x1100 0x1100))
    let t := after (before (.readReg .status) s)
    let v := (HostView.none.after (.writeCmd 0x00000101) State.reset).after (.readReg .status) s
    v = ⟨some 1, true, false⟩ ∧ CacheCorrect t ∧ t.status.fault = false ∧
      t.status.result = anyCapability (capabilityBits t.platform) 1 ∧ t.platform.hwAes = true ∧
      (∃ u, makeMove (.writeCmd 0x00008003) t = .next u) :=
  ⟨by decide, by decide, by decide, by decide, by decide, ⟨_, rfl⟩⟩

/-- HostStartsWithoutAnswers: a state after reset, moves without a read of `STATUS`, an unread HASSUPPORT
among them, and words that are no HASSUPPORT, one of them illegal. -/
theorem witness_firstCommand : AfterReset (engine true true 0 0 0) ∧
    (∀ a ∈ [HostMove.writeCmd 0x00000101, .setP .p0 0x1000, .readReg .cmd, .reset].map
      fun m => HostAct.mk m ⟨⟨0, 0⟩, ⟨0, 0⟩, ⟨0, 0⟩⟩, a.move ≠ .readReg .status) ∧
    decode 0x00008003 = .command (.expandkey 128) ∧ decode 0x00000000 = .illegal .opcode := by decide

/-- OwnBuffersKeepOtherData: EXPANDKEY 192 on a buffer of exactly the 216 bytes that it writes keeps the
duty, on one of the 208 bytes of the schedule it does not (70_reset_and_hazards.md R213, R218). -/
theorem witness_bufferDuty :
    let s := engine true true 0x1000 0x1100 0
    BufferDuty (.expandkey 192) ⟨⟨0x1000, 24⟩, ⟨0x1100, 216⟩, ⟨0, 0⟩⟩ s ∧
    ¬ BufferDuty (.expandkey 192) ⟨⟨0x1000, 24⟩, ⟨0x1100, 208⟩, ⟨0, 0⟩⟩ s ∧
    (∃ t, exec (.expandkey 192) s = .next t) :=
  ⟨fun r => by cases r <;> decide, fun h => absurd (h .p1) (by decide), ⟨_, rfl⟩⟩

/-- The moves of a good run (70_reset_and_hazards.md R223): ask for AES, read the answer, expand a key of
zeros, encrypt a block of zeros in place. -/
def goodMoves : List HostMove :=
  [.writeCmd 0x00000101, .readReg .status, .setP .p0 0x1000, .setP .p1 0x1100, .writeCmd 0x00008003,
    .setP .p0 0x1100, .setP .p1 0x1400, .setP .p2 0x1400, .writeCmd 0x00000A02, .readReg .status]

/-- The buffers of that run: the key and the schedule at EXPANDKEY, the schedule and the block after it. -/
def goodBuffers (m : HostMove) : HostBuffers :=
  if m = .writeCmd 0x00008003 then ⟨⟨0x1000, 16⟩, ⟨0x1100, 176⟩, ⟨0, 0⟩⟩
  else ⟨⟨0x1100, 176⟩, ⟨0x1400, 16⟩, ⟨0x1400, 16⟩⟩

/-- The run: its moves with their buffers. -/
def goodActs : List HostAct := goodMoves.map fun m => ⟨m, goodBuffers m⟩

/-- The state after the first `n` of them. -/
def goodState (n : Nat) : State :=
  (goodMoves.take n).foldl (fun s m => after (before m s)) (engine true true 0 0 0)

/-- A step is a next state. -/
def goesOn (m : HostMove) (s : State) : Bool :=
  match step (before m s) with
  | .next _ => true
  | .fault _ => false
  | .refused _ => false

theorem makeMove_of_goesOn {m : HostMove} {s : State} (h : goesOn m s = true) :
    makeMove m s = .next (after (before m s)) := by
  simp only [goesOn, after, makeMove, before] at h ⊢
  split at h
  · rename_i t ht
    simp only [ht]
  all_goals cases h

/-- A good run, move by move. -/
theorem goodFrom_cons {m : HostMove} {b : HostBuffers} {rest : List HostAct} {v : HostView} {s : State}
    (hf : NotFaulted s) (hm : goesOn m s = true) (hd : DutifulMove m b v s)
    (h : GoodFrom rest (v.after m s) (after (before m s))) : GoodFrom (⟨m, b⟩ :: rest) v s :=
  ⟨hf, hd, _, makeMove_of_goesOn hm, h⟩

/-- The duty on the schedule at CRYPTBLOCK.ENC of that run: it is the forward schedule of the key. -/
theorem goodRun_schedule : HoldsForwardSchedule 10 (goodState 8) :=
  ⟨List.replicate 16 0, by decide, by decide +kernel⟩

/-- What the host has learnt when it issues EXPANDKEY. -/
theorem goodRun_learns : ((HostView.none.after (.writeCmd 0x00000101) (goodState 0)).after
    (.readReg .status) (goodState 1)) = ⟨some 1, true, false⟩ := by decide

/-- GoodRun: a good run exists. -/
theorem witness_goodRun : GoodRun goodActs (goodState 0) := by
  refine ⟨by decide, ?_⟩
  rw [goodActs, goodMoves]
  simp only [List.map_cons, List.map_nil]
  refine goodFrom_cons (by decide) (by decide) ⟨_, rfl, trivial, fun r => by cases r <;> decide, trivial⟩ ?_
  refine goodFrom_cons (by decide) (by decide) trivial ?_
  rw [show after (before (.writeCmd 0x00000101) (goodState 0)) = goodState 1 from rfl, goodRun_learns]
  refine goodFrom_cons (by decide) (by decide) trivial ?_
  refine goodFrom_cons (by decide) (by decide) trivial ?_
  refine goodFrom_cons (by decide +kernel) (by decide +kernel) ⟨_, rfl, rfl, fun r => by cases r <;> decide +kernel, trivial⟩ ?_
  refine goodFrom_cons (by decide +kernel) (by decide +kernel) trivial ?_
  refine goodFrom_cons (by decide +kernel) (by decide +kernel) trivial ?_
  refine goodFrom_cons (by decide +kernel) (by decide +kernel) trivial ?_
  refine goodFrom_cons (by decide +kernel) (by decide +kernel) ⟨_, rfl, rfl, fun r => by cases r <;> decide +kernel, goodRun_schedule⟩ ?_
  refine goodFrom_cons (by decide +kernel) (by decide +kernel) trivial ?_
  show (_ : State).status.fault = false
  decide +kernel

/-- WireFormatIsBitReflected: both ends of its range. -/
theorem witness_coefficients : (0 : Nat) < 128 ∧ (127 : Nat) < 128 := by decide

/-- RoundConstantsDouble: the lowest step. -/
theorem witness_roundConstants : (1 : Nat) ≤ 1 := by decide

/-- DerivationIsBijectiveNotInvolutive: schedules that derive to the same keys, and an interior index. -/
theorem witness_derivation :
    (∀ i ≤ 10, decryptionKey 10 (fun _ => zeroBlock) i = decryptionKey 10 (fun _ => zeroBlock) i) ∧
    (1 : Nat) ≤ 10 ∧ (0 : Nat) < 9 ∧ (9 : Nat) < 10 := ⟨fun _ _ => rfl, by decide, by decide, by decide⟩

/-- MemoryIsPlain: a canonical memory, and regions on both sides of the bytes written. -/
theorem witness_memoryIsPlain :
    Memory.wf [(0x1000, 0x01#8), (0x1003, 0x02#8)] ∧ 0x0FFE + 2 ≤ 0x1000 ∧
      0x1000 + [0x01#8, 0x00#8].length ≤ 0x1002 := by decide

end Sys2Proof.Tests
end

section
/-! PROOFS. Byte orders of a block (00_scope.md R12): its two integer forms as numbers, their inverses, the
byte reversal between them, the lanes of a 128-bit value. -/

namespace Sys2Proof.Machine

/-- Four fields of `n` bits, or-ed at their places, are the digits of a number in base `2^n`. -/
theorem toNat_or_fields (n : Nat) (a b c d : BitVec n) :
    ((a.setWidth (4 * n) <<< (3 * n)) ||| (b.setWidth (4 * n) <<< (2 * n))
      ||| (c.setWidth (4 * n) <<< n) ||| d.setWidth (4 * n)).toNat
      = ((a.toNat * 2 ^ n + b.toNat) * 2 ^ n + c.toNat) * 2 ^ n + d.toNat := by
  have place (x : BitVec n) (k : Nat) (hk : n + k ≤ 4 * n) :
      (x.setWidth (4 * n) <<< k).toNat = x.toNat <<< k := by
    have hx : x.toNat < 2 ^ (4 * n) := x.isLt.trans_le (Nat.pow_le_pow_right two_pos (by omega))
    have hshift : x.toNat <<< k < 2 ^ (4 * n) := calc
      x.toNat <<< k < 2 ^ (n + k) := by
        rw [Nat.shiftLeft_eq, Nat.pow_add]
        exact Nat.mul_lt_mul_of_pos_right x.isLt (Nat.two_pow_pos k)
      _ ≤ 2 ^ (4 * n) := Nat.pow_le_pow_right two_pos hk
    rw [BitVec.toNat_shiftLeft, BitVec.toNat_setWidth, Nat.mod_eq_of_lt hx, Nat.mod_eq_of_lt hshift]
  have horner : a.toNat <<< (3 * n) ||| b.toNat <<< (2 * n) ||| c.toNat <<< n ||| d.toNat
      = ((a.toNat <<< n ||| b.toNat) <<< n ||| c.toNat) <<< n ||| d.toNat := by
    simp only [Nat.shiftLeft_or_distrib, ← Nat.shiftLeft_add, Nat.succ_mul, Nat.zero_mul, Nat.zero_add,
      Nat.add_assoc]
  have hd := place d 0 (by omega)
  rw [BitVec.shiftLeft_zero, Nat.shiftLeft_zero] at hd
  rw [BitVec.toNat_or, BitVec.toNat_or, BitVec.toNat_or, place a _ (by omega), place b _ (by omega),
    place c _ (by omega), hd, horner, ← Nat.shiftLeft_add_eq_or_of_lt b.isLt,
    ← Nat.shiftLeft_add_eq_or_of_lt c.isLt, ← Nat.shiftLeft_add_eq_or_of_lt d.isLt]
  simp only [Nat.shiftLeft_eq]

theorem be32_toNat (w : Word32) : (be32 w).toNat =
    ((w.b0.toNat * 2 ^ 8 + w.b1.toNat) * 2 ^ 8 + w.b2.toNat) * 2 ^ 8 + w.b3.toNat :=
  toNat_or_fields 8 _ _ _ _

theorem be128_toNat (b : Block) : (be128 b).toNat =
    (((be32 b.w0).toNat * 2 ^ 32 + (be32 b.w1).toNat) * 2 ^ 32 + (be32 b.w2).toNat) * 2 ^ 32
      + (be32 b.w3).toNat :=
  toNat_or_fields 32 _ _ _ _

/-- Loading a stored 128-bit value gives the value back. -/
@[simp] theorem be128_blockBe (v : BitVec 128) : be128 (blockBe v) = v := by
  apply BitVec.eq_of_toNat_eq
  simp only [be128_toNat, blockBe, be32_wordBe, BitVec.extractLsb'_toNat, Nat.shiftRight_eq_div_pow]
  omega

theorem be32_injective : Function.Injective be32 := Function.LeftInverse.injective wordBe_be32

/-- The base-`2^32` digits of a number are unique. -/
theorem be128_injective : Function.Injective be128 := by
  intro x y h
  have hnat := congrArg BitVec.toNat h
  rw [be128_toNat, be128_toNat] at hnat
  ext1 <;> apply be32_injective <;> apply BitVec.eq_of_toNat_eq <;> omega

/-- Storing a block's integer form gives the block back. -/
@[simp] theorem blockBe_be128 (b : Block) : blockBe (be128 b) = b := be128_injective (be128_blockBe _)

theorem le128_eq_be128_rev16 (b : Block) : le128 b = be128 (rev16 b) := rfl

theorem blockLe_eq_rev16_blockBe (v : BitVec 128) : blockLe v = rev16 (blockBe v) := rfl

@[simp] theorem rev16_rev16 (b : Block) : rev16 (rev16 b) = b := rfl

theorem bytesOfBlock_eq (b : Block) : bytesOfBlock b =
    [b.w0.b0, b.w0.b1, b.w0.b2, b.w0.b3, b.w1.b0, b.w1.b1, b.w1.b2, b.w1.b3,
      b.w2.b0, b.w2.b1, b.w2.b2, b.w2.b3, b.w3.b0, b.w3.b1, b.w3.b2, b.w3.b3] := rfl

theorem bytesOfBlock_rev16 (b : Block) : bytesOfBlock (rev16 b) = (bytesOfBlock b).reverse := rfl

theorem bytesOfBlock_rev16_getD (b : Block) {i : Nat} (hi : i < 16) :
    (bytesOfBlock (rev16 b)).getD i 0 = (bytesOfBlock b).getD (15 - i) 0 := by
  rw [bytesOfBlock_rev16, List.getD_reverse i (by simpa using hi), bytesOfBlock_length]

@[simp] theorem blockLe_le128 (b : Block) : blockLe (le128 b) = b := by
  rw [le128_eq_be128_rev16, blockLe_eq_rev16_blockBe, blockBe_be128, rev16_rev16]

@[simp] theorem le128_blockLe (v : BitVec 128) : le128 (blockLe v) = v := by
  rw [le128_eq_be128_rev16, blockLe_eq_rev16_blockBe, rev16_rev16, be128_blockBe]

theorem be128_toNat_sum (b : Block) : (be128 b).toNat =
    ((List.range 16).map fun i => ((bytesOfBlock b).getD i 0).toNat * 2 ^ (8 * (15 - i))).sum := by
  simp only [be128_toNat, be32_toNat, List.sum_range_succ, List.range_zero, List.map_nil, List.sum_nil,
    bytesOfBlock_eq, List.getD_cons_zero, List.getD_cons_succ]
  ring

theorem le128_toNat_sum (b : Block) : (le128 b).toNat =
    ((List.range 16).map fun i => ((bytesOfBlock b).getD i 0).toNat * 2 ^ (8 * i)).sum := calc
  (le128 b).toNat = ((List.range 16).map fun i =>
      ((bytesOfBlock (rev16 b)).getD i 0).toNat * 2 ^ (8 * (15 - i))).sum := be128_toNat_sum (rev16 b)
  _ = ((List.range 16).map fun i =>
      ((bytesOfBlock b).getD (15 - i) 0).toNat * 2 ^ (8 * (15 - i))).sum := by
    refine congrArg List.sum (List.map_congr_left fun i hi => ?_)
    rw [bytesOfBlock_rev16_getD b (List.mem_range.1 hi)]
  _ = ((List.range 16).map fun i => ((bytesOfBlock b).getD i 0).toNat * 2 ^ (8 * i)).sum :=
    Finset.sum_range_reflect (fun i => ((bytesOfBlock b).getD i 0).toNat * 2 ^ (8 * i)) 16

theorem wordsOfBlock_getD (b : Block) {k : Nat} (hk : k < 4) :
    (wordsOfBlock b).getD k zeroWord = wordOfBytes (bytesOfBlock b) k := by
  interval_cases k <;> rfl

theorem dword_getLsbD (v : BitVec 128) (k : Nat) {j : Nat} (hj : j < 32) :
    (dword v k).getLsbD j = v.getLsbD (32 * k + j) := by
  simp [dword, hj]

theorem qword_getLsbD (v : BitVec 128) (k : Nat) {j : Nat} (hj : j < 64) :
    (qword v k).getLsbD j = v.getLsbD (64 * k + j) := by
  simp [qword, hj]

/-- Settles O54: both integer forms, their inverses and the byte reversal from the big-endian form's digits
(`be128_toNat`, `be128_blockBe`), the lanes bit by bit. -/
theorem byteConversionsAgree : Obligations.ByteConversionsAgree := by
  refine ⟨fun b => ⟨le128_toNat_sum b, be128_toNat_sum b, ?_, ?_, blockLe_le128 b, blockBe_be128 b, ?_⟩,
    fun v => ⟨le128_blockLe v, be128_blockBe v, ?_, ?_⟩⟩
  · exact fun i hi => bytesOfBlock_rev16_getD b hi
  · rw [le128_eq_be128_rev16, rev16_rev16]
  · exact fun k hk => wordsOfBlock_getD b hk
  · exact fun k _ j hj => dword_getLsbD v k hj
  · exact fun k _ j hj => qword_getLsbD v k hj

end Sys2Proof.Machine
end

section
/-! PROOFS. `STATUS` (10_state.md R24 to R27) and the hardware facts (R29): the bits of the status word, what
one move and one command can do, the verdict and `STATUS` as functions of pointers, platform and `STATUS`. -/

namespace Sys2Proof.Machine

open Sys2Proof.Safety

variable {i : Instr} {m : HostMove} {rest : List HostMove} {w : CmdWord} {s t u v : State} {c : FaultCause}

/-- Every bit of the register the host reads. -/
theorem statusWord_getLsbD (st : Status) (k : Nat) : (statusWord st).getLsbD k =
    if k = 0 then st.result else if 4 ≤ k ∧ k < 8 then (errCode st.err).getLsbD (k - 4)
    else if k = 8 then st.fault else if 12 ≤ k ∧ k < 16 then (faultCode st.fcode).getLsbD (k - 12)
    else false := by
  by_cases hk : k < 16
  · interval_cases k <;> simp [statusWord]
  · have above (n j : Nat) (x : BitVec n) (hj : n ≤ j) : x.getLsbD j = false := BitVec.getLsbD_of_ge x j hj
    simp only [statusWord, BitVec.getLsbD_or, BitVec.getLsbD_shiftLeft, BitVec.getLsbD_setWidth,
      above 1 k _ (by omega), above 1 (k - 8) _ (by omega), above 4 (k - 4) _ (by omega),
      above 4 (k - 12) _ (by omega)]
    simp [show k ≠ 0 by omega, show ¬ k < 8 by omega, show k ≠ 8 by omega, hk]

theorem statusWord_err (st : Status) : (statusWord st).extractLsb' 4 4 = errCode st.err := by
  ext j hj
  simp [statusWord_getLsbD, show 4 + j < 8 by omega, BitVec.getLsbD_eq_getElem hj]

theorem statusWord_fcode (st : Status) : (statusWord st).extractLsb' 12 4 = faultCode st.fcode := by
  ext j hj
  simp [statusWord_getLsbD, show ¬ 12 + j < 8 by omega, show 12 + j ≠ 8 by omega, show 12 + j < 16 by omega,
    BitVec.getLsbD_eq_getElem hj]

theorem statusWord_reserved (st : Status) {k : Nat} (hk : k ∉ [0, 4, 5, 6, 7, 8, 12, 13, 14, 15]) :
    (statusWord st).getLsbD k = false := by
  simp only [List.mem_cons, List.not_mem_nil, or_false] at hk
  rw [statusWord_getLsbD, if_neg (by omega), if_neg (by omega), if_neg (by omega), if_neg (by omega)]

/-- A step makes the host's oldest move (70_reset_and_hazards.md R209). -/
theorem step_of_moves (h : s.moves = m :: rest) : step s = performMove m (takeMove rest s) := by
  rw [step, runNextMove, h]

/-- With no move to make the engine is idle. -/
theorem step_of_no_moves (h : s.moves = []) : step s = .next s := by
  rw [step, runNextMove, h]

/-- Settles O38: the fields bit by bit (`statusWord_getLsbD`), the codes by evaluation, the read by
`step_of_moves`. -/
theorem statusWordLayout : Obligations.StatusWordLayout := by
  refine ⟨fun st => ⟨?_, statusWord_err st, ?_, statusWord_fcode st, fun k => statusWord_reserved st⟩,
    rfl, rfl, rfl, rfl, rfl, rfl, rfl, by decide, fun s rest h => ⟨(statusWord s.status).setWidth 64, ?_, ?_⟩⟩
  · rw [statusWord_getLsbD, if_pos rfl]
  · exact statusWord_getLsbD st 8
  · exact BitVec.setWidth_setWidth_of_le _ (by decide)
  · rw [step_of_moves h]
    rfl

@[simp] theorem statusComplete_result (st : Status) (r : Bool) (e : Option ErrKind) :
    (statusComplete st r e).result = r := rfl

@[simp] theorem statusComplete_err (st : Status) (r : Bool) (e : Option ErrKind) :
    (statusComplete st r e).err = e := rfl

@[simp] theorem statusComplete_fault (st : Status) (r : Bool) (e : Option ErrKind) :
    (statusComplete st r e).fault = st.fault := rfl

@[simp] theorem statusComplete_fcode (st : Status) (r : Bool) (e : Option ErrKind) :
    (statusComplete st r e).fcode = st.fcode := rfl

@[simp] theorem withFault_platform : (withFault c s).platform = s.platform := rfl

@[simp] theorem withFault_fault : (withFault c s).status.fault = true := rfl

@[simp] theorem withResult_platform (r : Bool) (e : Option ErrKind) :
    (withResult r e s).platform = s.platform := rfl

/-- A first fault is recorded (10_state.md R26). -/
theorem raiseFault_first (h : s.status.fault = false) (c : FaultCause) : raiseFault c s = withFault c s := by
  rw [raiseFault, statusFault_first h, withFault]

/-- Only a key size can be refused by check 5 of 60_exceptions.md R190. -/
theorem bitsAccepted_eq_false (h : bitsAccepted i = false) :
    ∃ bits, i = .expandkey bits ∧ bits ∉ [128, 192, 256] := by
  cases i with
  | expandkey bits => exact ⟨bits, rfl, by simpa [bitsAccepted, legalBits, and_assoc] using h⟩
  | _ => cases h

/-- Everything a command can do, by its verdict: nothing on a faulted engine; a first fault; the one error;
its own effect. -/
theorem exec_cases (h : exec i s = .next t) :
    (precheck i s = .refused ∧ s.status.fault = true ∧ t = s) ∨
    (∃ c, precheck i s = .fault c ∧ s.status.fault = false ∧ t = withFault c s) ∨
    (precheck i s = .error .invalidKeyLength ∧ s.status.fault = false ∧ bitsAccepted i = false ∧
      t = withResult false (some .invalidKeyLength) s) ∨
    (precheck i s = .runs ∧ s.status.fault = false ∧ bitsAccepted i = true ∧ t = effectOf i s) := by
  have faulted {c} (hf : s.status.fault = false) (hv : precheck i s = .fault c) :
      ∃ c, precheck i s = .fault c ∧ s.status.fault = false ∧ t = withFault c s := by
    refine ⟨c, hv, hf, ?_⟩
    rw [exec_eq_underChecks, underChecks, hv] at h
    cases h
    exact raiseFault_first hf c
  rcases precheck_cases i s with ⟨hf, hv⟩ | ⟨hf, -, hv⟩ | ⟨hf, -, hb, hv⟩ | ⟨hf, -, -, -, hv⟩ |
    ⟨hf, -, -, -, -, hv⟩ | ⟨hf, -, hb, -, -, hv⟩
  · rw [exec_eq_underChecks, underChecks_refused hf] at h
    cases h
    exact .inl ⟨hv, hf, rfl⟩
  · exact .inr (.inl (faulted hf hv))
  · rw [exec_eq_underChecks, underChecks, hv] at h
    cases h
    exact .inr (.inr (.inl ⟨hv, hf, hb, rfl⟩))
  · exact .inr (.inl (faulted hf hv))
  · exact .inr (.inl (faulted hf hv))
  · rw [exec_of_runs hv] at h
    cases h
    exact .inr (.inr (.inr ⟨hv, hf, hb, rfl⟩))

theorem exec_platform (h : exec i s = .next t) : t.platform = s.platform := by
  rcases exec_cases h with ⟨-, -, rfl⟩ | ⟨c, -, -, rfl⟩ | ⟨-, -, -, rfl⟩ | ⟨-, -, -, rfl⟩ <;> simp

/-- Everything a write to the command port can do (10_state.md R23). -/
theorem issueWord_cases (h : issueWord w s = .next t) :
    (s.status.fault = true ∧ t = s) ∨
    (s.status.fault = false ∧ (∃ why, decode w = .illegal why) ∧ t = withFault .illegalCommand s) ∨
    (s.status.fault = false ∧ ∃ i, decode w = .command i ∧ exec i s = .next t) := by
  unfold issueWord at h
  cases hf : s.status.fault with
  | true =>
    rw [hf, if_pos rfl] at h
    cases h
    exact .inl ⟨rfl, rfl⟩
  | false =>
    rw [hf, if_neg Bool.false_ne_true] at h
    cases hd : decode w with
    | illegal why =>
      rw [hd] at h
      cases h
      exact .inr (.inl ⟨rfl, ⟨why, rfl⟩, raiseFault_first hf _⟩)
    | command i =>
      rw [hd] at h
      exact .inr (.inr ⟨rfl, i, rfl, h⟩)

theorem issueWord_platform (h : issueWord w s = .next t) : t.platform = s.platform := by
  rcases issueWord_cases h with ⟨-, rfl⟩ | ⟨-, -, rfl⟩ | ⟨-, i, -, h⟩
  · rfl
  · rfl
  · exact exec_platform h

/-- A load that answers changes nothing but the answer. -/
theorem performMove_load {addr : Addr} {n : Nat} (h : performMove (.load addr n) s = .next t) :
    spanValid s.platform addr.toNat n = true ∧ t = giveAnswer (.bytes (memRead s.mem addr.toNat n)) s := by
  simp only [performMove] at h
  split at h <;> cases h
  exact ⟨‹_›, rfl⟩

/-- A store that answers changes nothing but memory. -/
theorem performMove_store {addr : Addr} {bytes : List Byte}
    (h : performMove (.store addr bytes) s = .next t) :
    spanValid s.platform addr.toNat bytes.length = true ∧ t = storeBytes addr.toNat bytes s := by
  simp only [performMove] at h
  split at h <;> cases h
  exact ⟨‹_›, rfl⟩

/-- A move that is neither a command nor `RESET` keeps `STATUS` (10_state.md R25), the cache and the platform. -/
theorem performMove_other (hw : ∀ w, m ≠ .writeCmd w) (hr : m ≠ .reset) (h : performMove m s = .next t) :
    t.status = s.status ∧ t.capv = s.capv ∧ t.cap = s.cap ∧ t.platform = s.platform := by
  cases m with
  | setP r v => cases h; simp
  | writeCmd w => exact absurd rfl (hw w)
  | writeStatus v => cases h; simp
  | readReg r => cases h; simp
  | load addr n =>
    obtain ⟨-, rfl⟩ := performMove_load h
    simp
  | store addr bytes =>
    obtain ⟨-, rfl⟩ := performMove_store h
    simp
  | reset => exact absurd rfl hr

/-- No move changes the hardware facts or which addresses exist (10_state.md R29). -/
theorem performMove_platform (h : performMove m s = .next t) : t.platform = s.platform := by
  cases m with
  | writeCmd w => exact issueWord_platform h
  | reset => cases h; rfl
  | _ =>
    obtain ⟨-, -, -, hp⟩ := performMove_other (by simp) (by simp) h
    exact hp

/-- Settles O46: an idle step changes nothing, and no move changes the platform (`performMove_platform`). -/
theorem platformNeverChanges : Obligations.PlatformNeverChanges := by
  intro s t h
  cases hm : s.moves with
  | nil =>
    rw [step_of_no_moves hm] at h
    cases h
    rfl
  | cons m rest =>
    rw [step_of_moves hm] at h
    exact (performMove_platform h).trans (takeMove_platform s rest)

/-- Only HASSUPPORT answers anything but 0 (10_state.md R25). -/
theorem answerOf_eq_false (h : ∀ mask, i ≠ .hassupport mask) : answerOf i s = false := by
  cases i with
  | hassupport mask => exact absurd rfl (h mask)
  | _ => rfl

/-- Settles O36: a write to the command port by `issueWord_cases`, the other moves by `performMove_other`,
a command by its four possible ends (`exec_cases`). -/
theorem commandsWriteStatusAsListed : Obligations.CommandsWriteStatusAsListed := by
  refine ⟨fun m rest s t hm h => ?_, fun i s t h => ?_⟩
  · rw [step_of_moves hm] at h
    refine ⟨?_, fun hw hr => (performMove_other hw hr h).1⟩
    rintro w rfl
    rcases issueWord_cases h with ⟨hf, rfl⟩ | ⟨hf, -, rfl⟩ | ⟨hf, i, hd, -⟩ <;>
      simp only [takeMove_status] at hf
    · simp [hf, takeMove]
    · simp [hf, takeMove]
    · simp [hf, hd]
  · rcases exec_cases h with ⟨hv, hf, rfl⟩ | ⟨c, hv, hf, rfl⟩ | ⟨hv, -, hb, rfl⟩ | ⟨hv, hf, -, rfl⟩
    · simp [hv, hf]
    · simp [hv, hf]
    · simpa [hv] using fun _ : ErrKind => bitsAccepted_eq_false hb
    · refine ⟨fun _ => ⟨by simp, by simpa using hf, by simp, fun hi => ?_, fun mask hi => ?_⟩, ?_⟩
      · simpa using answerOf_eq_false hi
      · rw [hi]
        rfl
      · simp [hv]

/-! ### Two engines that differ in memory -/

/-- The regions read depend on the pointers alone (20_memory.md R52). -/
theorem readSpans_congr (h : ∀ r, ptr u r = ptr s r) (i : Instr) : readSpans i u = readSpans i s := by
  cases i <;> simp only [readSpans, spanAt, effAddr_congr h]

/-- The regions written depend on the pointers alone (20_memory.md R52). -/
theorem writeSpans_congr (h : ∀ r, ptr u r = ptr s r) (i : Instr) : writeSpans i u = writeSpans i s := by
  cases i <;> simp only [writeSpans, spanAt, effAddr_congr h]

theorem footprintValid_congr (h : ∀ r, ptr u r = ptr s r) (hp : u.platform = s.platform) (i : Instr) :
    footprintValid i u = footprintValid i s := by
  rw [footprintValid, footprintValid, readSpans_congr h, writeSpans_congr h, hp]

/-- The verdict depends on the pointers, the platform and `FAULT` alone (20_memory.md R52). -/
theorem precheck_congr (h : ∀ r, ptr u r = ptr s r) (hp : u.platform = s.platform)
    (hf : u.status.fault = s.status.fault) (i : Instr) : precheck i u = precheck i s := by
  rw [precheck, precheck, footprintValid_congr h hp, hp, hf]

/-- A correct cache gives, after the probe, the hardware facts (41_capability.md R111, R112). -/
theorem probeCapabilities_cap_of_correct (h : CacheCorrect s) :
    (probeCapabilities s).cap = capabilityBits s.platform := by
  rw [probeCapabilities_cap]
  split
  · exact h ‹_›
  · rfl

/-- `RESULT` depends on the word and the hardware facts (10_state.md R27). -/
theorem answerOf_congr (hs : CacheCorrect s) (hu : CacheCorrect u)
    (hp : capabilityBits u.platform = capabilityBits s.platform) (i : Instr) :
    answerOf i u = answerOf i s := by
  cases i with
  | hassupport mask =>
    simp only [answerOf, probeCapabilities_cap_of_correct hs, probeCapabilities_cap_of_correct hu, hp]
  | _ => rfl

/-- What a command leaves in the cache depends on the cache and the platform. -/
theorem cacheAfter_congr (hp : u.platform = s.platform) (hv : u.capv = s.capv) (hc : u.cap = s.cap)
    (i : Instr) : (cacheAfter i u).capv = (cacheAfter i s).capv ∧
      (cacheAfter i u).cap = (cacheAfter i s).cap := by
  cases i with
  | hassupport mask => simp [cacheAfter, hp, hv, hc]
  | _ => exact ⟨hv, hc⟩

/-- The same pointers, `STATUS` and platform: the premise of 10_state.md R27, the states being free to differ
in memory, in the cache and in the model's own fields. -/
structure SameRegisters (s u : State) : Prop where
  p0 : u.p0 = s.p0
  p1 : u.p1 = s.p1
  p2 : u.p2 = s.p2
  platform : u.platform = s.platform
  status : u.status = s.status

theorem SameRegisters.ptr (h : SameRegisters s u) (r : PtrReg) : ptr u r = ptr s r := by
  cases r
  · exact h.p0
  · exact h.p1
  · exact h.p2

theorem SameRegisters.precheck (h : SameRegisters s u) (i : Instr) : precheck i u = precheck i s :=
  precheck_congr h.ptr h.platform (congrArg Status.fault h.status) i

/-- The same change of `STATUS` in both. -/
theorem SameRegisters.withStatus (h : SameRegisters s u) (f : Status → Status) :
    SameRegisters { s with status := f s.status } { u with status := f u.status } :=
  ⟨h.p0, h.p1, h.p2, h.platform, congrArg f h.status⟩

/-- A command's own effect keeps the registers of two engines the same whose caches are correct. -/
theorem SameRegisters.effectOf (h : SameRegisters s u) (hs : CacheCorrect s) (hu : CacheCorrect u)
    (i : Instr) : SameRegisters (effectOf i s) (effectOf i u) where
  p0 := by simpa using h.p0
  p1 := by simpa using h.p1
  p2 := by simpa using h.p2
  platform := by simpa using h.platform
  status := by rw [effectOf_status, effectOf_status, h.status, answerOf_congr hs hu (by rw [h.platform])]

/-- Two engines on which a command has the same verdict both answer, and what holds of the two states at
each possible end holds of the two answers. -/
theorem exec_both {R : State → State → Prop} (hv : precheck i u = precheck i s) (same : R s u)
    (fault : ∀ c, R (raiseFault c s) (raiseFault c u))
    (error : ∀ e, R (complete false (some e) s) (complete false (some e) u))
    (runs : R (effectOf i s) (effectOf i u)) :
    ∃ t v, exec i s = .next t ∧ exec i u = .next v ∧ R t v := by
  simp only [exec_eq_underChecks, underChecks, hv]
  cases precheck i s with
  | refused => exact ⟨_, _, rfl, rfl, same⟩
  | fault c => exact ⟨_, _, rfl, rfl, fault c⟩
  | error e => exact ⟨_, _, rfl, rfl, error e⟩
  | runs => exact ⟨_, _, rfl, rfl, runs⟩

/-- A command takes engines with the same registers to engines with the same registers, and keeps their caches
the same if they were. -/
theorem exec_sameRegisters (h : SameRegisters s u) (hs : CacheCorrect s) (hu : CacheCorrect u)
    (i : Instr) : ∃ t v, exec i s = .next t ∧ exec i u = .next v ∧ SameRegisters t v ∧
      (u.capv = s.capv → u.cap = s.cap → v.capv = t.capv ∧ v.cap = t.cap) :=
  exec_both (h.precheck i) ⟨h, And.intro⟩ (fun c => ⟨h.withStatus (statusFault · c), And.intro⟩)
    (fun e => ⟨h.withStatus (statusComplete · false (some e)), And.intro⟩)
    ⟨h.effectOf hs hu i, fun hv hc => by simpa using cacheAfter_congr h.platform hv hc i⟩

/-- A command that has completed leaves in `ERR` whether its `bits` were accepted, in `RESULT` its answer
(10_state.md R25). -/
theorem exec_completed (h : exec i s = .next t) (hf : t.status.fault = false) :
    t.status.err = (if bitsAccepted i then none else some .invalidKeyLength) ∧
      t.status.result = answerOf i s := by
  rcases exec_cases h with ⟨-, hs, rfl⟩ | ⟨c, -, -, rfl⟩ | ⟨-, -, hb, rfl⟩ | ⟨-, -, hb, rfl⟩
  · exact absurd (hs.symm.trans hf) (by decide)
  · exact absurd hf (by simp)
  · obtain ⟨bits, rfl, -⟩ := bitsAccepted_eq_false hb
    rw [hb]
    exact ⟨rfl, rfl⟩
  · simp [hb]

/-- Settles O48: whatever their memories, engines with the same registers keep them the same
(`exec_sameRegisters`), and what a completed command leaves in `ERR` and `RESULT` is `exec_completed`. -/
theorem statusIsIndependentOfMemory : Obligations.StatusIsIndependentOfMemory := by
  refine ⟨fun i s u h0 h1 h2 hp hst hs hu => ?_, fun i s t u v ht hv hft hfv => ?_⟩
  · obtain ⟨t, v, ht, hv, same, cache⟩ := exec_sameRegisters ⟨h0, h1, h2, hp, hst⟩ hs hu i
    exact ⟨t, v, ht, hv, same.status.symm, same.p0.symm, same.p1.symm, same.p2.symm,
      fun hcv hc => (cache hcv hc).imp Eq.symm Eq.symm⟩
  · obtain ⟨herr, hres⟩ := exec_completed ht hft
    obtain ⟨herr', hres'⟩ := exec_completed hv hfv
    refine ⟨herr.trans herr'.symm, fun haes hclmul hs hu => ?_⟩
    rw [hres, hres', answerOf_congr hs hu (by rw [capabilityBits, capabilityBits, haes, hclmul])]

end Sys2Proof.Machine
end

section
/-! PROOFS. The addresses of a command (20_memory.md R52): its accesses, like its footprint and its verdict,
are functions of the pointers, the platform and `FAULT`. -/

namespace Sys2Proof.Machine

variable {s u : State}

/-- The round-key regions depend on the pointers alone. -/
theorem keySpans_congr (h : ∀ r, ptr u r = ptr s r) (r : PtrReg) (indices : List Nat) :
    keySpans u r indices = keySpans s r indices := by
  simp only [keySpans, effAddr_congr h]

/-- The accesses and their order depend on the pointers alone (20_memory.md R52, R53). -/
theorem accesses_congr (h : ∀ r, ptr u r = ptr s r) (i : Instr) : accesses i u = accesses i s := by
  cases i <;> simp only [accesses, spanAt, effAddr_congr h, keySpans_congr h]

/-- Settles O49: with the pointers equal the accesses and the regions are the same (`accesses_congr`,
`readSpans_congr`, `writeSpans_congr`); with the platform and `FAULT` equal too, so is the verdict
(`precheck_congr`). -/
theorem addressesAreIndependentOfData : Obligations.AddressesAreIndependentOfData := by
  intro i s u h0 h1 h2 hp hf
  have hptr (r : PtrReg) : ptr u r = ptr s r := by
    cases r
    · exact h0
    · exact h1
    · exact h2
  exact ⟨accesses_congr hptr i, readSpans_congr hptr i, writeSpans_congr hptr i,
    precheck_congr hptr hp hf i⟩

end Sys2Proof.Machine
end

section
/-! PROOFS. Command words (30_encoding.md R60 to R68): the fields of a packed word, what each opcode decodes
to, decoding as the inverse of encoding, the rows of the opcode map, the illegal words. -/

namespace Sys2Proof.Machine

open Sys2Proof.Laws.OpcodeRowMatch (packFields_masked)

variable {w : CmdWord} {imm : BitVec 16} {dir : BitVec 1} {opc : BitVec 4} {i : Instr}

/-! ### Fields -/

@[simp] theorem opcField_packFields : opcField (packFields imm dir opc) = opc := by
  ext k hk
  interval_cases k <;> simp [opcField, packFields]

@[simp] theorem dirField_packFields : dirField (packFields imm dir opc) = dir := by
  ext k hk
  interval_cases k
  simp [dirField, packFields]

@[simp] theorem rsv0Field_packFields : rsv0Field (packFields imm dir opc) = 0#3 := by
  ext k hk
  interval_cases k <;> simp [rsv0Field, packFields]

@[simp] theorem immField_packFields : immField (packFields imm dir opc) = imm := by
  ext k hk
  interval_cases k <;> simp [immField, packFields]

@[simp] theorem rsv1Field_packFields : rsv1Field (packFields imm dir opc) = 0#8 := by
  ext k hk
  interval_cases k <;> simp [rsv1Field, packFields]

/-- A word is its five fields, each at its place (30_encoding.md R61). -/
theorem fields_or_eq (w : CmdWord) :
    ((rsv1Field w).setWidth 32 <<< 24) ||| ((rsv0Field w).setWidth 32 <<< 5) |||
      packFields (immField w) (dirField w) (opcField w) = w := by
  ext k hk
  interval_cases k <;> simp [rsv1Field, rsv0Field, immField, dirField, opcField, packFields]

theorem packFields_fields (h1 : rsv1Field w = 0#8) (h0 : rsv0Field w = 0#3) :
    packFields (immField w) (dirField w) (opcField w) = w := by
  simpa [h1, h0] using fields_or_eq w

theorem dirField_eq_ofBool (w : CmdWord) : dirField w = BitVec.ofBool (w.getLsbD 4) := by
  ext k hk
  interval_cases k
  simp [dirField]

/-! ### Decoding, opcode by opcode -/

theorem opcode_cases (opc : BitVec 4) : opc = 1#4 ∨ opc = 2#4 ∨ opc = 3#4 ∨ opc = 4#4 ∨ opc = 5#4 ∨
    (opc = 0#4 ∨ 6#4 ≤ opc) := by
  revert opc
  decide

@[simp] theorem decodeOpcode_one : decodeOpcode 1#4 dir imm = if dir ≠ 0#1 then .illegal .direction
    else if imm.extractLsb' 2 14 = 0#14 then .command (.hassupport (imm.extractLsb' 0 2))
    else .illegal .maskBits := rfl

@[simp] theorem decodeOpcode_two : decodeOpcode 2#4 dir imm =
    if dir = 0#1 then .command (.cryptblockEnc imm.toNat) else .command (.cryptblockDec imm.toNat) := rfl

@[simp] theorem decodeOpcode_three : decodeOpcode 3#4 dir imm =
    if dir ≠ 0#1 then .illegal .direction else .command (.expandkey imm.toNat) := rfl

@[simp] theorem decodeOpcode_four : decodeOpcode 4#4 dir imm =
    if dir ≠ 0#1 then .illegal .direction else .command (.derivedec imm.toNat) := rfl

@[simp] theorem decodeOpcode_five : decodeOpcode 5#4 dir imm = if dir ≠ 0#1 then .illegal .direction
    else if imm = 0#16 then .command .gfmul else .illegal .immediate := rfl

theorem ne_of_unused (h : opc = 0#4 ∨ 6#4 ≤ opc) :
    opc ≠ 1#4 ∧ opc ≠ 2#4 ∧ opc ≠ 3#4 ∧ opc ≠ 4#4 ∧ opc ≠ 5#4 := by
  revert opc
  decide

theorem decodeOpcode_unused (h : opc = 0#4 ∨ 6#4 ≤ opc) :
    decodeOpcode opc dir imm = .illegal .opcode := by
  obtain ⟨-, h2, -⟩ := ne_of_unused h
  rw [decodeOpcode, if_neg h2, if_pos h]

theorem decode_eq_decodeOpcode (h1 : rsv1Field w = 0#8) (h0 : rsv0Field w = 0#3) :
    decode w = decodeOpcode (opcField w) (dirField w) (immField w) := by
  simp [decode, h1, h0]

/-- A word with a reserved bit set is illegal. -/
theorem decode_of_reserved (h : rsv1Field w ≠ 0#8 ∨ rsv0Field w ≠ 0#3) :
    ∃ why, decode w = .illegal why := by
  by_cases h1 : rsv1Field w = 0#8
  · exact ⟨.reservedLow, by simp [decode, h1, h.resolve_left (not_not_intro h1)]⟩
  · exact ⟨.reservedHigh, by simp [decode, h1]⟩

@[simp] theorem decode_packFields : decode (packFields imm dir opc) = decodeOpcode opc dir imm := by
  simp [decode_eq_decodeOpcode]

/-! ### Decoding and encoding are inverse -/

theorem setWidth_mask (mask : BitVec 2) : (mask.setWidth 16).extractLsb' 2 14 = 0#14 ∧
    (mask.setWidth 16).extractLsb' 0 2 = mask := by
  revert mask
  decide

theorem setWidth_extractLsb'_mask (h : imm.extractLsb' 2 14 = 0#14) :
    (imm.extractLsb' 0 2).setWidth 16 = imm := by
  have hlow := congrArg BitVec.toNat h
  apply BitVec.eq_of_toNat_eq
  simp only [BitVec.extractLsb'_toNat, BitVec.toNat_setWidth, BitVec.toNat_ofNat,
    Nat.shiftRight_eq_div_pow] at hlow ⊢
  omega

theorem fitsImm_iff {n : Nat} : fitsImm n = true ↔ n < 2 ^ 16 := decide_eq_true_iff

/-- Decoding the word of a command whose immediate fits gives the command back. -/
theorem decode_encode (h : i.wellFormed = true) : decode (encode i) = .command i := by
  have toNat_back {n : Nat} (hn : fitsImm n = true) : (BitVec.ofNat 16 n).toNat = n :=
    Nat.mod_eq_of_lt (fitsImm_iff.1 hn)
  cases i with
  | hassupport mask => simp [encode, setWidth_mask]
  | cryptblockEnc rounds => simp [encode, toNat_back h]
  | cryptblockDec rounds => simp [encode, toNat_back h]
  | expandkey bits => simp [encode, toNat_back h]
  | derivedec rounds => simp [encode, toNat_back h]
  | gfmul => simp [encode]

@[simp] theorem fitsImm_toNat (imm : BitVec 16) : fitsImm imm.toNat = true := fitsImm_iff.2 imm.isLt

/-- A command decoded from an opcode, a direction and an immediate has these three as its word's fields. -/
theorem encode_of_decodeOpcode (h : decodeOpcode opc dir imm = .command i) :
    encode i = packFields imm dir opc ∧ i.wellFormed = true := by
  have hdir : dir = 0#1 ∨ dir = 1#1 := BitVec.eq_zero_or_eq_one dir
  rcases opcode_cases opc with rfl | rfl | rfl | rfl | rfl | hopc
  · rcases hdir with rfl | rfl
    · by_cases himm : imm.extractLsb' 2 14 = 0#14
      · obtain rfl : .hassupport (imm.extractLsb' 0 2) = i := by simpa [himm] using h
        exact ⟨by rw [encode, setWidth_extractLsb'_mask himm], rfl⟩
      · simp [himm] at h
    · simp at h
  · rcases hdir with rfl | rfl
    · obtain rfl : .cryptblockEnc imm.toNat = i := by simpa using h
      simp [encode, Instr.wellFormed]
    · obtain rfl : .cryptblockDec imm.toNat = i := by simpa using h
      simp [encode, Instr.wellFormed]
  · rcases hdir with rfl | rfl
    · obtain rfl : .expandkey imm.toNat = i := by simpa using h
      simp [encode, Instr.wellFormed]
    · simp at h
  · rcases hdir with rfl | rfl
    · obtain rfl : .derivedec imm.toNat = i := by simpa using h
      simp [encode, Instr.wellFormed]
    · simp at h
  · rcases hdir with rfl | rfl
    · by_cases himm : imm = 0#16
      · subst himm
        obtain rfl : .gfmul = i := by simpa using h
        exact ⟨rfl, rfl⟩
      · simp [himm] at h
    · simp at h
  · rw [decodeOpcode_unused hopc] at h
    cases h

/-- A word is a command's iff it is the command's encoding and the command's immediate fits. -/
theorem decode_eq_command_iff : decode w = .command i ↔ encode i = w ∧ i.wellFormed = true := by
  refine ⟨fun h => ?_, fun ⟨hw, hi⟩ => hw ▸ decode_encode hi⟩
  by_cases hr : rsv1Field w = 0#8 ∧ rsv0Field w = 0#3
  · obtain ⟨h1, h0⟩ := hr
    rw [decode_eq_decodeOpcode h1 h0] at h
    rw [← packFields_fields h1 h0]
    exact encode_of_decodeOpcode h
  · obtain ⟨why, hd⟩ := decode_of_reserved (not_and_or.1 hr)
    rw [hd] at h
    cases h

/-- The command a word decodes to, if any. -/
def commandOf : Decoded → Option Instr
  | .command i => some i
  | .illegal _ => none

@[simp] theorem commandOf_command (i : Instr) : commandOf (.command i) = some i := rfl

@[simp] theorem commandOf_illegal (why : IllegalWord) : commandOf (.illegal why) = none := rfl

/-- The list of 30_encoding.md R68 on the fields of a word whose reserved bits are 0. -/
def listedCommand (opc : BitVec 4) (dir : Bool) (imm : BitVec 16) : Option Instr :=
  if opc = 1#4 ∧ dir = false ∧ imm.extractLsb' 2 14 = 0#14 then some (.hassupport (imm.extractLsb' 0 2))
  else if opc = 2#4 ∧ dir = false then some (.cryptblockEnc imm.toNat)
  else if opc = 2#4 ∧ dir = true then some (.cryptblockDec imm.toNat)
  else if opc = 3#4 ∧ dir = false then some (.expandkey imm.toNat)
  else if opc = 4#4 ∧ dir = false then some (.derivedec imm.toNat)
  else if opc = 5#4 ∧ dir = false ∧ imm = 0#16 then some .gfmul
  else none

theorem commandOf_decodeOpcode (opc : BitVec 4) (dir : Bool) (imm : BitVec 16) :
    commandOf (decodeOpcode opc (BitVec.ofBool dir) imm) = listedCommand opc dir imm := by
  rcases opcode_cases opc with rfl | rfl | rfl | rfl | rfl | hopc
  · cases dir
    · by_cases himm : imm.extractLsb' 2 14 = 0#14 <;> simp [listedCommand, himm]
    · rfl
  · cases dir <;> rfl
  · cases dir <;> rfl
  · cases dir <;> rfl
  · cases dir
    · by_cases himm : imm = 0#16 <;> simp [listedCommand, himm]
    · rfl
  · obtain ⟨n1, n2, n3, n4, n5⟩ := ne_of_unused hopc
    simp [decodeOpcode_unused hopc, listedCommand, n1, n2, n3, n4, n5]

/-- Decoding follows the listed procedure of 30_encoding.md R68 on every word. -/
theorem commandOf_decode (w : CmdWord) : commandOf (decode w) =
    if rsv1Field w ≠ 0#8 ∨ rsv0Field w ≠ 0#3 then none
    else listedCommand (opcField w) (w.getLsbD 4) (immField w) := by
  split
  next hr =>
    obtain ⟨why, hd⟩ := decode_of_reserved hr
    rw [hd, commandOf_illegal]
  next hr =>
    obtain ⟨h1, h0⟩ := not_or.1 hr
    rw [decode_eq_decodeOpcode (not_not.1 h1) (not_not.1 h0), dirField_eq_ofBool, commandOf_decodeOpcode]

theorem encode_words (imm : BitVec 16) (mask : BitVec 2) :
    encode (.hassupport mask) = (mask.setWidth 32 <<< 8) ||| 0x1#32 ∧
    encode (.cryptblockEnc imm.toNat) = (imm.setWidth 32 <<< 8) ||| 0x2#32 ∧
    encode (.cryptblockDec imm.toNat) = (imm.setWidth 32 <<< 8) ||| (1#32 <<< 4) ||| 0x2#32 ∧
    encode (.expandkey imm.toNat) = (imm.setWidth 32 <<< 8) ||| 0x3#32 ∧
    encode (.derivedec imm.toNat) = (imm.setWidth 32 <<< 8) ||| 0x4#32 ∧
    encode .gfmul = 0x5#32 := by
  refine ⟨?_, ?_, ?_, ?_, ?_, rfl⟩
  · revert mask
    decide
  all_goals simp [encode, packFields]

/-- Settles O1: the listed procedure by `commandOf_decode`, the packing by `encode_words`, the round trips by
`decode_encode` and `decode_eq_command_iff`. -/
theorem decodeAndEncodeAgree : Obligations.DecodeAndEncodeAgree :=
  ⟨commandOf_decode, encode_words, fun _ => decode_encode, fun _ _ => decode_eq_command_iff.1⟩

/-! ### The rows of the opcode map -/

/-- The bits of the immediate and the bits outside it make up the word. -/
theorem imm_or_masked (w : CmdWord) : packFields (immField w) 0#1 0#4 ||| (w &&& 0xFF0000FF#32) = w := by
  ext k hk
  interval_cases k <;> simp [immField, packFields]

theorem packFields_or (imm : BitVec 16) (dir : BitVec 1) (opc : BitVec 4) :
    packFields imm 0#1 0#4 ||| packFields 0#16 dir opc = packFields imm dir opc := by
  simp [packFields, BitVec.or_assoc]

/-- A word has given fields, its reserved bits being 0, iff it lies in the row of the direction and the opcode
and the immediate is its own. -/
theorem packFields_eq_iff : packFields imm dir opc = w ↔
    w &&& 0xFF0000FF#32 = packFields 0#16 dir opc ∧ imm = immField w := by
  constructor
  · rintro rfl
    exact ⟨packFields_masked imm dir opc, immField_packFields.symm⟩
  · rintro ⟨hrow, rfl⟩
    rw [← packFields_or, ← hrow, imm_or_masked]

theorem ofNat_eq_and_fitsImm_iff {n : Nat} :
    BitVec.ofNat 16 n = imm ∧ fitsImm n = true ↔ n = imm.toNat := by
  constructor
  · rintro ⟨rfl, hn⟩
    exact (Nat.mod_eq_of_lt (fitsImm_iff.1 hn)).symm
  · rintro rfl
    exact ⟨BitVec.ofNat_toNat .., fitsImm_toNat imm⟩

/-- The rows whose operand is the whole immediate. -/
theorem immediate_row_iff {n : Nat} : packFields (BitVec.ofNat 16 n) dir opc = w ∧ fitsImm n = true ↔
    w &&& 0xFF0000FF#32 = packFields 0#16 dir opc ∧ n = (immField w).toNat := by
  rw [packFields_eq_iff, and_assoc, ofNat_eq_and_fitsImm_iff]

theorem decode_eq_cryptblockEnc_iff {rounds : Nat} : decode w = .command (.cryptblockEnc rounds) ↔
    w &&& 0xFF0000FF#32 = 0x02#32 ∧ rounds = (immField w).toNat :=
  decode_eq_command_iff.trans immediate_row_iff

theorem decode_eq_cryptblockDec_iff {rounds : Nat} : decode w = .command (.cryptblockDec rounds) ↔
    w &&& 0xFF0000FF#32 = 0x12#32 ∧ rounds = (immField w).toNat :=
  decode_eq_command_iff.trans immediate_row_iff

theorem decode_eq_expandkey_iff {bits : Nat} : decode w = .command (.expandkey bits) ↔
    w &&& 0xFF0000FF#32 = 0x03#32 ∧ bits = (immField w).toNat :=
  decode_eq_command_iff.trans immediate_row_iff

theorem decode_eq_derivedec_iff {rounds : Nat} : decode w = .command (.derivedec rounds) ↔
    w &&& 0xFF0000FF#32 = 0x04#32 ∧ rounds = (immField w).toNat :=
  decode_eq_command_iff.trans immediate_row_iff

theorem decode_eq_hassupport_iff {mask : BitVec 2} : decode w = .command (.hassupport mask) ↔
    w &&& 0xFFFFFCFF#32 = 0x1#32 ∧ mask = w.extractLsb' 8 2 := by
  have mask_or_masked (w : CmdWord) : packFields ((w.extractLsb' 8 2).setWidth 16) 0#1 0#4 |||
      (w &&& 0xFFFFFCFF#32) = w := by
    ext k hk
    interval_cases k <;> simp [packFields]
  rw [decode_eq_command_iff]
  constructor
  · rintro ⟨rfl, -⟩
    revert mask
    decide
  · rintro ⟨hrow, rfl⟩
    refine ⟨?_, rfl⟩
    conv_rhs => rw [← mask_or_masked w, hrow]
    exact (packFields_or _ 0#1 1#4).symm

theorem decode_eq_gfmul_iff : decode w = .command .gfmul ↔ w &&& 0xFFFFFFFF#32 = 0x5#32 := by
  rw [decode_eq_command_iff, show w &&& 0xFFFFFFFF#32 = w from BitVec.and_allOnes]
  exact ⟨fun ⟨hw, _⟩ => hw.symm, fun hw => ⟨hw.symm, rfl⟩⟩

/-- A word is illegal iff it is no command's. -/
theorem decode_illegal_iff_not_command : (∃ why, decode w = .illegal why) ↔ ∀ i, decode w ≠ .command i := by
  cases decode w with
  | command i => simp
  | illegal why => simp

/-- A property holds of every command iff it holds of the commands of each row. -/
theorem forall_instr_iff {P : Instr → Prop} : (∀ i, P i) ↔
    (∀ mask, P (.hassupport mask)) ∧ (∀ r, P (.cryptblockEnc r)) ∧ (∀ r, P (.cryptblockDec r)) ∧
    (∀ b, P (.expandkey b)) ∧ (∀ r, P (.derivedec r)) ∧ P .gfmul := by
  refine ⟨fun h => ⟨fun _ => h _, fun _ => h _, fun _ => h _, fun _ => h _, fun _ => h _, h _⟩, ?_⟩
  rintro ⟨hsup, henc, hdec, hexp, hder, hgf⟩ i
  cases i with
  | hassupport mask => exact hsup mask
  | cryptblockEnc rounds => exact henc rounds
  | cryptblockDec rounds => exact hdec rounds
  | expandkey bits => exact hexp bits
  | derivedec rounds => exact hder rounds
  | gfmul => exact hgf

/-- Settles O2: a row's words are the encodings of its commands (`decode_eq_command_iff`), recognised by their
masked bits; the illegal words are those of no row (`decode_illegal_iff_not_command`). -/
theorem opcodeMapIsComplete : Obligations.OpcodeMapIsComplete := by
  intro w imm
  refine ⟨fun _ => decode_eq_hassupport_iff, fun _ => decode_eq_cryptblockEnc_iff,
    fun _ => decode_eq_cryptblockDec_iff, fun _ => decode_eq_expandkey_iff, fun _ => decode_eq_derivedec_iff,
    decode_eq_gfmul_iff, ?_⟩
  rw [decode_illegal_iff_not_command, forall_instr_iff]
  simp only [ne_eq, decode_eq_hassupport_iff, decode_eq_cryptblockEnc_iff, decode_eq_cryptblockDec_iff,
    decode_eq_expandkey_iff, decode_eq_derivedec_iff, decode_eq_gfmul_iff, not_and', forall_eq]

/-! ### Illegal words -/

theorem decodeOpcode_illegal_iff (opc : BitVec 4) (dir : Bool) (imm : BitVec 16) :
    (∃ why, decodeOpcode opc (BitVec.ofBool dir) imm = .illegal why) ↔
      (opc = 0#4 ∨ 6#4 ≤ opc) ∨ (dir = true ∧ opc ≠ 2#4) ∨
      (opc = 1#4 ∧ imm.extractLsb' 2 14 ≠ 0#14) ∨ (opc = 5#4 ∧ imm ≠ 0#16) := by
  rcases opcode_cases opc with rfl | rfl | rfl | rfl | rfl | hopc
  · cases dir <;> by_cases himm : imm.extractLsb' 2 14 = 0#14 <;> simp [himm]
  · cases dir <;> simp
  · cases dir <;> simp
  · cases dir <;> simp
  · cases dir <;> by_cases himm : imm = 0#16 <;> simp [himm]
  · simp [decodeOpcode_unused hopc, hopc]

theorem immField_high (w : CmdWord) : (immField w).extractLsb' 2 14 = w.extractLsb' 10 14 := by
  ext k hk
  simp [immField, show 2 + k < 16 by omega, ← Nat.add_assoc]

/-- The illegal words are those of the list of 30_encoding.md R66. -/
theorem decode_illegal_iff (w : CmdWord) : (∃ why, decode w = .illegal why) ↔
    rsv1Field w ≠ 0#8 ∨ rsv0Field w ≠ 0#3 ∨
      (opcField w = 0#4 ∨ 6#4 ≤ opcField w) ∨ (w.getLsbD 4 = true ∧ opcField w ≠ 2#4) ∨
      (opcField w = 1#4 ∧ (immField w).extractLsb' 2 14 ≠ 0#14) ∨
      (opcField w = 5#4 ∧ immField w ≠ 0#16) := by
  by_cases hr : rsv1Field w ≠ 0#8 ∨ rsv0Field w ≠ 0#3
  · exact iff_of_true (decode_of_reserved hr) (or_assoc.1 (.inl hr))
  · rw [← or_assoc, or_iff_right hr]
    obtain ⟨h1, h0⟩ := not_or.1 hr
    rw [decode_eq_decodeOpcode (not_not.1 h1) (not_not.1 h0), dirField_eq_ofBool]
    exact decodeOpcode_illegal_iff _ _ _

theorem issueWord_illegal {why : IllegalWord} {s : State} (hd : decode w = .illegal why)
    (hf : s.status.fault = false) : issueWord w s = .next (withFault .illegalCommand s) := by
  simp [issueWord, hd, hf, raiseFault_first]

/-- Settles O3: the list by `decode_illegal_iff`, the step by `issueWord_illegal`. -/
theorem illegalWordsFault : Obligations.IllegalWordsFault := by
  refine ⟨fun w => ?_, fun w why s rest hd hf hm => ?_⟩
  · rw [decode_illegal_iff, immField_high]
    rfl
  · rw [step_of_moves hm]
    exact issueWord_illegal hd hf

end Sys2Proof.Machine
end

section
/-! PROOFS. Products by repeated doubling (40_primitives.md R81, R101): the exclusive or of the doublings of
one factor over the bits of the other, for any linear doubling; carry-less multiplication as one case. -/

namespace Sys2Proof.Machine

variable {v w : Nat}

/-- `f` carries exclusive or to exclusive or: it is linear over GF(2). -/
def XorLinear (f : BitVec v → BitVec w) : Prop := ∀ x y, f (x ^^^ y) = f x ^^^ f y

theorem XorLinear.map_zero {f : BitVec v → BitVec w} (hf : XorLinear f) : f 0#v = 0#w := by
  have h : f 0#v = f 0#v ^^^ f 0#v := by rw [← hf]; exact congrArg f BitVec.xor_self.symm
  rwa [BitVec.xor_self] at h

theorem XorLinear.map_ite_zero {f : BitVec v → BitVec w} (hf : XorLinear f) (p : Bool) (x : BitVec v) :
    f (if p then x else 0#v) = if p then f x else 0#w := by
  cases p
  · exact hf.map_zero
  · rfl

theorem XorLinear.iterate {D : BitVec w → BitVec w} (hD : XorLinear D) (n : Nat) : XorLinear D^[n] := by
  induction n with
  | zero => exact fun _ _ => rfl
  | succ n ih =>
    intro x y
    simp only [Function.iterate_succ_apply', ih x y, hD _ _]

/-- The exclusive or of the doublings `D^i(y)` over the `i < n` with `p i`: with `p` the bits of `x`, the
product of `y` and `x`. -/
def doublingSum (D : BitVec w → BitVec w) (p : Nat → Bool) : Nat → BitVec w → BitVec w
  | 0, _ => 0#w
  | n + 1, y => doublingSum D p n y ^^^ if p n then D^[n] y else 0#w

section
variable {D : BitVec w → BitVec w} {p q : Nat → Bool} {n : Nat} {y : BitVec w}

/-- The accumulating loop in which the model writes its products. -/
theorem foldl_doublings : (List.range n).foldl (fun acc i => if p i then acc ^^^ D^[i] y else acc) 0#w
    = doublingSum D p n y := by
  induction n with
  | zero => rfl
  | succ n ih =>
    rw [List.range_succ, List.foldl_append, ih, doublingSum]
    cases hp : p n <;> simp [hp]

/-- The sum in which the rules state the products. -/
theorem foldr_doublings (z : BitVec w) :
    (List.range n).foldr (fun i acc => (if p i then D^[i] y else 0#w) ^^^ acc) z = doublingSum D p n y ^^^ z := by
  induction n generalizing z with
  | zero => simp [doublingSum]
  | succ n ih =>
    rw [List.range_succ, List.foldr_append, ih, doublingSum, BitVec.xor_assoc]
    rfl

/-- What is linear and commutes with the doubling commutes with the sum of doublings. -/
theorem map_doublingSum {f : BitVec w → BitVec w} (hf : XorLinear f) (hD : Function.Commute f D) (y : BitVec w) :
    f (doublingSum D p n y) = doublingSum D p n (f y) := by
  induction n with
  | zero => exact hf.map_zero
  | succ n ih => rw [doublingSum, doublingSum, hf, ih, hf.map_ite_zero, (hD.iterate_right n).eq]

theorem doublingSum_linear (hD : XorLinear D) (p : Nat → Bool) (n : Nat) : XorLinear (doublingSum D p n) := by
  intro x y
  induction n with
  | zero => exact (BitVec.xor_self (x := 0#w)).symm
  | succ n ih =>
    simp only [doublingSum, ih, hD.iterate n x y]
    cases p n
    · simp
    · simp only [if_true]
      ac_rfl

/-- Sums of doublings, being polynomials in one operator, commute. -/
theorem doublingSum_comm (hD : XorLinear D) {m : Nat} (y : BitVec w) :
    doublingSum D q m (doublingSum D p n y) = doublingSum D p n (doublingSum D q m y) :=
  map_doublingSum (doublingSum_linear hD q m) (fun x => (map_doublingSum hD (Function.Commute.refl D) x).symm) y

theorem ite_xor_zero (b c : Bool) (x : BitVec w) :
    (if (b ^^ c) = true then x else 0#w) = (if b then x else 0#w) ^^^ if c then x else 0#w := by
  cases b <;> cases c <;> simp

/-- The sum is linear in the value whose bits choose the doublings. -/
theorem doublingSum_bits_linear (D : BitVec w → BitVec w) (n : Nat) (y : BitVec w) :
    XorLinear fun x : BitVec v => doublingSum D x.getLsbD n y := by
  intro x z
  induction n with
  | zero => exact BitVec.xor_self.symm
  | succ n ih =>
    simp only [doublingSum] at ih ⊢
    rw [ih, BitVec.getLsbD_xor, ite_xor_zero]
    ac_rfl

/-- A bit that no doubling sets is not set in the sum. -/
theorem doublingSum_getLsbD_false {j : Nat} (h : ∀ i < n, (D^[i] y).getLsbD j = false) :
    (doublingSum D p n y).getLsbD j = false := by
  induction n with
  | zero => exact BitVec.getLsbD_zero
  | succ n ih =>
    have hn := h n n.lt_succ_self
    rw [doublingSum, BitVec.getLsbD_xor, ih fun i hi => h i (hi.trans n.lt_succ_self)]
    cases p n <;> simp [hn]

/-- Where the doublings of `e` are the single bits, a sum of them is the value that has those bits. -/
theorem doublingSum_getLsbD {e : BitVec w} (he : ∀ i < n, D^[i] e = BitVec.twoPow w i) {j : Nat} (hj : j < w) :
    (doublingSum D p n e).getLsbD j = (decide (j < n) && p j) := by
  induction n with
  | zero => exact BitVec.getLsbD_zero
  | succ n ih =>
    have hlast : (if p n then D^[n] e else 0#w).getLsbD j = (decide (n = j) && p n) := by
      rw [he n n.lt_succ_self]
      cases p n <;> simp [hj, eq_comm]
    rw [doublingSum, BitVec.getLsbD_xor, ih fun i hi => he i (hi.trans n.lt_succ_self), hlast]
    rcases lt_trichotomy j n with h | rfl | h
    · simp [h, h.ne', h.trans n.lt_succ_self]
    · simp
    · simp [h.ne, Nat.not_lt.2 h.le, Nat.not_lt.2 (Nat.succ_le_of_lt h)]

/-- With the single bits as doublings of `e`, the product of `e` and `x` is `x`. -/
theorem doublingSum_unit {e : BitVec w} (he : ∀ i < v, D^[i] e = BitVec.twoPow w i) (x : BitVec v) :
    doublingSum D x.getLsbD v e = x.setWidth w := by
  apply BitVec.eq_of_getLsbD_eq
  intro j hj
  rw [doublingSum_getLsbD he hj, BitVec.getLsbD_setWidth]
  by_cases h : j < v
  · simp [h, hj]
  · simp [BitVec.getLsbD_of_ge x j (Nat.not_lt.1 h)]

/-- Products by repeated doubling commute: both factors are sums of doublings of the unit. -/
theorem doublingSum_swap {e : BitVec w} (hD : XorLinear D) (he : ∀ i < v, D^[i] e = BitVec.twoPow w i)
    (x y : BitVec v) :
    doublingSum D x.getLsbD v (y.setWidth w) = doublingSum D y.getLsbD v (x.setWidth w) := by
  rw [← doublingSum_unit he y, doublingSum_comm hD, doublingSum_unit he x]
end

/-! ### The carry-less product -/

theorem shiftLeft_linear (k : Nat) : XorLinear fun x : BitVec w => x <<< k :=
  fun _ _ => BitVec.shiftLeft_xor_distrib ..

theorem shiftLeft_iterate (x : BitVec w) (i : Nat) : (fun x : BitVec w => x <<< 1)^[i] x = x <<< i := by
  induction i with
  | zero => exact (BitVec.shiftLeft_zero x).symm
  | succ i ih => rw [Function.iterate_succ_apply', ih, ← BitVec.shiftLeft_add]

theorem shiftLeft_iterate_one (i : Nat) : (fun x : BitVec w => x <<< 1)^[i] 1#w = BitVec.twoPow w i := by
  rw [shiftLeft_iterate, BitVec.twoPow_eq]

theorem clmul64_eq_doublingSum (a b : BitVec 64) :
    clmul64 a b = doublingSum (fun x => x <<< 1) b.getLsbD 64 (a.setWidth 128) := by
  rw [← foldl_doublings]
  simp only [shiftLeft_iterate]
  rfl

theorem clmul64_eq_foldr (a b : BitVec 64) : clmul64 a b = (List.range 64).foldr
    (fun i acc => (if b.getLsbD i then a.setWidth 128 <<< i else 0#128) ^^^ acc) 0#128 := by
  have h := foldr_doublings (D := fun x => x <<< 1) (p := b.getLsbD) (n := 64) (y := a.setWidth 128) 0#128
  rw [BitVec.xor_zero, ← clmul64_eq_doublingSum] at h
  simpa only [shiftLeft_iterate] using h.symm

theorem clmul64_comm (a b : BitVec 64) : clmul64 a b = clmul64 b a := by
  rw [clmul64_eq_doublingSum, clmul64_eq_doublingSum]
  exact doublingSum_swap (shiftLeft_linear 1) (fun i _ => shiftLeft_iterate_one i) b a

theorem clmul64_linear (a : BitVec 64) : XorLinear (clmul64 a) := by
  intro b c
  simp only [clmul64_eq_doublingSum]
  exact doublingSum_bits_linear _ _ _ b c

theorem clmul64_one (a : BitVec 64) : clmul64 a 1 = a.setWidth 128 := by
  rw [clmul64_comm, clmul64_eq_doublingSum]
  exact doublingSum_unit (fun i _ => shiftLeft_iterate_one i) a

/-- Two polynomials of degree at most 63 have a product of degree at most 126. -/
theorem clmul64_msb (a b : BitVec 64) : (clmul64 a b).getLsbD 127 = false := by
  rw [clmul64_eq_doublingSum]
  refine doublingSum_getLsbD_false fun i hi => ?_
  rw [shiftLeft_iterate, BitVec.getLsbD_shiftLeft, BitVec.getLsbD_setWidth,
    BitVec.getLsbD_of_ge a (127 - i) (by omega), Bool.and_false, Bool.and_false]

/-- Settles O27: the product is a sum of doublings (`clmul64_eq_doublingSum`), which is linear in either factor
and symmetric; its examples by evaluation. -/
theorem carrylessProductLaws : Obligations.CarrylessProductLaws := by
  refine ⟨fun a b c => ⟨clmul64_eq_foldr a b, clmul64_comm a b, (clmul64_linear a).map_zero, clmul64_one a,
    clmul64_linear a b c, clmul64_msb a b⟩, ?_⟩
  decide +kernel

end Sys2Proof.Machine
end

section
/-! PROOFS. The field of bytes (40_primitives.md R80, R81): doubling is linear, and the product is a sum of
doublings. -/

namespace Sys2Proof.Machine

theorem xtime_linear : XorLinear xtime := by
  intro x y
  have hshift : (x ^^^ y) <<< 1 = x <<< 1 ^^^ y <<< 1 := shiftLeft_linear 1 x y
  simp only [xtime, hshift, BitVec.getLsbD_xor, ite_xor_zero]
  ac_rfl

theorem xtimePow_eq_iterate (i : Nat) (a : Byte) : xtimePow i a = xtime^[i] a := by
  induction i with
  | zero => rfl
  | succ i ih => rw [xtimePow, ih, Function.iterate_succ_apply']

/-- The first seven doublings of 1 meet no reduction. -/
theorem xtime_iterate_one : ∀ i < 8, xtime^[i] 1#8 = BitVec.twoPow 8 i := by decide

theorem gmul8_eq_doublingSum (a b : Byte) : gmul8 a b = doublingSum xtime b.getLsbD 8 a := by
  rw [← foldl_doublings]
  simp only [← xtimePow_eq_iterate]
  rfl

theorem gmul8_eq_foldr (a b : Byte) : gmul8 a b = (List.range 8).foldr
    (fun i acc => (if b.getLsbD i then xtimePow i a else 0) ^^^ acc) 0 := by
  simp only [xtimePow_eq_iterate, BitVec.ofNat_eq_ofNat, foldr_doublings, gmul8_eq_doublingSum, BitVec.xor_zero]

theorem gmul8_comm (a b : Byte) : gmul8 a b = gmul8 b a := by
  simpa only [gmul8_eq_doublingSum, BitVec.setWidth_eq] using doublingSum_swap xtime_linear xtime_iterate_one b a

theorem gmul8_assoc (a b c : Byte) : gmul8 a (gmul8 b c) = gmul8 (gmul8 a b) c := by
  rw [gmul8_comm a, gmul8_comm a b]
  simp only [gmul8_eq_doublingSum]
  exact doublingSum_comm xtime_linear b

theorem gmul8_linear (a : Byte) : XorLinear (gmul8 a) := by
  intro b c
  simp only [gmul8_eq_doublingSum]
  exact doublingSum_bits_linear _ _ _ b c

theorem gmul8_xor (a b c : Byte) : gmul8 a (b ^^^ c) = gmul8 a b ^^^ gmul8 a c := gmul8_linear a b c

theorem xor_gmul8 (a b c : Byte) : gmul8 (a ^^^ b) c = gmul8 a c ^^^ gmul8 b c := by
  simp only [gmul8_comm _ c, gmul8_xor]

@[simp] theorem gmul8_zero (a : Byte) : gmul8 a 0#8 = 0#8 := (gmul8_linear a).map_zero

@[simp] theorem zero_gmul8 (a : Byte) : gmul8 0#8 a = 0#8 := by rw [gmul8_comm, gmul8_zero]

@[simp] theorem one_gmul8 (a : Byte) : gmul8 1#8 a = a := by
  rw [gmul8_eq_doublingSum, doublingSum_unit xtime_iterate_one, BitVec.setWidth_eq]

@[simp] theorem gmul8_one (a : Byte) : gmul8 a 1#8 = a := by rw [gmul8_comm, one_gmul8]

/-- Settles O29: the product is a sum of doublings (`gmul8_eq_doublingSum`) by an operator that is linear; its
examples by evaluation. -/
theorem byteProductLaws : Obligations.ByteProductLaws := by
  refine ⟨fun a b c => ⟨gmul8_eq_foldr a b, rfl, fun _ => rfl, gmul8_comm a b, gmul8_assoc a b c,
    gmul8_xor a b c, gmul8_one a, gmul8_zero a⟩, ?_⟩
  decide

end Sys2Proof.Machine
end

section
/-! PROOFS. The AES primitives (40_primitives.md R83 to R100, R104): the substitution, the row shifts, the column
mixes as circulant matrices, and what undoes each. -/

namespace Sys2Proof.Machine

/-! ### Byte substitution -/

/-- The inverse of the affine map `A` of 40_primitives.md R83. -/
def invAffineMap (b : Byte) : Byte := b.rotateLeft 1 ^^^ b.rotateLeft 3 ^^^ b.rotateLeft 6 ^^^ 0x05#8

theorem affineMap_invAffineMap : ∀ b : Byte, affineMap (invAffineMap b) = b := by decide +kernel

/-- Each entry of the S-box, taken back through the affine map, is the inverse of its index. -/
theorem invAffineMap_sBox : ∀ a : Byte,
    if a = 0 then invAffineMap (sBox a) = 0 else gmul8 a (invAffineMap (sBox a)) = 1 := by
  decide +kernel

theorem sBox_ne_self : ∀ a : Byte, sBox a ≠ a := by decide +kernel

@[simp] theorem invSBox_sBox : ∀ a : Byte, invSBox (sBox a) = a := by decide +kernel

/-- The S-box has a left inverse, so on the finite set of bytes it is bijective. -/
@[simp] theorem sBox_invSBox (a : Byte) : sBox (invSBox a) = a := by
  have hinj : Function.Injective sBox := Function.LeftInverse.injective invSBox_sBox
  obtain ⟨b, rfl⟩ := Finite.surjective_of_injective hinj a
  rw [invSBox_sBox]

/-- Settles O28: the inverse of an index is its entry taken back through the affine map (`invAffineMap_sBox`). -/
theorem sBoxIsTheAffineInverse : Obligations.SBoxIsTheAffineInverse := fun a =>
  ⟨⟨invAffineMap (sBox a), invAffineMap_sBox a, (affineMap_invAffineMap _).symm⟩,
    sBox_ne_self a, invSBox_sBox a, sBox_invSBox a⟩

@[simp] theorem invSubBytes_subBytes (s : Block) : invSubBytes (subBytes s) = s := by
  simp only [invSubBytes, subBytes, invSubWord, subWord, invSBox_sBox]

/-! ### Row shifts -/

@[simp] theorem invShiftRows_shiftRows (s : Block) : invShiftRows (shiftRows s) = s := rfl

theorem shiftRows_getD (s : Block) {r c : Nat} (hr : r < 4) (hc : c < 4) :
    (bytesOfBlock (shiftRows s)).getD (r + 4 * c) 0 = (bytesOfBlock s).getD (r + 4 * ((c + r) % 4)) 0 := by
  interval_cases c <;> interval_cases r <;> rfl

theorem invShiftRows_getD (s : Block) {r c : Nat} (hr : r < 4) (hc : c < 4) :
    (bytesOfBlock (invShiftRows s)).getD (r + 4 * c) 0 =
      (bytesOfBlock s).getD (r + 4 * ((c + 4 - r) % 4)) 0 := by
  interval_cases c <;> interval_cases r <;> rfl

/-- Settles O30: byte by byte (`shiftRows_getD`, `invShiftRows_getD`); the index lists by evaluation. -/
theorem rowShiftsPermuteBytes : Obligations.RowShiftsPermuteBytes := fun s =>
  ⟨fun _ hr _ hc => ⟨shiftRows_getD s hr hc, invShiftRows_getD s hr hc⟩, rfl, rfl, invShiftRows_shiftRows s⟩

/-! ### Column mixes -/

/-- The column `a` times the circulant matrix whose first row is `c`; each later row is the one before, rotated
right. -/
def circulant (c a : Word32) : Word32 :=
  ⟨gmul8 c.b0 a.b0 ^^^ gmul8 c.b1 a.b1 ^^^ gmul8 c.b2 a.b2 ^^^ gmul8 c.b3 a.b3,
   gmul8 c.b3 a.b0 ^^^ gmul8 c.b0 a.b1 ^^^ gmul8 c.b1 a.b2 ^^^ gmul8 c.b2 a.b3,
   gmul8 c.b2 a.b0 ^^^ gmul8 c.b3 a.b1 ^^^ gmul8 c.b0 a.b2 ^^^ gmul8 c.b1 a.b3,
   gmul8 c.b1 a.b0 ^^^ gmul8 c.b2 a.b1 ^^^ gmul8 c.b3 a.b2 ^^^ gmul8 c.b0 a.b3⟩

theorem mixColumn_eq_circulant (a : Word32) : mixColumn a = circulant ⟨2, 3, 1, 1⟩ a := by
  simp [mixColumn, circulant]

theorem invMixColumn_eq_circulant (a : Word32) : invMixColumn a = circulant ⟨14, 11, 13, 9⟩ a := rfl

/-- Circulant matrices are closed under the product, whose first row is the first factor's transpose times the
second's first row. -/
theorem circulant_circulant (c d a : Word32) :
    circulant c (circulant d a) = circulant (circulant ⟨c.b0, c.b3, c.b2, c.b1⟩ d) a := by
  simp only [circulant, gmul8_xor, xor_gmul8, gmul8_assoc, Word32.mk.injEq]
  refine ⟨?_, ?_, ?_, ?_⟩ <;> ac_rfl

theorem circulant_one (a : Word32) : circulant ⟨1, 0, 0, 0⟩ a = a := by
  simp [circulant]

theorem circulant_xorWord (c x y : Word32) :
    circulant c (xorWord x y) = xorWord (circulant c x) (circulant c y) := by
  simp only [circulant, xorWord, gmul8_xor, Word32.mk.injEq]
  refine ⟨?_, ?_, ?_, ?_⟩ <;> ac_rfl

@[simp] theorem invMixColumn_mixColumn (a : Word32) : invMixColumn (mixColumn a) = a := by
  have hone : circulant ⟨14, 9, 13, 11⟩ ⟨2, 3, 1, 1⟩ = ⟨1, 0, 0, 0⟩ := by decide
  rw [invMixColumn_eq_circulant, mixColumn_eq_circulant, circulant_circulant, hone, circulant_one]

@[simp] theorem invMixColumns_mixColumns (s : Block) : invMixColumns (mixColumns s) = s := by
  simp only [invMixColumns, mixColumns, invMixColumn_mixColumn]

theorem invMixColumns_xorBlock (x y : Block) :
    invMixColumns (xorBlock x y) = xorBlock (invMixColumns x) (invMixColumns y) := by
  simp only [invMixColumns, xorBlock, invMixColumn_eq_circulant, circulant_xorWord]

theorem two_gmul8 (a : Byte) : gmul8 2 a = xtime a := by
  rw [gmul8_comm, gmul8_eq_doublingSum]
  simp [doublingSum]

theorem three_gmul8 (a : Byte) : gmul8 3 a = xtime a ^^^ a := by
  rw [show (3 : Byte) = 2 ^^^ 1#8 from rfl, xor_gmul8, two_gmul8, one_gmul8]

/-- Settles O31: both mixes are circulant matrices, inverse to each other (`invMixColumn_mixColumn`). -/
theorem inverseColumnMixUndoesColumnMix : Obligations.InverseColumnMixUndoesColumnMix := by
  refine ⟨fun a0 a1 a2 a3 => ⟨?_, rfl⟩, fun _ _ _ _ => ⟨rfl, rfl⟩, invMixColumns_mixColumns,
    invMixColumns_xorBlock, ?_⟩
  · simp only [mixColumn, two_gmul8, three_gmul8]
  · decide

/-! ### Rounds -/

@[simp] theorem xorBlock_xorBlock_cancel (x k : Block) : xorBlock (xorBlock x k) k = x := by
  simp [xorBlock, xorWord]

/-- The substitution acts on each byte alone, the shift only moves bytes (40_primitives.md R97). -/
theorem invSubBytes_shiftRows (s : Block) : invSubBytes (shiftRows s) = shiftRows (invSubBytes s) := rfl

/-- Settles O32: the key cancels and each layer is undone; with the key `00 .. 00 01` the inverse
primitives do not give the zero block back. -/
theorem roundsAreInvertible : Obligations.RoundsAreInvertible := by
  refine ⟨fun s k => ⟨?_, ?_⟩, ⟨zeroBlock, blockBe 1, ?_⟩, ⟨zeroBlock, blockBe 1, ?_⟩⟩
  · rw [aesFinalRound, xorBlock_xorBlock_cancel, invSubBytes_shiftRows, invSubBytes_subBytes,
      invShiftRows_shiftRows]
  · rw [aesRound, xorBlock_xorBlock_cancel, invMixColumns_mixColumns, invShiftRows_shiftRows, invSubBytes_subBytes]
  · decide +kernel
  · decide +kernel

/-- Settles O33: the compositions are the primitives' definitions; the examples by evaluation. -/
theorem roundPrimitivesCompose : Obligations.RoundPrimitivesCompose := by
  refine ⟨fun _ _ => ⟨rfl, rfl, rfl, rfl, rfl⟩, ?_⟩
  decide +kernel

/-- Settles O34: the words are those of the primitive's definition; the example by evaluation. -/
theorem keyGenAssistWords : Obligations.KeyGenAssistWords := by
  refine ⟨fun _ _ => ⟨rfl, rfl, rfl, rfl⟩, ?_⟩
  decide +kernel

end Sys2Proof.Machine
end

section
/-! PROOFS. HASSUPPORT and the cache (41_capability.md R110 to R113): its effect, what commands, moves and
steps can do to the cache, and that a valid cache goes on holding the hardware facts. -/

namespace Sys2Proof.Machine

open Sys2Proof.Safety

variable {i : Instr} {m : HostMove} {mask : BitVec 2} {s t : State}

/-! ### The effect of HASSUPPORT -/

/-- HASSUPPORT has no capability, no immediate and no region to check (41_capability.md R116). -/
theorem precheck_hassupport (hf : s.status.fault = false) : precheck (.hassupport mask) s = .runs :=
  precheck_runs_iff.2 ⟨hf, rfl, rfl, rfl, rfl⟩

/-- HASSUPPORT stores nothing and draws nothing: it probes and completes. -/
theorem effectOf_hassupport (mask : BitVec 2) (s : State) : effectOf (.hassupport mask) s =
    complete (anyCapability (probeCapabilities s).cap mask) none (probeCapabilities s) := rfl

/-- The probe as one update of the cache. -/
theorem probeCapabilities_eq (s : State) : probeCapabilities s =
    { s with capv := true, cap := if s.capv = true then s.cap else capabilityBits s.platform } := by
  apply State.eq_of_fields <;> simp

theorem exec_hassupport (hf : s.status.fault = false) : exec (.hassupport mask) s =
    .next (complete (anyCapability (probeCapabilities s).cap mask) none (probeCapabilities s)) := by
  rw [exec_of_runs (precheck_hassupport hf), effectOf_hassupport]

/-- A faulted engine refuses every command (60_exceptions.md R185). -/
theorem exec_refused (hf : s.status.fault = true) : exec i s = .next s := by
  rw [exec_eq_underChecks, underChecks_refused hf]

/-- Settles O6: the words by the row's mask (`decode_eq_hassupport_iff`), the next state by `exec_hassupport`
with the probe as one update (`probeCapabilities_eq`). -/
theorem hassupportAnswersFromTheCache : Obligations.HassupportAnswersFromTheCache := by
  refine ⟨fun w hw => decode_eq_hassupport_iff.2 ⟨hw, rfl⟩, fun mask s => ⟨exec_refused, fun hf => ?_⟩⟩
  rw [exec_hassupport hf, probeCapabilities_eq]
  rfl

/-! ### What can happen to the cache -/

/-- The cache is in `t` as in `s`. -/
def SameCache (s t : State) : Prop := t.capv = s.capv ∧ t.cap = s.cap

/-- The cache was empty in `s` and holds both hardware facts in `t`. -/
def CacheFilled (s t : State) : Prop :=
  s.capv = false ∧ t.capv = true ∧ t.cap = capabilityBits s.platform

/-- A command that runs leaves the cache alone, or is the first HASSUPPORT (41_capability.md R111). -/
theorem cacheAfter_cases (i : Instr) (s : State) :
    SameCache s (cacheAfter i s) ∨ (∃ mask, i = .hassupport mask) ∧ CacheFilled s (cacheAfter i s) := by
  cases i with
  | hassupport mask =>
    cases hv : s.capv
    · exact .inr ⟨⟨mask, rfl⟩, by simp [CacheFilled, cacheAfter, hv]⟩
    · exact .inl (by simp [SameCache, cacheAfter, hv])
  | _ => exact .inl ⟨rfl, rfl⟩

/-- Everything a command can do to the cache: nothing, or, as the first HASSUPPORT, fill it. -/
theorem exec_cache (h : exec i s = .next t) :
    SameCache s t ∨ (∃ mask, i = .hassupport mask) ∧ CacheFilled s t := by
  rcases exec_cases h with ⟨-, -, rfl⟩ | ⟨c, -, -, rfl⟩ | ⟨-, -, -, rfl⟩ | ⟨-, -, -, rfl⟩
  · exact .inl ⟨rfl, rfl⟩
  · exact .inl ⟨rfl, rfl⟩
  · exact .inl ⟨rfl, rfl⟩
  · simpa [SameCache, CacheFilled] using cacheAfter_cases i s

/-- Everything a move can do to the cache: nothing, fill it with the hardware facts, or, as `RESET`,
empty it. -/
theorem performMove_cache (h : performMove m s = .next t) :
    SameCache s t ∨ CacheFilled s t ∨ (m = .reset ∧ t.capv = false) := by
  cases m with
  | writeCmd w =>
    rcases issueWord_cases h with ⟨-, rfl⟩ | ⟨-, -, rfl⟩ | ⟨-, i, -, he⟩
    · exact .inl ⟨rfl, rfl⟩
    · exact .inl ⟨rfl, rfl⟩
    · exact (exec_cache he).imp_right fun ⟨_, hfill⟩ => .inl hfill
  | reset =>
    cases h
    exact .inr (.inr ⟨rfl, rfl⟩)
  | _ =>
    obtain ⟨-, hv, hc, -⟩ := performMove_other (by simp) (by simp) h
    exact .inl ⟨hv, hc⟩

theorem SameCache.of_valid (h : SameCache s t) (hv : s.capv = true) : t.capv = true ∧ t.cap = s.cap :=
  ⟨h.1.trans hv, h.2⟩

/-- A valid cache is not filled again (41_capability.md R111). -/
theorem not_cacheFilled_of_valid (hv : s.capv = true) : ¬ CacheFilled s t := by
  simp [CacheFilled, hv]

theorem capabilityBits_getLsbD (p : Platform) :
    (capabilityBits p).getLsbD 0 = p.hwAes ∧ (capabilityBits p).getLsbD 1 = p.hwClmul := by
  unfold capabilityBits
  cases p.hwAes <;> cases p.hwClmul <;> decide

/-- Settles O8: a command or a move other than `RESET` that does not keep the cache fills an empty one
(`exec_cache`, `performMove_cache`); the first HASSUPPORT does (`exec_hassupport`). -/
theorem cacheIsWrittenOnce : Obligations.CacheIsWrittenOnce := by
  refine ⟨fun i s t h => ⟨fun hv => ?_, fun hv hi => ?_⟩, fun m rest s t hm hr h hv => ?_,
    fun mask s hf hv => ⟨_, exec_hassupport hf, by simp, ?_⟩⟩
  · rcases exec_cache h with hsame | ⟨-, hfill⟩
    · exact hsame.of_valid hv
    · exact absurd hfill (not_cacheFilled_of_valid hv)
  · rcases exec_cache h with ⟨hcapv, hcap⟩ | ⟨⟨mask, rfl⟩, -⟩
    · exact ⟨hcapv.trans hv, hcap⟩
    · exact absurd rfl (hi mask)
  · rw [step_of_moves hm] at h
    rcases performMove_cache h with hsame | hfill | ⟨hreset, -⟩
    · exact hsame.of_valid hv
    · exact absurd hfill (not_cacheFilled_of_valid hv)
    · exact absurd hreset hr
  · simpa [hv] using capabilityBits_getLsbD s.platform

/-! ### The cache holds the hardware facts -/

/-- Every move keeps a valid cache at the hardware facts (41_capability.md R112). -/
theorem performMove_cacheCorrect (hs : CacheCorrect s) (h : performMove m s = .next t) : CacheCorrect t := by
  intro hv
  rw [performMove_platform h]
  rcases performMove_cache h with ⟨hcapv, hcap⟩ | ⟨-, -, hcap⟩ | ⟨-, hempty⟩
  · exact hcap.trans (hs (hcapv.symm.trans hv))
  · exact hcap
  · exact absurd (hempty.symm.trans hv) Bool.false_ne_true

/-- Every step keeps a valid cache at the hardware facts (41_capability.md R112). -/
theorem step_cacheCorrect (hs : CacheCorrect s) (h : step s = .next t) : CacheCorrect t := by
  cases hm : s.moves with
  | nil =>
    rw [step_of_no_moves hm] at h
    cases h
    exact hs
  | cons m rest =>
    rw [step_of_moves hm] at h
    exact performMove_cacheCorrect (s := takeMove rest s) hs h

/-- Just after a reset there is no valid cache (10_state.md R35). -/
theorem cacheCorrect_of_afterReset (h : AfterReset s) : CacheCorrect s := by
  obtain ⟨-, -, -, -, hempty, -, -⟩ := h
  exact fun hv => absurd (hempty.symm.trans hv) Bool.false_ne_true

/-- Settles O7: from a correct cache HASSUPPORT answers the hardware facts (`anyCapability_facts`); the cache
is correct after reset and stays so (`step_cacheCorrect`). -/
theorem hassupportIsDeterministic : Obligations.HassupportIsDeterministic := by
  refine ⟨fun mask s hs hf => ⟨_, exec_hassupport hf, ?_⟩, fun _ => cacheCorrect_of_afterReset,
    fun s t hs h => ⟨step_cacheCorrect hs h, platformNeverChanges s t h⟩⟩
  rw [complete_status, statusComplete_result, probeCapabilities_cap_of_correct hs, anyCapability_facts]

end Sys2Proof.Machine
end

section
/-! PROOFS. The Block Cipher Engine (42_blockcipher.md): its running accumulator, the bijection of blocks that
each direction is, and the straightforward inverse cipher. -/

namespace Sys2Proof.Machine

variable {r rounds : Nat}

/-! ### The running accumulator -/

section
variable {round final : Block → Block → Block} {rk gk : Nat → Block}

/-- The accumulator of CRYPTBLOCK once keys `0 .. r` are in it (42_blockcipher.md R123). -/
def accumulator (round : Block → Block → Block) (rk : Nat → Block) (input : Block) : Nat → Block
  | 0 => xorBlock input (rk 0)
  | r + 1 => round (accumulator round rk input r) (rk (r + 1))

theorem foldl_rounds_eq_accumulator (input : Block) (n : Nat) :
    (List.range n).foldl (fun acc r => round acc (rk (r + 1))) (xorBlock input (rk 0)) =
      accumulator round rk input n := by
  induction n with
  | zero => rfl
  | succ n ih =>
    rw [List.range_succ, List.foldl_append, ih]
    rfl

/-- Both directions are the final primitive on the accumulator of the rounds before. -/
theorem cryptBlock_eq (input : Block) (rounds : Nat) : cryptBlock round final rounds rk input =
    final (accumulator round rk input (rounds - 1)) (rk rounds) := by
  rw [← foldl_rounds_eq_accumulator]
  rfl

theorem accumulator_congr (input : Block) {n : Nat} (h : ∀ r ≤ n, rk r = gk r) :
    accumulator round rk input n = accumulator round gk input n := by
  induction n with
  | zero => rw [accumulator, accumulator, h 0 le_rfl]
  | succ n ih => rw [accumulator, accumulator, h _ le_rfl, ih fun r hr => h r (by omega)]

/-- The output depends on keys `0 .. rounds` alone (42_blockcipher.md R123). -/
theorem cryptBlock_congr (input : Block) (h : ∀ r ≤ rounds, rk r = gk r) :
    cryptBlock round final rounds rk input = cryptBlock round final rounds gk input := by
  rw [cryptBlock_eq, cryptBlock_eq, h _ le_rfl, accumulator_congr input fun r hr => h r (by omega)]

/-- The chain of accumulator values of 42_blockcipher.md R123, the last one being the output. -/
theorem cryptBlock_chain (round final : Block → Block → Block) (rk : Nat → Block) (input : Block)
    (h : 1 ≤ rounds) :
    ∃ acc : Nat → Block, acc 0 = xorBlock input (rk 0) ∧
      (∀ r, 1 ≤ r → r < rounds → acc r = round (acc (r - 1)) (rk r)) ∧
      acc rounds = final (acc (rounds - 1)) (rk rounds) ∧
      acc rounds = cryptBlock round final rounds rk input := by
  refine ⟨Function.update (accumulator round rk input) rounds (cryptBlock round final rounds rk input),
    ?_, fun r h1 hr => ?_, ?_, Function.update_self ..⟩
  · rw [Function.update_of_ne (by omega), accumulator]
  · obtain ⟨r, rfl⟩ := Nat.exists_eq_add_of_le' h1
    rw [Function.update_of_ne (by omega), Function.update_of_ne (by omega), accumulator, Nat.add_sub_cancel]
  · rw [Function.update_self, Function.update_of_ne (by omega), cryptBlock_eq]

/-! ### Bijections of blocks -/

/-- If every primitive step is invertible in the accumulator, so is the whole (42_blockcipher.md R130). -/
theorem cryptBlock_bijective (hx : ∀ k, Function.Bijective (xorBlock · k))
    (hround : ∀ k, Function.Bijective (round · k)) (hfinal : ∀ k, Function.Bijective (final · k))
    (rounds : Nat) (rk : Nat → Block) : Function.Bijective (cryptBlock round final rounds rk) := by
  have hacc (n : Nat) : Function.Bijective (accumulator round rk · n) := by
    induction n with
    | zero => exact hx _
    | succ n ih => exact (hround _).comp ih
  have heq : cryptBlock round final rounds rk = (final · (rk rounds)) ∘ (accumulator round rk · (rounds - 1)) :=
    funext fun input => cryptBlock_eq input rounds
  rw [heq]
  exact (hfinal _).comp (hacc _)

end

/-- Blocks are finitely many, so what has a left inverse is a bijection, and so is that inverse. -/
theorem bijective_of_leftInverse {f g : Block → Block} (h : ∀ b, g (f b) = b) :
    Function.Bijective f ∧ Function.Bijective g := by
  have := Finite.of_injective be128 be128_injective
  exact ⟨(Function.LeftInverse.injective h).bijective_of_finite,
    (Function.LeftInverse.surjective h).bijective_of_finite⟩

theorem xorBlock_bijective (k : Block) : Function.Bijective (xorBlock · k) :=
  (bijective_of_leftInverse (g := (xorBlock · k)) (xorBlock_xorBlock_cancel · k)).1

theorem subBytes_bijective : Function.Bijective subBytes ∧ Function.Bijective invSubBytes :=
  bijective_of_leftInverse invSubBytes_subBytes

theorem shiftRows_bijective : Function.Bijective shiftRows ∧ Function.Bijective invShiftRows :=
  bijective_of_leftInverse invShiftRows_shiftRows

theorem mixColumns_bijective : Function.Bijective mixColumns ∧ Function.Bijective invMixColumns :=
  bijective_of_leftInverse invMixColumns_mixColumns

theorem aesFinalRound_bijective (k : Block) : Function.Bijective (aesFinalRound · k) :=
  (xorBlock_bijective k).comp (shiftRows_bijective.1.comp subBytes_bijective.1)

theorem aesRound_bijective (k : Block) : Function.Bijective (aesRound · k) :=
  (xorBlock_bijective k).comp (mixColumns_bijective.1.comp (shiftRows_bijective.1.comp subBytes_bijective.1))

theorem aesInvFinalRound_bijective (k : Block) : Function.Bijective (aesInvFinalRound · k) :=
  (xorBlock_bijective k).comp (shiftRows_bijective.2.comp subBytes_bijective.2)

theorem aesInvRound_bijective (k : Block) : Function.Bijective (aesInvRound · k) :=
  (xorBlock_bijective k).comp (mixColumns_bijective.2.comp (shiftRows_bijective.2.comp subBytes_bijective.2))

/-- Settles O14: key addition, rounds and final round are bijections of the accumulator, hence so is their
composition (`cryptBlock_bijective`). -/
theorem blockCipherIsBijective : Obligations.BlockCipherIsBijective := fun rounds rk =>
  ⟨cryptBlock_bijective xorBlock_bijective aesRound_bijective aesFinalRound_bijective rounds rk,
    cryptBlock_bijective xorBlock_bijective aesInvRound_bijective aesInvFinalRound_bijective rounds rk⟩

/-! ### The inverse cipher -/

/-- The inverse round with the key mixed beforehand is the straightforward one: the inverse column mix is
linear, the substitution and the row shift commute (42_blockcipher.md R129). -/
theorem aesInvRound_invMixColumns (y k : Block) : aesInvRound y (invMixColumns k) =
    invMixColumns (xorBlock (invSubBytes (invShiftRows y)) k) := by
  rw [invMixColumns_xorBlock]
  rfl

theorem decryptionKey_last (rounds : Nat) (rk : Nat → Block) : decryptionKey rounds rk rounds = rk 0 := by
  simpa [decryptionKey] using congrArg rk

theorem decryptionKey_interior (rk : Nat → Block) (h0 : 0 < r) (hr : r < rounds) :
    decryptionKey rounds rk r = invMixColumns (rk (rounds - r)) := by
  rw [decryptionKey, if_neg h0.ne', if_neg hr.ne, aesInvMixColumns]

/-- The straightforward inverse cipher goes through the accumulators of decryption: after `j` rounds,
`n - j` are left. -/
theorem plainInverseFrom_accumulator (rk : Nat → Block) (x : Block) {n j : Nat} (hj : j ≤ n) :
    plainInverseFrom rk (n - j) (accumulator aesInvRound (decryptionKey (n + 1) rk) x j) =
      plainInverseFrom rk n (xorBlock x (rk (n + 1))) := by
  induction j with
  | zero => rfl
  | succ j ih =>
    have hstep : n - j = n - (j + 1) + 1 := by omega
    rw [← ih (by omega), hstep, accumulator, plainInverseFrom, decryptionKey_interior rk (by omega) (by omega),
      aesInvRound_invMixColumns, show n + 1 - (j + 1) = n - (j + 1) + 1 by omega]

/-- The Equivalent Inverse Cipher (42_blockcipher.md R129). -/
theorem decryptBlock_decryptionKey (rk : Nat → Block) (x : Block) (h : 1 ≤ rounds) :
    decryptBlock rounds (decryptionKey rounds rk) x = plainInverse rounds rk x := by
  obtain ⟨n, rfl⟩ := Nat.exists_eq_add_of_le' h
  have hacc := plainInverseFrom_accumulator rk x (le_refl n)
  rw [Nat.sub_self, plainInverseFrom] at hacc
  rw [decryptBlock, cryptBlock_eq, decryptionKey_last, Nat.add_sub_cancel, hacc]
  rfl

/-- The straightforward inverse cipher goes back through the accumulators of encryption. -/
theorem plainInverseFrom_shiftRows_subBytes (rk : Nat → Block) (x : Block) (n : Nat) :
    plainInverseFrom rk n (shiftRows (subBytes (accumulator aesRound rk x n))) =
      shiftRows (subBytes (xorBlock x (rk 0))) := by
  induction n with
  | zero => rfl
  | succ n ih =>
    rw [plainInverseFrom, invShiftRows_shiftRows, invSubBytes_subBytes, accumulator, aesRound,
      xorBlock_xorBlock_cancel, invMixColumns_mixColumns, ih]

theorem plainInverse_encryptBlock (rk : Nat → Block) (x : Block) (h : 1 ≤ rounds) :
    plainInverse rounds rk (encryptBlock rounds rk x) = x := by
  obtain ⟨n, rfl⟩ := Nat.exists_eq_add_of_le' h
  rw [encryptBlock, cryptBlock_eq, aesFinalRound, plainInverse, xorBlock_xorBlock_cancel, Nat.add_sub_cancel,
    plainInverseFrom_shiftRows_subBytes, invShiftRows_shiftRows, invSubBytes_subBytes, xorBlock_xorBlock_cancel]

end Sys2Proof.Machine
end

section
/-! PROOFS. Blocks and schedules in memory (20_memory.md R41, R43): a block of a byte string, a block read back
inside what was written, the keys of a stored Round Key Sequence, what a command's own store leaves. -/

namespace Sys2Proof.Machine

variable {i : Instr} {s : State} {r rounds : Nat}

theorem wordOfBytes_congr {bs cs : List Byte} {k l : Nat}
    (h : ∀ j < 4, bs.getD (4 * k + j) 0 = cs.getD (4 * l + j) 0) : wordOfBytes bs k = wordOfBytes cs l :=
  Word32.ext (h 0 (by decide)) (h 1 (by decide)) (h 2 (by decide)) (h 3 (by decide))

/-- A block depends on its sixteen bytes. -/
theorem blockOfBytes_congr {bs cs : List Byte} {k l : Nat}
    (h : ∀ j < 16, bs.getD (16 * k + j) 0 = cs.getD (16 * l + j) 0) : blockOfBytes bs k = blockOfBytes cs l := by
  have hword (m : Nat) (hm : m < 4) : wordOfBytes bs (4 * k + m) = wordOfBytes cs (4 * l + m) := by
    refine wordOfBytes_congr fun j hj => ?_
    have := h (4 * m + j) (by omega)
    rwa [show 4 * (4 * k + m) + j = 16 * k + (4 * m + j) by omega,
      show 4 * (4 * l + m) + j = 16 * l + (4 * m + j) by omega]
  exact Block.ext (hword 0 (by decide)) (hword 1 (by decide)) (hword 2 (by decide)) (hword 3 (by decide))

/-- A block read inside what was written is a block of the bytes written. -/
theorem readBlock_memWrite_inside (m : Memory) (a : Nat) (bs : List Byte) (h : 16 * (r + 1) ≤ bs.length) :
    readBlock (memWrite m a bs) (a + 16 * r) = blockOfBytes bs r := by
  refine blockOfBytes_congr fun j hj => ?_
  rw [Nat.mul_zero, Nat.zero_add, memRead_getD _ _ hj, Nat.add_assoc, memGet_memWrite_inside _ _ (by omega)]

theorem bytesOfSchedule_succ (n : Nat) (keys : Nat → Block) :
    bytesOfSchedule (n + 1) keys = bytesOfSchedule n keys ++ bytesOfBlock (keys (n + 1)) := by
  rw [bytesOfSchedule, List.range_succ, List.flatMap_append, List.flatMap_singleton, bytesOfSchedule]

/-- Block `r` of a Round Key Sequence is key `r` (20_memory.md R43). -/
theorem blockOfBytes_bytesOfSchedule (keys : Nat → Block) (h : r ≤ rounds) :
    blockOfBytes (bytesOfSchedule rounds keys) r = keys r := by
  induction rounds with
  | zero =>
    obtain rfl : r = 0 := by omega
    rfl
  | succ n ih =>
    have hlen := bytesOfSchedule_length n keys
    rw [scheduleBytes] at hlen
    rw [bytesOfSchedule_succ]
    rcases h.lt_or_eq with hlt | rfl
    · rw [← ih (by omega)]
      exact blockOfBytes_congr fun j hj => List.getD_append _ _ _ _ (by omega)
    · refine Eq.trans ?_ (blockOfBytes_bytesOfBlock (keys (n + 1)))
      refine blockOfBytes_congr fun j hj => ?_
      rw [List.getD_append_right _ _ _ _ (by omega), hlen, Nat.add_sub_cancel_left, Nat.mul_zero, Nat.zero_add]

/-- A command writes no byte outside its own store. -/
theorem effectOf_unchangedOutside (i : Instr) (s : State) :
    UnchangedOutside s (effectOf i s) (stored i s).1 (stored i s).2.length := fun a ha => by
  rw [effectOf_mem, memGet_memWrite_outside _ _ ha]

/-- A command that stores one block leaves it there. -/
theorem blockAt_effectOf_of_stored {a : Nat} {b : Block} (h : stored i s = (a, bytesOfBlock b)) :
    blockAt (effectOf i s).mem a = b := by
  rw [effectOf_mem, h, blockAt, readBlock_memWrite_self]

/-- Key `r` of the schedule that a running DERIVEDEC leaves at `P1` (44_inversekey.md R155). -/
theorem blockAt_effectOf_derivedec (s : State) (h : r ≤ rounds) :
    blockAt (effectOf (.derivedec rounds) s).mem (effAddr s .p1 (16 * r)) =
      decryptionKey rounds (roundKeyAt s) r := by
  rw [effectOf_mem]
  refine (readBlock_memWrite_inside _ _ _ ?_).trans (blockOfBytes_bytesOfSchedule _ h)
  rw [show (stored (.derivedec rounds) s).2.length = scheduleBytes rounds from bytesOfSchedule_length _ _,
    scheduleBytes]
  omega

end Sys2Proof.Machine
end

section
/-! PROOFS. The checks command by command (60_exceptions.md R190): what each of them gives, and the regions pointer
by pointer. -/

namespace Sys2Proof.Machine

variable {i : Instr} {s : State} {c : FaultCause} {rounds : Nat}

/-- A first fault is what the check that found it gives (60_exceptions.md R190). -/
theorem exec_of_fault (hf : s.status.fault = false) (h : precheck i s = .fault c) :
    exec i s = .next (withFault c s) := by
  rw [exec_eq_underChecks, underChecks, h, ← raiseFault_first hf]

theorem exec_capabilityAbsent (hf : s.status.fault = false) (hc : capabilityPresent i s.platform = false) :
    exec i s = .next (withFault .capabilityAbsent s) :=
  exec_of_fault hf (by simp [precheck, hf, hc])

theorem exec_roundsInvalid (hf : s.status.fault = false) (hc : capabilityPresent i s.platform = true)
    (hb : bitsAccepted i = true) (hr : roundsAccepted i = false) :
    exec i s = .next (withFault .roundsInvalid s) :=
  exec_of_fault hf (by simp [precheck, hf, hc, hb, hr])

theorem exec_addressFault (hf : s.status.fault = false) (hc : capabilityPresent i s.platform = true)
    (hb : bitsAccepted i = true) (hr : roundsAccepted i = true) (hv : footprintValid i s = false) :
    exec i s = .next (withFault .addressFault s) :=
  exec_of_fault hf (by simp [precheck, hf, hc, hb, hr, hv])

theorem legalRounds_iff : legalRounds rounds = true ↔ rounds = 10 ∨ rounds = 12 ∨ rounds = 14 := by
  simp [legalRounds, or_assoc]

theorem forall_ptrReg_iff {P : PtrReg → Prop} : (∀ r, P r) ↔ P .p0 ∧ P .p1 ∧ P .p2 :=
  ⟨fun h => ⟨h _, h _, h _⟩, fun ⟨h0, h1, h2⟩ r => by cases r <;> assumption⟩

/-- Check 7 pointer by pointer (20_memory.md R48). -/
theorem footprintValid_iff_validAt :
    footprintValid i s = true ↔ ∀ r, 0 < operandBytes i r → ValidAt s r (operandBytes i r) := by
  rw [footprintValid_iff]
  constructor
  · exact fun h r hr => spanValid_iff.1 (h _ (mem_footprint.2 ⟨r, hr, rfl⟩))
  · intro h q hq
    obtain ⟨r, hr, rfl⟩ := mem_footprint.1 hq
    exact spanValid_iff.2 (h r hr)

end Sys2Proof.Machine
end

section
/-! PROOFS. CRYPTBLOCK (42_blockcipher.md): both directions as commands, decryption with the schedule that DERIVEDEC
makes, the round trip. -/

namespace Sys2Proof.Machine

variable {i : Instr} {s d u : State} {rounds : Nat}

/-- Both directions use the same regions (20_memory.md R49). -/
theorem footprintValid_cryptblock_iff (hi : i = .cryptblockEnc rounds ∨ i = .cryptblockDec rounds)
    (hlegal : legalRounds rounds = true) : footprintValid i s = true ↔
      ValidAt s .p0 (16 * (rounds + 1)) ∧ ValidAt s .p1 16 ∧ ValidAt s .p2 16 := by
  rcases hi with rfl | rfl <;>
    simp [footprintValid_iff_validAt, forall_ptrReg_iff, operandBytes, hlegal, scheduleBytes]

/-- The checks of CRYPTBLOCK, which are those of either direction (42_blockcipher.md R120 to R122). -/
theorem cryptblock_checks (hi : i = .cryptblockEnc rounds ∨ i = .cryptblockDec rounds)
    (hf : s.status.fault = false) :
    (s.platform.hwAes = true → rounds = 10 ∨ rounds = 12 ∨ rounds = 14 →
      ValidAt s .p0 (16 * (rounds + 1)) → ValidAt s .p1 16 → ValidAt s .p2 16 → precheck i s = .runs) ∧
    (s.platform.hwAes = false → exec i s = .next (withFault .capabilityAbsent s)) ∧
    (s.platform.hwAes = true → ¬ (rounds = 10 ∨ rounds = 12 ∨ rounds = 14) →
      exec i s = .next (withFault .roundsInvalid s)) ∧
    (s.platform.hwAes = true → rounds = 10 ∨ rounds = 12 ∨ rounds = 14 →
      ¬ (ValidAt s .p0 (16 * (rounds + 1)) ∧ ValidAt s .p1 16 ∧ ValidAt s .p2 16) →
      exec i s = .next (withFault .addressFault s)) := by
  have hcap : capabilityPresent i s.platform = s.platform.hwAes := by rcases hi with rfl | rfl <;> rfl
  have hbits : bitsAccepted i = true := by rcases hi with rfl | rfl <;> rfl
  have hrounds : roundsAccepted i = legalRounds rounds := by rcases hi with rfl | rfl <;> rfl
  rw [← legalRounds_iff, ← hcap, ← hrounds]
  refine ⟨fun hc hr h0 h1 h2 => ?_, exec_capabilityAbsent hf, fun hc hr => ?_, fun hc hr hv => ?_⟩
  · exact precheck_runs_iff.2
      ⟨hf, hc, hbits, hr, (footprintValid_cryptblock_iff hi (hrounds ▸ hr)).2 ⟨h0, h1, h2⟩⟩
  · exact exec_roundsInvalid hf hc hbits (Bool.eq_false_iff.2 hr)
  · exact exec_addressFault hf hc hbits hr
      (Bool.eq_false_iff.2 (mt (footprintValid_cryptblock_iff hi (hrounds ▸ hr)).1 hv))

/-- What a CRYPTBLOCK of either direction leaves when it runs. -/
theorem cryptblock_completes {round final : Block → Block → Block} (hruns : precheck i s = .runs)
    (hstored : stored i s = (effAddr s .p2 0, bytesOfBlock
      (cryptBlock round final rounds (roundKeyAt s) (readBlock s.mem (effAddr s .p1 0)))))
    (hrest : CompletedFrom s (effectOf i s)) (hrounds : 1 ≤ rounds) :
    ∃ (t : State) (acc : Nat → Block), exec i s = .next t ∧
      acc 0 = xorBlock (blockAt s.mem (effAddr s .p1 0)) (blockAt s.mem (effAddr s .p0 0)) ∧
      (∀ r, 1 ≤ r → r < rounds → acc r = round (acc (r - 1)) (blockAt s.mem (effAddr s .p0 (16 * r)))) ∧
      acc rounds = final (acc (rounds - 1)) (blockAt s.mem (effAddr s .p0 (16 * rounds))) ∧
      blockAt t.mem (effAddr s .p2 0) = acc rounds ∧
      acc rounds = cryptBlock round final rounds (roundKeyAt s) (blockAt s.mem (effAddr s .p1 0)) ∧
      UnchangedOutside s t (effAddr s .p2 0) 16 ∧ CompletedFrom s t := by
  obtain ⟨acc, hfirst, hround, hfinal, hlast⟩ :=
    cryptBlock_chain round final (roundKeyAt s) (readBlock s.mem (effAddr s .p1 0)) hrounds
  refine ⟨effectOf i s, acc, exec_of_runs hruns, hfirst, hround, hfinal, ?_, hlast, ?_, hrest⟩
  · rw [blockAt_effectOf_of_stored hstored, hlast]
  · simpa [hstored] using effectOf_unchangedOutside i s

/-- Settles O9: a run by `cryptblock_completes`, the checks in their order by `cryptblock_checks`. -/
theorem encryptionWritesTheCipherBlock : Obligations.EncryptionWritesTheCipherBlock := by
  refine ⟨fun w hw => decode_eq_cryptblockEnc_iff.2 ⟨hw, rfl⟩, fun rounds s => ⟨exec_refused, fun hf => ?_⟩⟩
  obtain ⟨hruns, hchecks⟩ := cryptblock_checks (.inl rfl) hf
  exact ⟨fun haes hr h0 h1 h2 => cryptblock_completes (hruns haes hr h0 h1 h2) rfl rfl (by omega), hchecks⟩

/-- Settles O10: the same two lemmas, with the inverse primitives. -/
theorem decryptionWritesThePlainBlock : Obligations.DecryptionWritesThePlainBlock := by
  refine ⟨fun w hw => decode_eq_cryptblockDec_iff.2 ⟨hw, rfl⟩, fun rounds s => ⟨exec_refused, fun hf => ?_⟩⟩
  obtain ⟨hruns, hchecks⟩ := cryptblock_checks (.inr rfl) hf
  exact ⟨fun haes hr h0 h1 h2 => cryptblock_completes (hruns haes hr h0 h1 h2) rfl rfl (by omega), hchecks⟩

/-! ### Decryption after DERIVEDEC -/

theorem blockAt_effectOf_cryptblockEnc (rounds : Nat) (s : State) :
    blockAt (effectOf (.cryptblockEnc rounds) s).mem (effAddr s .p2 0) =
      encryptBlock rounds (roundKeyAt s) (blockAt s.mem (effAddr s .p1 0)) :=
  blockAt_effectOf_of_stored rfl

/-- CRYPTBLOCK.DEC on the schedule that DERIVEDEC left is the straightforward inverse cipher with the forward
keys that DERIVEDEC read. -/
theorem blockAt_effectOf_cryptblockDec_derived (hrounds : 1 ≤ rounds)
    (hkeys : ∀ r ≤ rounds, roundKeyAt u r =
      blockAt (effectOf (.derivedec rounds) d).mem (effAddr d .p1 (16 * r))) :
    blockAt (effectOf (.cryptblockDec rounds) u).mem (effAddr u .p2 0) =
      plainInverse rounds (roundKeyAt d) (blockAt u.mem (effAddr u .p1 0)) := calc
  _ = decryptBlock rounds (roundKeyAt u) (blockAt u.mem (effAddr u .p1 0)) := blockAt_effectOf_of_stored rfl
  _ = decryptBlock rounds (decryptionKey rounds (roundKeyAt d)) (blockAt u.mem (effAddr u .p1 0)) :=
    cryptBlock_congr _ fun r hr => (hkeys r hr).trans (blockAt_effectOf_derivedec d hr)
  _ = plainInverse rounds (roundKeyAt d) (blockAt u.mem (effAddr u .p1 0)) :=
    decryptBlock_decryptionKey _ _ hrounds

/-- Settles O11: as functions by `decryptBlock_decryptionKey`, as commands by
`blockAt_effectOf_cryptblockDec_derived`. -/
theorem equivalentInverseCipher : Obligations.EquivalentInverseCipher := by
  refine ⟨fun rounds rk x h => decryptBlock_decryptionKey rk x h, fun rounds d u hr hd hu => ?_⟩
  exact ⟨_, exec_of_runs hd, fun hkeys =>
    ⟨_, exec_of_runs hu, blockAt_effectOf_cryptblockDec_derived (by omega) hkeys⟩⟩

/-- Settles O13: CRYPTBLOCK.ENC and DERIVEDEC read the same keys, so the ciphertext is that of the keys the
straightforward inverse cipher takes backwards (`plainInverse_encryptBlock`). -/
theorem roundTripOverCommands : Obligations.RoundTripOverCommands := by
  intro rounds k s d u hr hk hs hd hu
  refine ⟨_, exec_of_runs hk, fun hforward => ⟨_, _, exec_of_runs hs, exec_of_runs hd, fun hderived hcipher =>
    ⟨_, exec_of_runs hu, ?_⟩⟩⟩
  have hsame : ∀ r ≤ rounds, roundKeyAt s r = roundKeyAt d r := fun r hle =>
    (hforward r hle).1.trans (hforward r hle).2.symm
  have hencrypt : encryptBlock rounds (roundKeyAt s) (blockAt s.mem (effAddr s .p1 0)) =
      encryptBlock rounds (roundKeyAt d) (blockAt s.mem (effAddr s .p1 0)) := cryptBlock_congr _ hsame
  rw [blockAt_effectOf_cryptblockDec_derived (by omega) hderived, hcipher, blockAt_effectOf_cryptblockEnc,
    hencrypt, plainInverse_encryptBlock _ _ (by omega)]

end Sys2Proof.Machine
end

section
/-! PROOFS. The words and bytes of a sequence (20_memory.md R43): a piece of a concatenation, a word of a byte string
and of memory, the bytes read back in front of others. -/

namespace Sys2Proof.Machine

variable {m : Memory} {a k len : Nat} {ws : List Word32}

/-- Item `q * k + r` of a concatenation of pieces of `k` items is item `r` of piece `q`. -/
theorem flatMap_getD_const {α β : Type} {f : α → List β} (hf : ∀ x, (f x).length = k) (d : β) {l : List α}
    {q r : Nat} (hq : q < l.length) (hr : r < k) : (l.flatMap f).getD (k * q + r) d = (f l[q]).getD r d := by
  induction l generalizing q with
  | nil => simp at hq
  | cons x l ih =>
    rw [List.flatMap_cons]
    cases q with
    | zero => rw [Nat.mul_zero, Nat.zero_add, List.getD_append _ _ _ _ (by rwa [hf])]; rfl
    | succ q =>
      rw [List.getD_append_right _ _ _ _ (by rw [hf, Nat.mul_succ]; omega), hf,
        show k * (q + 1) + r - k = k * q + r by rw [Nat.mul_succ]; omega, ih (Nat.lt_of_succ_lt_succ hq)]
      rfl

/-- A word read from the bytes of a sequence of words. -/
theorem wordOfBytes_bytesOfWords (hk : k < ws.length) : wordOfBytes (bytesOfWords ws) k = ws.getD k zeroWord := by
  have hbyte (j : Nat) (hj : j < 4) := flatMap_getD_const bytesOfWord_length (0 : Byte) hk hj
  rw [List.getD_eq_getElem _ _ hk]
  exact Word32.ext (hbyte 0 (by decide)) (hbyte 1 (by decide)) (hbyte 2 (by decide)) (hbyte 3 (by decide))

/-- A byte string depends on its words. -/
theorem bytes_ext_of_words {bs cs : List Byte} {n : Nat} (hb : bs.length = 4 * n) (hc : cs.length = 4 * n)
    (h : ∀ k < n, wordOfBytes bs k = wordOfBytes cs k) : bs = cs := by
  refine List.ext_getElem (hb.trans hc.symm) fun i hi hi' => ?_
  have hword := h (i / 4) (by omega)
  have hi4 : i % 4 = 0 ∨ i % 4 = 1 ∨ i % 4 = 2 ∨ i % 4 = 3 := by omega
  rw [← List.getD_eq_getElem bs 0 hi, ← List.getD_eq_getElem cs 0 hi', ← Nat.div_add_mod i 4]
  rcases hi4 with h4 | h4 | h4 | h4 <;> rw [h4]
  · exact congrArg Word32.b0 hword
  · exact congrArg Word32.b1 hword
  · exact congrArg Word32.b2 hword
  · exact congrArg Word32.b3 hword

/-- A word of the bytes read from memory is the word in memory. -/
theorem wordOfBytes_memRead (m : Memory) (a : Nat) (hk : 4 * (k + 1) ≤ len) :
    wordOfBytes (memRead m a len) k = wordAt m (a + 4 * k) := by
  refine wordOfBytes_congr fun j hj => ?_
  rw [memRead_getD _ _ (by omega), Nat.mul_zero, Nat.zero_add, memRead_getD _ _ hj, Nat.add_assoc]

/-- The front of what was written, read back. -/
theorem memRead_memWrite_append (m : Memory) (a : Nat) (bs cs : List Byte) :
    memRead (memWrite m a (bs ++ cs)) a bs.length = bs := by
  refine List.ext_getElem (memRead_length ..) fun i hi hi' => ?_
  rw [← List.getD_eq_getElem _ 0 hi, ← List.getD_eq_getElem _ 0 hi', memRead_getD _ _ hi',
    memGet_memWrite_inside _ _ (by rw [List.length_append]; omega), List.getD_append _ _ _ _ hi']

end Sys2Proof.Machine
end

section
/-! PROOFS. EXPANDKEY (43_keyschedule.md): each variant emits words of the reference recurrence of R136, one step at a
time; the command writes them. -/

namespace Sys2Proof.Machine

variable {s : State} {bits nk nr size total : Nat} {key : List Byte} {ws : List Word32}

/-! ### The reference recurrence -/

/-- What the recurrence adds to word `i - nk`, made from word `i - 1` (43_keyschedule.md R136). -/
def transformed (nk i : Nat) (t : Word32) : Word32 :=
  if i % nk = 0 then xorWord (subWord (rotWord t)) (rconWord (roundConstant (i / nk)))
  else if nk = 8 ∧ i % 8 = 4 then subWord t else t

theorem transformed_first (hnk : 0 < nk) (j : Nat) (t : Word32) :
    transformed nk (nk * j) t = xorWord (subWord (rotWord t)) (rconWord (roundConstant j)) := by
  rw [transformed, if_pos (Nat.mul_mod_right nk j), Nat.mul_div_cancel_left j hnk]

theorem transformed_later {k : Nat} (h0 : 0 < k) (hk : k < nk) (j : Nat) (t : Word32) :
    transformed nk (nk * j + k) t = if nk = 8 ∧ k = 4 then subWord t else t := by
  have hmod : (nk * j + k) % nk = k := by rw [Nat.mul_add_mod, Nat.mod_eq_of_lt hk]
  rw [transformed, hmod, if_neg h0.ne']
  by_cases h8 : nk = 8
  · subst h8
    rw [hmod]
  · simp [h8]

/-- `ws` are the first `total` words of the expansion of a key of `nk` words (43_keyschedule.md R136). -/
structure IsExpansion (nk total : Nat) (key : List Byte) (ws : List Word32) : Prop where
  length : ws.length = total
  key_words : ∀ i < nk, ws.getD i zeroWord = wordOfBytes key i
  recurrence : ∀ i, nk ≤ i → i < total →
    ws.getD i zeroWord = xorWord (ws.getD (i - nk) zeroWord) (transformed nk i (ws.getD (i - 1) zeroWord))

theorem IsExpansion.take {n : Nat} (h : IsExpansion nk total key ws) (hnk : nk ≤ n) (hn : n ≤ total) :
    IsExpansion nk n key (ws.take n) := by
  have hget (i : Nat) (hi : i < n) : (ws.take n).getD i zeroWord = ws.getD i zeroWord := by
    simp [List.getD, hi]
  refine ⟨?_, fun i hi => ?_, fun i hi hin => ?_⟩
  · rw [List.length_take, h.length, Nat.min_eq_left hn]
  · rw [hget i (by omega), h.key_words i hi]
  · rw [hget i hin, hget (i - nk) (by omega), hget (i - 1) (by omega), h.recurrence i hi (by omega)]

/-- The bytes of an expansion begin with the key. -/
theorem IsExpansion.bytes_take (h : IsExpansion nk total key ws) (hnk : nk ≤ total) (hkey : key.length = 4 * nk) :
    (bytesOfWords ws).take (4 * nk) = key := by
  have hlen : (bytesOfWords ws).length = 4 * total := by rw [bytesOfWords_length, h.length]
  refine bytes_ext_of_words (by rw [List.length_take, hlen]; omega) hkey fun k hk => ?_
  calc wordOfBytes ((bytesOfWords ws).take (4 * nk)) k
      = wordOfBytes (bytesOfWords ws) k :=
        wordOfBytes_congr fun j hj => by simp [List.getD, show 4 * k + j < 4 * nk by omega]
    _ = ws.getD k zeroWord := wordOfBytes_bytesOfWords (by rw [h.length]; omega)
    _ = wordOfBytes key k := h.key_words k hk

/-! ### The steps of a variant -/

/-- The state after `j` steps of an expansion, the first of which is step 1 (43_keyschedule.md R137). -/
def stateAfter {α : Type} (step : Nat → α → α) (seed : α) : Nat → α
  | 0 => seed
  | j + 1 => step (j + 1) (stateAfter step seed j)

theorem cons_expansionSteps {α : Type} (step : Nat → α → α) (seed : α) (n j : Nat) :
    stateAfter step seed j :: expansionSteps step n (j + 1) (stateAfter step seed j) =
      (List.range' j (n + 1)).map (stateAfter step seed) := by
  induction n generalizing j with
  | zero => rfl
  | succ n ih =>
    rw [List.range'_succ, List.map_cons, ← ih (j + 1)]
    rfl

/-- One step of a variant makes `nk` words of the recurrence out of the `nk` words before them. -/
structure StepsByRecurrence {α : Type} (nk : Nat) (words : α → List Word32) (step : Nat → α → α) : Prop where
  length : ∀ a, (words a).length = nk
  first : ∀ j a, (words (step j a)).getD 0 zeroWord =
    xorWord ((words a).getD 0 zeroWord) (transformed nk (nk * j) ((words a).getD (nk - 1) zeroWord))
  later : ∀ j a k, 0 < k → k < nk → (words (step j a)).getD k zeroWord =
    xorWord ((words a).getD k zeroWord) (transformed nk (nk * j + k) ((words (step j a)).getD (k - 1) zeroWord))

/-- What such steps emit is the expansion of the key that the seed holds. -/
theorem StepsByRecurrence.isExpansion {α : Type} {words : α → List Word32} {step : Nat → α → α} {seed : α}
    (h : StepsByRecurrence nk words step) (hnk : 0 < nk)
    (hseed : ∀ i < nk, (words seed).getD i zeroWord = wordOfBytes key i) (n : Nat) :
    IsExpansion nk (nk * (n + 1)) key ((seed :: expansionSteps step n 1 seed).flatMap words) := by
  have hstates : seed :: expansionSteps step n 1 seed = (List.range' 0 (n + 1)).map (stateAfter step seed) :=
    cons_expansionSteps step seed n 0
  have hword {q k : Nat} (hq : q ≤ n) (hk : k < nk) :
      ((seed :: expansionSteps step n 1 seed).flatMap words).getD (nk * q + k) zeroWord =
        (words (stateAfter step seed q)).getD k zeroWord := by
    rw [hstates, flatMap_getD_const h.length _ (by simp; omega) hk]
    simp
  refine ⟨?_, fun i hi => ?_, fun i hi hin => ?_⟩
  · rw [length_flatMap_const _ _ nk fun a _ => h.length a, List.length_cons, expansionSteps_length]
  · rw [← hseed i hi]
    simpa only [Nat.mul_zero, Nat.zero_add, stateAfter] using hword (Nat.zero_le n) hi
  · obtain ⟨q, k, hk, rfl⟩ : ∃ q k, k < nk ∧ i = nk * (q + 1) + k := by
      refine ⟨i / nk - 1, i % nk, Nat.mod_lt _ hnk, ?_⟩
      rw [Nat.sub_add_cancel (Nat.div_pos hi hnk), Nat.div_add_mod]
    have hq : q + 1 ≤ n := by
      by_contra hlt
      have := Nat.mul_le_mul_left nk (show n + 1 ≤ q + 1 by omega)
      omega
    have hback : nk * (q + 1) + k - nk = nk * q + k := by rw [Nat.mul_succ]; omega
    rw [hback, hword hq hk, hword (by omega) hk]
    rcases Nat.eq_zero_or_pos k with rfl | h0
    · have hprev : nk * (q + 1) + 0 - 1 = nk * q + (nk - 1) := by rw [Nat.mul_succ]; omega
      rw [hprev, hword (by omega) (by omega)]
      exact h.first (q + 1) _
    · rw [Nat.add_sub_assoc h0, hword hq (by omega)]
      exact h.later (q + 1) _ k h0 hk

/-! ### The three variants -/

/-- Step `j` of the 128-bit variant (43_keyschedule.md R139). -/
theorem step128_stepsByRecurrence : StepsByRecurrence 4 wordsOfBlock step128 where
  length _ := rfl
  first j a := by rw [transformed_first (by decide)]; rfl
  later j a k h0 hk := by
    rw [transformed_later h0 hk, if_neg (by simp)]
    interval_cases k <;> rfl

/-- Step `j` of the 192-bit variant (43_keyschedule.md R143). -/
theorem step192_stepsByRecurrence : StepsByRecurrence 6 words192 step192 where
  length _ := rfl
  first j a := by rw [transformed_first (by decide)]; rfl
  later j a k h0 hk := by
    rw [transformed_later h0 hk, if_neg (by simp)]
    interval_cases k <;> rfl

/-- Step `j` of the 256-bit variant: word 4 is fed by a substituted word (43_keyschedule.md R148). -/
theorem step256_stepsByRecurrence : StepsByRecurrence 8 words256 step256 where
  length _ := rfl
  first j a := by rw [transformed_first (by decide)]; rfl
  later j a k h0 hk := by
    rw [transformed_later h0 hk]
    interval_cases k <;> rfl

theorem expand128_isExpansion (key : List Byte) : IsExpansion 4 44 key (expand128 key) :=
  step128_stepsByRecurrence.isExpansion (by decide) (fun i hi => by interval_cases i <;> rfl) 10

theorem expand192_isExpansion (key : List Byte) : IsExpansion 6 54 key (expand192 key) :=
  step192_stepsByRecurrence.isExpansion (by decide) (fun i hi => by interval_cases i <;> rfl) 8

theorem expand256_isExpansion (key : List Byte) : IsExpansion 8 64 key (expand256 key) :=
  step256_stepsByRecurrence.isExpansion (by decide) (fun i hi => by interval_cases i <;> rfl) 7

/-- A key of `bits` bits has `nk` words (43_keyschedule.md R136). -/
def IsKeySize (bits nk : Nat) : Prop := bits = 128 ∧ nk = 4 ∨ bits = 192 ∧ nk = 6 ∨ bits = 256 ∧ nk = 8

theorem IsKeySize.legalBits (h : IsKeySize bits nk) : legalBits bits = true := by
  rcases h with ⟨rfl, -⟩ | ⟨rfl, -⟩ | ⟨rfl, -⟩ <;> rfl

theorem IsKeySize.bytes_eq (h : IsKeySize bits nk) : bits / 8 = 4 * nk := by
  rcases h with ⟨rfl, rfl⟩ | ⟨rfl, rfl⟩ | ⟨rfl, rfl⟩ <;> rfl

/-- The sequence is the reference expansion, its variant's words but for those beyond it (43_keyschedule.md R136). -/
theorem expandedWords_isExpansion (h : IsKeySize bits nk) (key : List Byte) :
    IsExpansion nk (4 * (roundsOfBits bits + 1)) key (expandedWords bits key) := by
  rcases h with ⟨rfl, rfl⟩ | ⟨rfl, rfl⟩ | ⟨rfl, rfl⟩
  · exact (expand128_isExpansion key).take (by decide) (by decide)
  · exact (expand192_isExpansion key).take (by decide) (by decide)
  · exact (expand256_isExpansion key).take (by decide) (by decide)

/-- The bytes of the sequence begin with the key (43_keyschedule.md R153). -/
theorem bytesOfWords_expandedWords_take (h : IsKeySize bits nk) (hkey : key.length = bits / 8) :
    (bytesOfWords (expandedWords bits key)).take (bits / 8) = key := by
  have hnk : nk ≤ 4 * (roundsOfBits bits + 1) := by
    rcases h with ⟨rfl, rfl⟩ | ⟨rfl, rfl⟩ | ⟨rfl, rfl⟩ <;> decide
  rw [h.bytes_eq] at hkey ⊢
  exact (expandedWords_isExpansion h key).bytes_take hnk hkey

/-- Settles O18: each variant emits an expansion (`StepsByRecurrence.isExpansion`); the sequence determines the key,
being its first bytes. -/
theorem variantsEqualTheRecurrence : Obligations.VariantsEqualTheRecurrence := by
  intro bits nk total expand key hvariant hkey w
  obtain ⟨hsize, hexpand⟩ : IsKeySize bits nk ∧ IsExpansion nk total key (expand key) := by
    rcases hvariant with ⟨rfl, rfl, rfl, rfl⟩ | ⟨rfl, rfl, rfl, rfl⟩ | ⟨rfl, rfl, rfl, rfl⟩
    · exact ⟨.inl ⟨rfl, rfl⟩, expand128_isExpansion key⟩
    · exact ⟨.inr (.inl ⟨rfl, rfl⟩), expand192_isExpansion key⟩
    · exact ⟨.inr (.inr ⟨rfl, rfl⟩), expand256_isExpansion key⟩
  refine ⟨hexpand.length, bytesOfWords_expandedWords_take hsize hkey, hexpand.recurrence,
    fun other hother hne heq => hne ?_⟩
  rw [← bytesOfWords_expandedWords_take hsize hother, heq, bytesOfWords_expandedWords_take hsize hkey]

/-! ### The command -/

theorem legalBits_iff : legalBits bits = true ↔ bits ∈ [128, 192, 256] := by
  simp [legalBits, or_assoc]

/-- The one error, which no address can hide (43_keyschedule.md R152). -/
theorem exec_invalidKeyLength (hf : s.status.fault = false) (haes : s.platform.hwAes = true)
    (hb : bits ∉ [128, 192, 256]) :
    exec (.expandkey bits) s = .next (withResult false (some .invalidKeyLength) s) := by
  have hv : precheck (.expandkey bits) s = .error .invalidKeyLength := by
    simp [precheck, hf, capabilityPresent, haes, bitsAccepted, legalBits_iff, hb]
  rw [exec_eq_underChecks, underChecks, hv]
  rfl

/-- Settles O16: check 5 stands before the addresses (`exec_invalidKeyLength`). -/
theorem invalidKeyLengthTouchesNothing : Obligations.InvalidKeyLengthTouchesNothing :=
  fun _ _ hf haes h128 h192 h256 => exec_invalidKeyLength hf haes (by simp [h128, h192, h256])

/-- Both regions of EXPANDKEY (43_keyschedule.md R135). -/
theorem footprintValid_expandkey_iff (hlegal : legalBits bits = true) : footprintValid (.expandkey bits) s = true ↔
    ValidAt s .p0 (bits / 8) ∧ ValidAt s .p1 (scheduleBytes (roundsOfBits bits) + trailingBytes bits) := by
  have hkey : 0 < bits / 8 := by
    have hmem := legalBits_iff.1 hlegal
    simp only [List.mem_cons, List.not_mem_nil, or_false] at hmem
    omega
  simp [footprintValid_iff_validAt, forall_ptrReg_iff, operandBytes, hlegal, hkey, scheduleBytes]

/-- A running EXPANDKEY leaves the sequence of the key at `P0` in front of what it draws. -/
theorem memRead_effectOf_expandkey (bits : Nat) (s : State) :
    memRead (effectOf (.expandkey bits) s).mem (effAddr s .p1 0) (16 * (roundsOfBits bits + 1)) =
      bytesOfWords (expandedWords bits (memRead s.mem (effAddr s .p0 0) (bits / 8))) := by
  have hlen : 16 * (roundsOfBits bits + 1) =
      (bytesOfWords (expandedWords bits (memRead s.mem (effAddr s .p0 0) (bits / 8)))).length := by
    rw [bytesOfWords_length, expandedWords_length, ← Nat.mul_assoc]
  rw [hlen, effectOf_mem]
  exact memRead_memWrite_append ..

/-- What EXPANDKEY stores is as long as its region (20_memory.md R49). -/
theorem stored_expandkey_length (bits : Nat) (s : State) :
    (stored (.expandkey bits) s).2.length = scheduleBytes (roundsOfBits bits) + trailingBytes bits := by
  rw [stored, List.length_append, bytesOfWords_length, expandedWords_length, drawBytes_length, ← Nat.mul_assoc,
    scheduleBytes]

/-- The numbers of each key size (00_scope.md R8, 20_memory.md R49). -/
theorem keySize_cases
    (h : (bits, nk, nr, size) ∈ [(128, 4, 10, 176), (192, 6, 12, 216), (256, 8, 14, 256)]) :
    IsKeySize bits nk ∧ nr = roundsOfBits bits ∧ size = scheduleBytes (roundsOfBits bits) + trailingBytes bits := by
  simp only [List.mem_cons, Prod.mk.injEq, List.not_mem_nil, or_false] at h
  rcases h with ⟨rfl, rfl, rfl, rfl⟩ | ⟨rfl, rfl, rfl, rfl⟩ | ⟨rfl, rfl, rfl, rfl⟩
  · exact ⟨.inl ⟨rfl, rfl⟩, rfl, rfl⟩
  · exact ⟨.inr (.inl ⟨rfl, rfl⟩), rfl, rfl⟩
  · exact ⟨.inr (.inr ⟨rfl, rfl⟩), rfl, rfl⟩

/-- Settles O15: the sequence in memory (`memRead_effectOf_expandkey`) is the reference expansion of the key
(`expandedWords_isExpansion`); the checks in their order by what each of them gives. -/
theorem keyExpansionFollowsFips197 : Obligations.KeyExpansionFollowsFips197 := by
  refine ⟨fun w hw => decode_eq_expandkey_iff.2 ⟨hw, rfl⟩, fun _ => rfl, fun bits nk nr size s =>
    ⟨exec_refused, fun hf haes => exec_capabilityAbsent hf haes, exec_invalidKeyLength, fun hf haes hsize => ?_⟩⟩
  obtain ⟨hbits, rfl, rfl⟩ := keySize_cases hsize
  have hlegal := hbits.legalBits
  have hkeyBytes := hbits.bytes_eq
  refine ⟨fun hv => ?_, fun h0 h1 => ?_⟩
  · exact exec_addressFault hf haes hlegal rfl (Bool.eq_false_iff.2 (mt (footprintValid_expandkey_iff hlegal).1 hv))
  have hruns : precheck (.expandkey bits) s = .runs :=
    precheck_runs_iff.2 ⟨hf, haes, hlegal, rfl, (footprintValid_expandkey_iff hlegal).2 ⟨h0, h1⟩⟩
  have hmem := memRead_effectOf_expandkey bits s
  have hexpansion := expandedWords_isExpansion hbits (memRead s.mem (effAddr s .p0 0) (bits / 8))
  refine ⟨effectOf (.expandkey bits) s, _, exec_of_runs hruns, fun i hi => ?_, hmem, fun i hi => ?_,
    hexpansion.recurrence, ?_, rfl⟩
  · rw [← wordOfBytes_bytesOfWords (hexpansion.length ▸ hi), ← hmem, wordOfBytes_memRead _ _ (by omega)]
    rfl
  · rw [hexpansion.key_words i hi, wordOfBytes_memRead _ _ (by omega)]
    rfl
  · have hout := effectOf_unchangedOutside (.expandkey bits) s
    rwa [stored_expandkey_length] at hout

end Sys2Proof.Machine
end

section
/-! PROOFS. DERIVEDEC (44_inversekey.md): the command with its checks, and deriving as a bijection of schedules that
is no involution. -/

namespace Sys2Proof.Machine

variable {s : State} {rounds : Nat}

theorem decryptionKey_first (rounds : Nat) (fk : Nat → Block) : decryptionKey rounds fk 0 = fk rounds := rfl

/-! ### The command -/

/-- Both regions of DERIVEDEC are a whole schedule (44_inversekey.md R155). -/
theorem footprintValid_derivedec_iff (hlegal : legalRounds rounds = true) :
    footprintValid (.derivedec rounds) s = true ↔
      ValidAt s .p0 (16 * (rounds + 1)) ∧ ValidAt s .p1 (16 * (rounds + 1)) := by
  simp [footprintValid_iff_validAt, forall_ptrReg_iff, operandBytes, hlegal, scheduleBytes]

/-- A running DERIVEDEC changes no byte outside the schedule it writes (20_memory.md R49). -/
theorem effectOf_derivedec_unchangedOutside (rounds : Nat) (s : State) :
    UnchangedOutside s (effectOf (.derivedec rounds) s) (effAddr s .p1 0) (16 * (rounds + 1)) := by
  have hlen : (stored (.derivedec rounds) s).2.length = 16 * (rounds + 1) := bytesOfSchedule_length _ _
  exact hlen ▸ effectOf_unchangedOutside (.derivedec rounds) s

/-- What DERIVEDEC leaves when it runs, position by position (44_inversekey.md R155, R156). -/
theorem derivedec_completes (hruns : precheck (.derivedec rounds) s = .runs) :
    ∃ t, exec (.derivedec rounds) s = .next t ∧
      blockAt t.mem (effAddr s .p1 0) = blockAt s.mem (effAddr s .p0 (16 * rounds)) ∧
      (∀ i, 0 < i → i < rounds → blockAt t.mem (effAddr s .p1 (16 * i)) =
        aesInvMixColumns (blockAt s.mem (effAddr s .p0 (16 * (rounds - i))))) ∧
      blockAt t.mem (effAddr s .p1 (16 * rounds)) = blockAt s.mem (effAddr s .p0 0) ∧
      (∀ i ≤ rounds, blockAt t.mem (effAddr s .p1 (16 * i)) = decryptionKey rounds (roundKeyAt s) i) ∧
      UnchangedOutside s t (effAddr s .p1 0) (16 * (rounds + 1)) ∧ CompletedFrom s t := by
  have hkey (i : Nat) (hi : i ≤ rounds) := blockAt_effectOf_derivedec s hi
  refine ⟨effectOf (.derivedec rounds) s, exec_of_runs hruns, ?_, fun i h0 hi => ?_, ?_, hkey,
    effectOf_derivedec_unchangedOutside rounds s, rfl⟩
  · exact (hkey 0 (Nat.zero_le _)).trans (decryptionKey_first ..)
  · exact (hkey i hi.le).trans (decryptionKey_interior _ h0 hi)
  · exact (hkey rounds le_rfl).trans (decryptionKey_last ..)

/-- Settles O19: a run by `derivedec_completes`, the checks in their order by what each of them gives. -/
theorem derivationWritesTheInverseSchedule : Obligations.DerivationWritesTheInverseSchedule := by
  refine ⟨fun w hw => decode_eq_derivedec_iff.2 ⟨hw, rfl⟩, fun rounds s => ⟨exec_refused, fun hf => ?_⟩⟩
  rw [← legalRounds_iff]
  refine ⟨fun haes hr h0 h1 => derivedec_completes (precheck_runs_iff.2 ?_),
    fun haes => exec_capabilityAbsent hf haes, fun haes hr => ?_, fun haes hr hv => ?_⟩
  · exact ⟨hf, haes, rfl, hr, (footprintValid_derivedec_iff hr).2 ⟨h0, h1⟩⟩
  · exact exec_roundsInvalid hf haes rfl (Bool.eq_false_iff.2 hr)
  · exact exec_addressFault hf haes rfl hr (Bool.eq_false_iff.2 (mt (footprintValid_derivedec_iff hr).1 hv))

/-! ### Deriving as a map of schedules -/

/-- What deriving does to the key it takes to position `i`: the end keys are copied, the interior ones mixed. -/
def keyTransform (rounds i : Nat) : Block → Block := if i = 0 ∨ i = rounds then id else invMixColumns

/-- Deriving reverses the order of the keys and transforms each (44_inversekey.md R156). -/
theorem decryptionKey_eq_keyTransform (fk : Nat → Block) {i : Nat} (hi : i ≤ rounds) :
    decryptionKey rounds fk i = keyTransform rounds i (fk (rounds - i)) := by
  rcases Nat.eq_zero_or_pos i with rfl | h0
  · simp [decryptionKey_first, keyTransform]
  rcases hi.eq_or_lt with rfl | hlt
  · simp [decryptionKey_last, keyTransform]
  · simp [decryptionKey_interior fk h0 hlt, keyTransform, h0.ne', hlt.ne]

theorem keyTransform_bijective (rounds i : Nat) : Function.Bijective (keyTransform rounds i) := by
  rw [keyTransform]
  split
  · exact Function.bijective_id
  · exact mixColumns_bijective.2

/-- The derived keys determine the forward keys. -/
theorem decryptionKey_injective {fk gk : Nat → Block}
    (h : ∀ i ≤ rounds, decryptionKey rounds fk i = decryptionKey rounds gk i) {i : Nat} (hi : i ≤ rounds) :
    fk i = gk i := by
  have hpos := h (rounds - i) (Nat.sub_le ..)
  rw [decryptionKey_eq_keyTransform fk (Nat.sub_le ..), decryptionKey_eq_keyTransform gk (Nat.sub_le ..),
    Nat.sub_sub_self hi] at hpos
  exact (keyTransform_bijective rounds (rounds - i)).injective hpos

/-- Any schedule is derived from some forward keys. -/
theorem decryptionKey_surjective (rounds : Nat) (dk : Nat → Block) :
    ∃ fk : Nat → Block, ∀ i ≤ rounds, decryptionKey rounds fk i = dk i := by
  choose fk hfk using fun i => (keyTransform_bijective rounds (rounds - i)).surjective (dk (rounds - i))
  refine ⟨fk, fun i hi => ?_⟩
  have hpos := hfk (rounds - i)
  rwa [Nat.sub_sub_self hi, ← decryptionKey_eq_keyTransform fk hi] at hpos

theorem decryptionKey_twice_interior (fk : Nat → Block) {i : Nat} (h0 : 0 < i) (hi : i < rounds) :
    decryptionKey rounds (decryptionKey rounds fk) i = invMixColumns (invMixColumns (fk i)) := by
  rw [decryptionKey_interior _ h0 hi, decryptionKey_interior _ (by omega) (by omega), Nat.sub_sub_self hi.le]

theorem invMixColumn_twice (a : Word32) : invMixColumn (invMixColumn a) = circulant ⟨5, 0, 4, 0⟩ a := by
  have hsquare : circulant ⟨14, 9, 13, 11⟩ ⟨14, 11, 13, 9⟩ = ⟨5, 0, 4, 0⟩ := by decide
  rw [invMixColumn_eq_circulant, invMixColumn_eq_circulant, circulant_circulant, hsquare]

theorem invMixColumn_four_times (a : Word32) :
    invMixColumn (invMixColumn (invMixColumn (invMixColumn a))) = a := by
  have hsquare : circulant ⟨5, 0, 4, 0⟩ ⟨5, 0, 4, 0⟩ = ⟨1, 0, 0, 0⟩ := by decide
  rw [invMixColumn_twice, invMixColumn_twice, circulant_circulant, hsquare, circulant_one]

/-- The inverse column mix is the identity after four times (44_inversekey.md R160). -/
theorem invMixColumns_four_times (b : Block) :
    invMixColumns (invMixColumns (invMixColumns (invMixColumns b))) = b := by
  simp only [invMixColumns, invMixColumn_four_times]

/-- Settles O20: deriving reverses the order and transforms each key by a bijection (`keyTransform_bijective`);
the square of the inverse column mix is a circulant matrix other than 1, whose square is 1
(`invMixColumn_twice`, `invMixColumn_four_times`). -/
theorem derivationIsBijectiveNotInvolutive : Obligations.DerivationIsBijectiveNotInvolutive := by
  refine ⟨fun rounds fk gk h i hi => decryptionKey_injective h hi, decryptionKey_surjective,
    fun rounds fk _ => ⟨?_, ?_, fun i h0 hi => decryptionKey_twice_interior fk h0 hi⟩,
    ⟨blockBe 1, ?_⟩, invMixColumns_four_times⟩
  · rw [decryptionKey_first, decryptionKey_last]
  · rw [decryptionKey_last, decryptionKey_first]
  · decide

end Sys2Proof.Machine
end

section
/-! PROOFS. Linear maps on bit vectors: how they are built, and what they do to a sum of doublings; widening,
shifting and the two lanes of a 128-bit value as such maps. -/

namespace Sys2Proof.Machine

variable {u v w n : Nat}

theorem XorLinear.comp {g : BitVec v → BitVec w} {f : BitVec u → BitVec v} (hg : XorLinear g) (hf : XorLinear f) :
    XorLinear fun x => g (f x) := fun x y => (congrArg g (hf x y)).trans (hg _ _)

theorem XorLinear.xor {f g : BitVec v → BitVec w} (hf : XorLinear f) (hg : XorLinear g) :
    XorLinear fun x => f x ^^^ g x := by
  intro x y
  simp only [hf x y, hg x y]
  ac_rfl

theorem setWidth_linear : XorLinear fun x : BitVec v => x.setWidth w := fun _ _ => BitVec.setWidth_xor

theorem ushiftRight_linear (k : Nat) : XorLinear fun x : BitVec w => x >>> k :=
  fun _ _ => BitVec.ushiftRight_xor_distrib ..

theorem extractLsb'_linear (start len : Nat) : XorLinear fun x : BitVec w => x.extractLsb' start len :=
  fun _ _ => BitVec.extractLsb'_xor

section
variable {D : BitVec w → BitVec w} {p q : Nat → Bool} {y : BitVec w}

theorem doublingSum_congr (h : ∀ i < n, p i = q i) : doublingSum D p n y = doublingSum D q n y := by
  induction n with
  | zero => rfl
  | succ n ih => rw [doublingSum, doublingSum, ih fun i hi => h i (hi.trans n.lt_succ_self), h n n.lt_succ_self]

/-- The later terms of a sum are a sum of the later doublings. -/
theorem doublingSum_add (m : Nat) : doublingSum D p (m + n) y =
    doublingSum D p m y ^^^ doublingSum D (fun i => p (m + i)) n (D^[m] y) := by
  induction n with
  | zero => exact BitVec.xor_zero.symm
  | succ n ih =>
    rw [← Nat.add_assoc, doublingSum, ih, doublingSum, BitVec.xor_assoc, ← Function.iterate_add_apply,
      Nat.add_comm n m]

/-- Two linear maps that agree on the doublings, term by term, agree on the sums. -/
theorem XorLinear.map_doublingSum_eq {f : BitVec w → BitVec u} {g : BitVec v → BitVec u} {E : BitVec v → BitVec v}
    {z : BitVec v} (hf : XorLinear f) (hg : XorLinear g) (h : ∀ i < n, f (D^[i] y) = g (E^[i] z)) :
    f (doublingSum D p n y) = g (doublingSum E p n z) := by
  induction n with
  | zero => exact hf.map_zero.trans hg.map_zero.symm
  | succ n ih =>
    rw [doublingSum, doublingSum, hf, hg, hf.map_ite_zero, hg.map_ite_zero,
      ih fun i hi => h i (hi.trans n.lt_succ_self), h n n.lt_succ_self]

end

/-- Linear maps that agree on the single bits below `v` agree on the values of `v` bits. -/
theorem XorLinear.eq_of_twoPow {f g : BitVec w → BitVec u} (hf : XorLinear f) (hg : XorLinear g)
    (h : ∀ i < v, f (BitVec.twoPow w i) = g (BitVec.twoPow w i)) (x : BitVec v) :
    f (x.setWidth w) = g (x.setWidth w) := by
  have hbits : ∀ i < v, (fun x : BitVec w => x <<< 1)^[i] 1#w = BitVec.twoPow w i :=
    fun i _ => shiftLeft_iterate_one i
  rw [← doublingSum_unit hbits x]
  exact hf.map_doublingSum_eq hg fun i hi => by rw [hbits i hi, h i hi]

/-- Widening commutes with a shift that loses no bit. -/
theorem setWidth_shiftLeft_of_add_le {k : Nat} (x : BitVec u) (h : u + k ≤ v) :
    (x.setWidth v <<< k).setWidth w = x.setWidth w <<< k := by
  apply BitVec.eq_of_getLsbD_eq
  intro j hj
  simp only [BitVec.getLsbD_setWidth, BitVec.getLsbD_shiftLeft]
  by_cases hlow : j < v
  · simp [hlow, hj, show j - k < v by omega, show j - k < w by omega]
  · simp [hlow, BitVec.getLsbD_of_ge x (j - k) (by omega)]

theorem setWidth_append_eq_xor (x : BitVec u) (y : BitVec v) :
    (x ++ y).setWidth w = x.setWidth w <<< v ^^^ y.setWidth w := by
  apply BitVec.eq_of_getLsbD_eq
  intro j hj
  simp only [BitVec.getLsbD_xor, BitVec.getLsbD_setWidth, BitVec.getLsbD_shiftLeft, BitVec.getLsbD_append]
  by_cases hlow : j < v
  · simp [hlow]
  · simp [hlow, hj, BitVec.getLsbD_of_ge y j (by omega), show j - v < w by omega]

theorem append_qwords (x : BitVec 128) : qword x 1 ++ qword x 0 = x :=
  BitVec.extractLsb'_append_extractLsb' (w := 64) (len := 64)

theorem setWidth_eq_qwords (x : BitVec 128) :
    x.setWidth w = (qword x 1).setWidth w <<< 64 ^^^ (qword x 0).setWidth w := by
  rw [← setWidth_append_eq_xor, append_qwords]

theorem shiftLeft_doublingSum (k : Nat) (p : Nat → Bool) (x : BitVec w) :
    doublingSum (fun x => x <<< 1) p n x <<< k = doublingSum (fun x => x <<< 1) p n (x <<< k) :=
  map_doublingSum (shiftLeft_linear k)
    (fun z => show z <<< 1 <<< k = z <<< k <<< 1 by
      rw [← BitVec.shiftLeft_add, ← BitVec.shiftLeft_add, Nat.add_comm]) x

/-- The terms of a 128-bit factor, lane by lane. -/
theorem doublingSum_qwords (D : BitVec w → BitVec w) (y : BitVec 128) (z : BitVec w) :
    doublingSum D y.getLsbD 128 z =
      doublingSum D (qword y 0).getLsbD 64 z ^^^ doublingSum D (qword y 1).getLsbD 64 (D^[64] z) := by
  refine (doublingSum_add (p := y.getLsbD) (n := 64) 64).trans (congrArg₂ (· ^^^ ·) ?_ ?_)
  · exact doublingSum_congr fun i hi => by rw [qword_getLsbD y 0 hi, Nat.mul_zero, Nat.zero_add]
  · exact doublingSum_congr fun i hi => (qword_getLsbD y 1 hi).symm

end Sys2Proof.Machine
end

section
/-! PROOFS. The wide product (45_gfmul.md R167): carry-less, a sum of doublings like the 64-bit products it is made
of, hence linear; symmetric; its two forms and its top bit. -/

namespace Sys2Proof.Machine

/-- The 64-bit product, widened, is the same sum taken in 256 bits. -/
theorem clmul64_setWidth (a b : BitVec 64) :
    (clmul64 a b).setWidth 256 = doublingSum (fun x => x <<< 1) b.getLsbD 64 (a.setWidth 256) := by
  rw [clmul64_eq_doublingSum]
  refine setWidth_linear.map_doublingSum_eq (g := id) (fun _ _ => rfl) fun i hi => ?_
  rw [shiftLeft_iterate, setWidth_shiftLeft_of_add_le a (by omega), ← shiftLeft_iterate]
  rfl

/-- The four 64-bit products are the terms of the 128-bit product, factor lane by factor lane. -/
theorem clmulWide_eq_doublingSum (x y : BitVec 128) :
    clmulWide x y = doublingSum (fun z => z <<< 1) y.getLsbD 128 (x.setWidth 256) := by
  rw [doublingSum_qwords, shiftLeft_iterate, setWidth_eq_qwords x]
  simp only [clmulWide, BitVec.setWidth_xor, clmul64_setWidth, shiftLeft_doublingSum,
    BitVec.shiftLeft_xor_distrib, doublingSum_linear (shiftLeft_linear 1) _ _ _ _, ← BitVec.shiftLeft_add]
  ac_rfl

theorem clmulWide_linear (x : BitVec 128) : XorLinear (clmulWide x) := by
  intro y z
  simp only [clmulWide_eq_doublingSum]
  exact doublingSum_bits_linear _ _ _ y z

theorem clmulWide_eq_foldl (x y : BitVec 128) : clmulWide x y = (List.range 128).foldl
    (fun acc i => if y.getLsbD i then acc ^^^ (x.setWidth 256 <<< i) else acc) 0#256 := by
  have h := foldl_doublings (D := fun z => z <<< 1) (p := y.getLsbD) (n := 128) (y := x.setWidth 256)
  simp only [shiftLeft_iterate] at h
  rw [h, clmulWide_eq_doublingSum]

theorem append_quarters (a b c d : BitVec 64) : a ++ (b ++ (c ++ d)) =
    a.setWidth 256 <<< 192 ^^^ (b.setWidth 256 <<< 128 ^^^ (c.setWidth 256 <<< 64 ^^^ d.setWidth 256)) := by
  rw [← setWidth_append_eq_xor, ← setWidth_append_eq_xor, ← setWidth_append_eq_xor, BitVec.setWidth_eq]

/-- Three values placed at the bits 128, 64 and 0, quarter by quarter. -/
theorem xor_at_quarters (d g c : BitVec 128) :
    (d.setWidth 256 <<< 128) ^^^ (g.setWidth 256 <<< 64) ^^^ c.setWidth 256 =
      qword d 1 ++ ((qword d 0 ^^^ qword g 1) ++ ((qword c 1 ^^^ qword g 0) ++ qword c 0)) := by
  rw [append_quarters, setWidth_eq_qwords d, setWidth_eq_qwords g, setWidth_eq_qwords c,
    BitVec.xor_comm (qword c 1)]
  simp only [BitVec.setWidth_xor, BitVec.shiftLeft_xor_distrib, ← BitVec.shiftLeft_add, Nat.reduceAdd,
    BitVec.xor_assoc]

theorem clmulWide_msb (x y : BitVec 128) : (clmulWide x y).getLsbD 255 = false := by
  simpa [clmulWide] using clmul64_msb (qword x 1) (qword y 1)

theorem clmulWide_comm (x y : BitVec 128) : clmulWide x y = clmulWide y x := by
  simp only [clmulWide, clmul64_comm (qword y _), BitVec.xor_comm (clmul64 (qword x 1) _)]

/-- Settles O24: the spliced products, quarter by quarter (`xor_at_quarters`), are the one sum of doublings
(`clmulWide_eq_doublingSum`), written as a loop; the top bit is that of the high product. -/
theorem wideProductIsCarryless : Obligations.WideProductIsCarryless := fun x y =>
  ⟨⟨rfl, xor_at_quarters _ _ _⟩, clmulWide_eq_foldl x y, clmulWide_msb x y⟩

end Sys2Proof.Machine
end

section
/-! PROOFS. The reduction (45_gfmul.md R169) in both forms, as a linear map; the product as the one of the bit-serial
reference multiplier (R172, R173). -/

namespace Sys2Proof.Machine

/-! ### The reduction -/

/-- The folding value `h` of the reduction (45_gfmul.md R169), in its form of 128 bits. -/
def foldLow (lo : BitVec 128) : BitVec 128 := lo ^^^ (lo <<< 127) ^^^ (lo <<< 126) ^^^ (lo <<< 121)

/-- A shift of 64 or more leaves the low lane 0. -/
theorem shiftLeft_lane (x : BitVec 128) (k : Nat) : x <<< (64 + k) = (qword x 0 <<< k) ++ 0#64 := by
  apply BitVec.eq_of_getLsbD_eq
  intro j hj
  simp only [BitVec.getLsbD_shiftLeft, BitVec.getLsbD_append, BitVec.getLsbD_zero]
  by_cases hlow : j < 64
  · simp [hlow, show j < 64 + k by omega]
  · simp [hlow, hj, qword, show j - 64 < 64 by omega, Nat.sub_sub, show j - (64 + k) < 64 by omega,
      show j < 64 + k ↔ j - 64 < k by omega]

/-- The two forms of `h` (45_gfmul.md R169): the shifts bring the low lane into the high one and
leave nothing else. -/
theorem foldLow_eq_append (lo : BitVec 128) : foldLow lo =
    (qword lo 1 ^^^ (qword lo 0 <<< 63 ^^^ qword lo 0 <<< 62 ^^^ qword lo 0 <<< 57)) ++ qword lo 0 := by
  calc
    foldLow lo = (qword lo 1 ++ qword lo 0) ^^^ (qword lo 0 <<< 63 ++ 0#64) ^^^ (qword lo 0 <<< 62 ++ 0#64)
        ^^^ (qword lo 0 <<< 57 ++ 0#64) := by
      rw [append_qwords, foldLow, shiftLeft_lane lo 63, shiftLeft_lane lo 62, shiftLeft_lane lo 57]
    _ = _ := by
      rw [BitVec.xor_append, BitVec.xor_append, BitVec.xor_append]
      simp only [BitVec.xor_zero, BitVec.xor_assoc]

theorem reduceGf_eq_foldLow (x : BitVec 256) : reduceGf x = x.extractLsb' 128 128 ^^^ foldLow (x.extractLsb' 0 128)
    ^^^ (foldLow (x.extractLsb' 0 128) >>> 1) ^^^ (foldLow (x.extractLsb' 0 128) >>> 2)
    ^^^ (foldLow (x.extractLsb' 0 128) >>> 7) := by
  rw [foldLow_eq_append, ← BitVec.setWidth_eq (_ ++ _), BitVec.setWidth_append_eq_shiftLeft_setWidth_or]
  rfl

/-- Settles O25: `foldLow` is the equivalent form, `foldLow_eq_append` turns it into the listed one. -/
theorem reductionHasBothForms : Obligations.ReductionHasBothForms := by
  intro x
  have h := foldLow_eq_append (x.extractLsb' 0 128)
  refine ⟨(reduceGf_eq_foldLow x).trans ?_, h.symm⟩
  rw [h]
  rfl

theorem foldLow_linear : XorLinear foldLow := by
  have hid : XorLinear (id : BitVec 128 → BitVec 128) := fun _ _ => rfl
  exact ((hid.xor (shiftLeft_linear 127)).xor (shiftLeft_linear 126)).xor (shiftLeft_linear 121)

theorem reduceGf_linear : XorLinear reduceGf := by
  have hlow : XorLinear fun x : BitVec 256 => foldLow (x.extractLsb' 0 128) :=
    foldLow_linear.comp (extractLsb'_linear 0 128)
  rw [funext reduceGf_eq_foldLow]
  exact ((((extractLsb'_linear 128 128).xor hlow).xor ((ushiftRight_linear 1).comp hlow)).xor
    ((ushiftRight_linear 2).comp hlow)).xor ((ushiftRight_linear 7).comp hlow)

/-! ### The reference multiplier -/

theorem refDouble_eq (v : BitVec 128) :
    refDouble v = v >>> 1 ^^^ if v.getLsbD 0 then 0xE1#128 <<< 120 else 0#128 := by
  rw [refDouble]
  split
  · rfl
  · exact BitVec.xor_zero.symm

theorem refDouble_linear : XorLinear refDouble := by
  intro x y
  simp only [refDouble_eq, BitVec.getLsbD_xor, ite_xor_zero, BitVec.ushiftRight_xor_distrib]
  ac_rfl

/-- Doubling undoes one left shift below the reduction, bit by bit. -/
theorem refDouble_reduceGf_twoPow : ∀ i < 255,
    refDouble (reduceGf (BitVec.twoPow 256 i <<< 1)) = reduceGf (BitVec.twoPow 256 i) := by decide +kernel

/-- In the reflected order a left shift divides by `x` and doubling multiplies by it: both sides are linear, so the
single bits decide. -/
theorem refDouble_reduceGf_shiftLeft (x : BitVec 255) :
    refDouble (reduceGf (x.setWidth 256 <<< 1)) = reduceGf (x.setWidth 256) :=
  (refDouble_linear.comp (reduceGf_linear.comp (shiftLeft_linear 1))).eq_of_twoPow reduceGf_linear
    refDouble_reduceGf_twoPow x

/-- The high half is already reduced. -/
theorem reduceGf_high (y : BitVec 128) : reduceGf (y.setWidth 256 <<< 128) = y := by
  have hlo : (y.setWidth 256 <<< 128).extractLsb' 0 128 = 0#128 := by
    rw [← BitVec.setWidth_eq_extractLsb' (by omega), BitVec.setWidth_shiftLeft_of_le (by omega),
      BitVec.shiftLeft_eq_zero le_rfl]
  have hhi : (y.setWidth 256 <<< 128).extractLsb' 128 128 = y := by
    ext j hj
    simp [hj, show 128 + j < 256 by omega]
  rw [reduceGf_eq_foldLow, hlo, hhi, foldLow_linear.map_zero]
  simp

/-- The last `n` iterations of `RefMul` add up the reduced terms of the `n` low bits of `x`: `V` is the reduced
`y <<< n` all along. -/
theorem refMulFrom_eq (x y : BitVec 128) {n : Nat} (hn : n ≤ 128) (z : BitVec 128) :
    refMulFrom x n (128 - n) z (reduceGf (y.setWidth 256 <<< n)) =
      z ^^^ reduceGf (doublingSum (fun v => v <<< 1) x.getLsbD n (y.setWidth 256 <<< 1)) := by
  induction n generalizing z with
  | zero => rw [refMulFrom, doublingSum, reduceGf_linear.map_zero, BitVec.xor_zero]
  | succ n ih =>
    have hdouble : refDouble (reduceGf (y.setWidth 256 <<< (n + 1))) = reduceGf (y.setWidth 256 <<< n) := by
      rw [BitVec.shiftLeft_add, ← setWidth_shiftLeft_of_add_le (v := 255) y (by omega),
        refDouble_reduceGf_shiftLeft]
    have hbit : 127 - (128 - (n + 1)) = n := by omega
    have hnext : 128 - (n + 1) + 1 = 128 - n := by omega
    rw [refMulFrom, hdouble, hbit, hnext, ih (by omega), doublingSum, reduceGf_linear, reduceGf_linear.map_ite_zero,
      shiftLeft_iterate, ← BitVec.shiftLeft_add, Nat.add_comm 1 n]
    cases x.getLsbD n
    · simp
    · simp only [if_true]
      ac_rfl

theorem reduceGf_clmulWide_eq_refMul (x y : BitVec 128) : reduceGf (clmulWide x y <<< 1) = refMul x y := by
  have h := refMulFrom_eq x y le_rfl 0#128
  rw [BitVec.zero_xor, ← shiftLeft_doublingSum, ← clmulWide_eq_doublingSum, reduceGf_high, clmulWide_comm] at h
  exact h.symm

theorem gfProduct_eq_refMul (a b : Block) : gfProduct a b = blockBe (refMul (be128 a) (be128 b)) :=
  congrArg blockBe (reduceGf_clmulWide_eq_refMul _ _)

theorem gfProduct_comm (a b : Block) : gfProduct a b = gfProduct b a := by
  rw [gfProduct, clmulWide_comm, gfProduct]

@[simp] theorem gfProduct_zeroBlock (a : Block) : gfProduct a zeroBlock = zeroBlock := by
  have hzero : be128 zeroBlock = 0#128 := rfl
  rw [gfProduct, hzero, (clmulWide_linear _).map_zero]
  decide

/-- Settles O22: the iterations of `RefMul` are the terms of the reduced wide product (`refMulFrom_eq`), which is
symmetric and linear. -/
theorem fieldProductIsTheReferenceProduct : Obligations.FieldProductIsTheReferenceProduct := fun a b =>
  ⟨gfProduct_eq_refMul a b, gfProduct_comm a b, gfProduct_zeroBlock a⟩

end Sys2Proof.Machine
end

section
/-! PROOFS. GFMUL (45_gfmul.md R165): the command with its checks. -/

namespace Sys2Proof.Machine

variable {s : State}

/-- The three regions of GFMUL are one block each (20_memory.md R49). -/
theorem footprintValid_gfmul_iff :
    footprintValid .gfmul s = true ↔ ValidAt s .p0 16 ∧ ValidAt s .p1 16 ∧ ValidAt s .p2 16 := by
  simp [footprintValid_iff_validAt, forall_ptrReg_iff, operandBytes]

/-- What GFMUL leaves when it runs. -/
theorem gfmul_completes (hruns : precheck .gfmul s = .runs) :
    ∃ t, exec .gfmul s = .next t ∧ blockAt t.mem (effAddr s .p2 0) =
        gfProduct (blockAt s.mem (effAddr s .p0 0)) (blockAt s.mem (effAddr s .p1 0)) ∧
      UnchangedOutside s t (effAddr s .p2 0) 16 ∧ CompletedFrom s t :=
  ⟨effectOf .gfmul s, exec_of_runs hruns, blockAt_effectOf_of_stored rfl, effectOf_unchangedOutside .gfmul s, rfl⟩

/-- Settles O21: a run by `gfmul_completes`, the checks in their order by what each of them gives; the example by
evaluation. -/
theorem gfmulWritesTheProduct : Obligations.GfmulWritesTheProduct := by
  refine ⟨fun w hw => decode_eq_gfmul_iff.2 hw, by decide +kernel, fun s => ⟨exec_refused, fun hf =>
    ⟨fun hc h0 h1 h2 => ?_, fun hc => exec_capabilityAbsent hf hc, fun hc hv => ?_⟩⟩⟩
  · obtain ⟨t, hexec, hproduct, hframe, hrest⟩ :=
      gfmul_completes (precheck_runs_iff.2 ⟨hf, hc, rfl, rfl, footprintValid_gfmul_iff.2 ⟨h0, h1, h2⟩⟩)
    exact ⟨t, _, _, _, hexec, rfl, rfl, rfl, hproduct, rfl, hframe, hrest⟩
  · exact exec_addressFault hf hc rfl rfl (Bool.eq_false_iff.2 (mt footprintValid_gfmul_iff.1 hv))

end Sys2Proof.Machine
end

section
/-! PROOFS. The checks of all commands in their order (60_exceptions.md R190), and the faulted engine until `RESET`
(R185). -/

namespace Sys2Proof.Machine

variable {i : Instr} {m : HostMove} {w : CmdWord} {s t : State} {p : Platform} {a len rounds : Nat}

/-! ### The faulted engine -/

/-- A faulted engine refuses every word, legal or not (60_exceptions.md R185). -/
theorem issueWord_refused (hf : s.status.fault = true) (w : CmdWord) : issueWord w s = .next s := by
  rw [issueWord, if_pos hf]

/-- On a faulted engine every move but `RESET` keeps `STATUS` and the cache: a command is refused, and the other
moves never write them (60_exceptions.md R185). -/
theorem performMove_faulted (hf : s.status.fault = true) (hr : m ≠ .reset) (h : performMove m s = .next t) :
    t.status = s.status ∧ t.capv = s.capv ∧ t.cap = s.cap := by
  by_cases hw : ∃ w, m = .writeCmd w
  · obtain ⟨w, rfl⟩ := hw
    cases (issueWord_refused hf w).symm.trans h
    exact ⟨rfl, rfl, rfl⟩
  · obtain ⟨hs, hv, hc, -⟩ := performMove_other (not_exists.1 hw) hr h
    exact ⟨hs, hv, hc⟩

/-- Settles O37: what is kept by `performMove_faulted`, a word by `issueWord_refused`, each of the other moves by
what it does on any engine. -/
theorem faultIsStickyUntilReset : Obligations.FaultIsStickyUntilReset := by
  intro m rest s t hf hm h
  rw [step_of_moves hm] at h
  refine ⟨fun hr => performMove_faulted (s := takeMove rest s) hf hr h, ?_, ?_, ?_, ?_, ?_, ?_⟩
  · rintro w rfl
    cases (issueWord_refused (s := takeMove rest s) hf w).symm.trans h
    rfl
  · rintro r rfl
    cases h
    cases r <;> rfl
  · rintro r v rfl
    cases h
    simp
  · rintro addr n rfl
    obtain ⟨-, rfl⟩ := performMove_load h
    rfl
  · rintro addr bytes rfl
    obtain ⟨-, rfl⟩ := performMove_store h
    exact memRead_memWrite_self ..
  · rintro rfl
    cases h
    rfl

/-! ### The checks in their order -/

theorem spanValid_eq_false_iff :
    spanValid p a len = false ↔ 2 ^ 64 < a + len ∨ ∃ k < len, memValid p (a + k) = false := by
  rw [← Bool.not_eq_true, spanValid_iff, not_and_or, Nat.not_le]
  simp

/-- Check 7 fires iff a region passes the top of the address space or has a byte that does not exist (20_memory.md
R48). -/
theorem footprintValid_eq_false_iff : footprintValid i s = false ↔ ∃ r ∈ readSpans i s ++ writeSpans i s,
    2 ^ 64 < r.addr + r.len ∨ ∃ k < r.len, memValid s.platform (r.addr + k) = false := by
  simp only [footprintValid, List.all_eq_false, Bool.not_eq_true, spanValid_eq_false_iff]

theorem legalRounds_eq_false (h : rounds ∉ [10, 12, 14]) : legalRounds rounds = false := by
  simpa [legalRounds, and_assoc] using h

/-- A command that no check stops completes with `ERR` 0 on an engine that stays unfaulted (10_state.md R25). -/
theorem exec_completes (h : precheck i s = .runs) :
    ∃ t, exec i s = .next t ∧ t.status.fault = false ∧ t.status.err = none := by
  obtain ⟨hf, -⟩ := precheck_runs_iff.1 h
  exact ⟨effectOf i s, exec_of_runs h, by simpa using hf, by simp⟩

/-- Settles O35: each check by what it gives once the earlier ones have passed, the end of a command that passes
all of them by `exec_completes`. -/
theorem checksComeInOrder : Obligations.ChecksComeInOrder := by
  refine ⟨fun w s rest hf hm => ?_, fun w why s rest hf hd hm => ?_, fun i s => exec_refused, fun s hf =>
    ⟨fun mask => ?_, fun haes n => ?_, exec_capabilityAbsent (i := .gfmul) hf,
      fun haes n => exec_invalidKeyLength hf haes, fun haes n hn => ?_,
      fun i hc hb hr => ⟨fun hbad => ?_, fun hgood => ?_⟩⟩⟩
  · rw [step_of_moves hm]
    exact issueWord_refused (s := takeMove rest s) hf w
  · rw [step_of_moves hm]
    exact issueWord_illegal (s := takeMove rest s) hd hf
  · obtain ⟨t, hexec, hfault, -⟩ := exec_completes (precheck_hassupport (mask := mask) hf)
    exact ⟨t, hexec, hfault⟩
  · exact ⟨exec_capabilityAbsent hf haes, exec_capabilityAbsent hf haes, exec_capabilityAbsent hf haes,
      exec_capabilityAbsent hf haes⟩
  · have hr := legalRounds_eq_false hn
    exact ⟨exec_roundsInvalid hf haes rfl hr, exec_roundsInvalid hf haes rfl hr, exec_roundsInvalid hf haes rfl hr⟩
  · exact exec_addressFault hf hc hb hr (footprintValid_eq_false_iff.2 hbad)
  · have hv := footprintValid_iff.2 fun r hmem => spanValid_iff.2 (hgood r hmem)
    exact exec_completes (precheck_runs_iff.2 ⟨hf, hc, hb, hr, hv⟩)

end Sys2Proof.Machine
end

section
/-! PROOFS. What a run from reset keeps: canonical memory that exists, the correct cache, `FCODE` with `FAULT`
(10_state.md R24, R30; 41_capability.md R112). -/

namespace Sys2Proof.Machine

open Sys2Proof.Safety

variable {i : Instr} {m : HostMove} {s t : State}

/-- Everything a step can do: nothing when no move is left, else the host's oldest move. -/
theorem step_cases (h : step s = .next t) :
    t = s ∨ ∃ m rest, s.moves = m :: rest ∧ performMove m (takeMove rest s) = .next t := by
  cases hm : s.moves with
  | nil =>
    rw [step_of_no_moves hm] at h
    cases h
    exact .inl rfl
  | cons m rest =>
    rw [step_of_moves hm] at h
    exact .inr ⟨m, rest, rfl, h⟩

/-! ### Memory -/

/-- The memory of `t` is that of `s`, or `s` with bytes written to addresses that all exist (20_memory.md R46). -/
def MemoryWritten (s t : State) : Prop :=
  t.mem = s.mem ∨ ∃ a bs, spanValid s.platform a bs.length = true ∧ t.mem = memWrite s.mem a bs

/-- What a running command stores lies where bytes exist: check 7 has passed its regions (20_memory.md R48). -/
theorem exec_memoryWritten (h : exec i s = .next t) : MemoryWritten s t := by
  rcases exec_mem h with ⟨hruns, hmem⟩ | ⟨-, hmem⟩
  · rcases stored_span hruns with ⟨mask, rfl⟩ | hspan
    · exact .inl hmem
    · obtain ⟨-, -, -, -, hvalid⟩ := precheck_runs_iff.1 hruns
      exact .inr ⟨_, _, footprintValid_iff.1 hvalid _ (List.mem_append_right _ (hspan ▸ List.mem_singleton_self _)),
        hmem⟩
  · exact .inl hmem

theorem performMove_memoryWritten (h : performMove m s = .next t) : MemoryWritten s t := by
  cases m with
  | writeCmd w =>
    rcases issueWord_cases h with ⟨-, rfl⟩ | ⟨-, -, rfl⟩ | ⟨-, i, -, he⟩
    · exact .inl rfl
    · exact .inl rfl
    · exact exec_memoryWritten he
  | store addr bytes =>
    obtain ⟨hvalid, rfl⟩ := performMove_store h
    exact .inr ⟨_, _, hvalid, rfl⟩
  | load addr n =>
    obtain ⟨-, rfl⟩ := performMove_load h
    exact .inl rfl
  | setP r v =>
    cases h
    exact .inl (setPtr_mem ..)
  | _ =>
    cases h
    exact .inl rfl

theorem MemoryWritten.wf (h : MemoryWritten s t) (hs : s.mem.wf) : t.mem.wf := by
  rcases h with hmem | ⟨a, bs, -, hmem⟩ <;> rw [hmem]
  · exact hs
  · exact memWrite_wf hs a bs

theorem MemoryWritten.memExists (h : MemoryWritten s t) (hp : t.platform = s.platform) (hs : MemExists s) :
    MemExists t := by
  intro c hc
  rw [hp]
  rcases h with hmem | ⟨a, bs, hvalid, hmem⟩ <;> rw [hmem] at hc
  · exact hs c hc
  · rcases mem_memWrite hc with hold | ⟨hlow, hhigh⟩
    · exact hs c hold
    · obtain ⟨htop, hbytes⟩ := spanValid_iff.1 hvalid
      have hbyte := hbytes (c.1 - a) (by omega)
      rw [Nat.add_sub_cancel' hlow] at hbyte
      exact ⟨by omega, hbyte⟩

/-! ### `FCODE` -/

/-- A first fault sets `FAULT` and `FCODE` together, a completion writes neither (10_state.md R25, R26). -/
theorem exec_faultCoded (hs : FaultCoded s) (h : exec i s = .next t) : FaultCoded t := by
  rcases exec_cases h with ⟨-, -, rfl⟩ | ⟨c, -, -, rfl⟩ | ⟨-, -, -, rfl⟩ | ⟨-, -, -, rfl⟩
  · exact hs
  · rfl
  · exact hs
  · simpa [FaultCoded] using hs

theorem performMove_faultCoded (hs : FaultCoded s) (h : performMove m s = .next t) : FaultCoded t := by
  cases m with
  | writeCmd w =>
    rcases issueWord_cases h with ⟨-, rfl⟩ | ⟨-, -, rfl⟩ | ⟨-, i, -, he⟩
    · exact hs
    · rfl
    · exact exec_faultCoded hs he
  | reset =>
    cases h
    rfl
  | _ =>
    obtain ⟨hstatus, -⟩ := performMove_other (by simp) (by simp) h
    rwa [FaultCoded, hstatus]

/-! ### The invariant -/

theorem performMove_engineInv (hs : EngineInv s) (h : performMove m s = .next t) : EngineInv t := by
  obtain ⟨hwf, hexists, hcache, hcoded⟩ := hs
  have hmem := performMove_memoryWritten h
  exact ⟨hmem.wf hwf, hmem.memExists (performMove_platform h) hexists, performMove_cacheCorrect hcache h,
    performMove_faultCoded hcoded h⟩

/-- Settles O43: an idle step changes nothing, and every move keeps each of the four parts
(`performMove_engineInv`). -/
theorem stepKeepsTheInvariant : Obligations.StepKeepsTheInvariant := by
  intro s t hs h
  rcases step_cases h with rfl | ⟨m, rest, -, hmove⟩
  · exact hs
  · exact performMove_engineInv (s := takeMove rest s) hs hmove

/-- Settles O44: memory by what a state after reset is, the cache empty, `STATUS` 0; `State.reset` lists no byte. -/
theorem invariantHoldsAfterReset : Obligations.InvariantHoldsAfterReset := by
  refine ⟨fun s h => ?_, rfl, rfl, rfl, rfl, rfl, by decide, fun c hc => absurd hc List.not_mem_nil⟩
  have hcache := cacheCorrect_of_afterReset h
  obtain ⟨-, -, -, hstatus, -, hwf, hexists⟩ := h
  exact ⟨hwf, hexists, hcache, by rw [FaultCoded, hstatus]; rfl⟩

end Sys2Proof.Machine
end

section
/-! PROOFS. What the host learns from the answers it reads (70_reset_and_hazards.md R210, R223). -/

namespace Sys2Proof.Machine

open Sys2Proof.Safety

variable {i : Instr} {m : HostMove} {w : CmdWord} {s t : State} {v : HostView}

/-! ### What the host has learnt is so -/

/-- On a faulted engine nothing is claimed. -/
theorem viewTruthful_of_faulted (hf : s.status.fault = true) : ViewTruthful v s :=
  fun h => absurd (hf.symm.trans h) (by decide)

/-- What the host has learnt speaks of `STATUS` and the platform alone. -/
theorem viewTruthful_congr (hstatus : t.status = s.status) (hp : t.platform = s.platform)
    (hv : ViewTruthful v s) : ViewTruthful v t := by
  rwa [ViewTruthful, hstatus, hp]

/-- A host that has learnt nothing has learnt nothing wrong. -/
theorem viewTruthful_none (s : State) : ViewTruthful HostView.none s := fun _ =>
  ⟨fun _ h => absurd h (by simp [HostView.none]), fun h => absurd h (by simp [HostView.none]),
    fun h => absurd h (by simp [HostView.none])⟩

theorem queryOf_eq_some {mask : BitVec 2} (h : queryOf i = some mask) : i = .hassupport mask := by
  cases i with
  | hassupport mask' =>
    cases h
    rfl
  | _ => cases h

/-- After a command that completed, `RESULT` is the answer for its mask, taken from a correct cache
(41_capability.md R110, R112). -/
theorem viewTruthful_exec (hc : CacheCorrect s) (hs : s.status.fault = false) (hv : ViewTruthful v s)
    (h : exec i s = .next t) : ViewTruthful { v with asked := queryOf i } t := by
  intro hf
  obtain ⟨-, haes, hclmul⟩ := hv hs
  obtain ⟨-, hresult⟩ := exec_completed h hf
  rw [exec_platform h]
  refine ⟨fun mask hmask => ?_, haes, hclmul⟩
  obtain rfl := queryOf_eq_some hmask
  rw [hresult, answerOf, probeCapabilities_cap_of_correct hc]

theorem issues_of_command (hd : decode w = .command i) (v : HostView) :
    v.issues w = { v with asked := queryOf i } := by
  rw [HostView.issues, hd]

theorem viewTruthful_issueWord (hc : CacheCorrect s) (hv : ViewTruthful v s) (h : issueWord w s = .next t) :
    ViewTruthful (v.issues w) t := by
  rcases issueWord_cases h with ⟨hf, rfl⟩ | ⟨-, -, rfl⟩ | ⟨hf, i, hd, he⟩
  · exact viewTruthful_of_faulted hf
  · exact viewTruthful_of_faulted rfl
  · rw [issues_of_command hd]
    exact viewTruthful_exec hc hf hv he

/-- Reading the answer for one bit asked for alone tells that bit (41_capability.md R113). -/
theorem viewTruthful_reads (hv : ViewTruthful v s) : ViewTruthful (v.reads s.status.result) s := by
  intro hf
  obtain ⟨hasked, haes, hclmul⟩ := hv hf
  refine ⟨hasked, fun h => ?_, fun h => ?_⟩ <;>
    simp only [HostView.reads, Bool.or_eq_true, Bool.and_eq_true, decide_eq_true_eq] at h
  · rcases h with h | ⟨hresult, hmask⟩
    · exact haes h
    · simpa [hresult, anyCapability_facts] using hasked _ hmask
  · rcases h with h | ⟨hresult, hmask⟩
    · exact hclmul h
    · simpa [hresult, anyCapability_facts] using hasked _ hmask

/-- Bit 0 of what a read of `STATUS` returns is `RESULT` (10_state.md R24). -/
theorem readRegister_status_result (s : State) : (readRegister s .status).getLsbD 0 = s.status.result := by
  rw [readRegister, BitVec.getLsbD_setWidth, statusWord_getLsbD]
  rfl

theorem performMove_viewTruthful (hc : CacheCorrect s) (hv : ViewTruthful v s) (h : performMove m s = .next t) :
    ViewTruthful (v.after m s) t := by
  cases m with
  | writeCmd w => exact viewTruthful_issueWord hc hv h
  | readReg r =>
    cases h
    refine viewTruthful_congr (s := s) rfl rfl ?_
    rw [HostView.after]
    split
    case isTrue hr =>
      rw [hr, readRegister_status_result]
      exact viewTruthful_reads hv
    case isFalse => exact hv
  | reset => exact viewTruthful_none t
  | _ =>
    obtain ⟨hstatus, -, -, hp⟩ := performMove_other (by simp) (by simp) h
    exact viewTruthful_congr hstatus hp hv

/-- A host move is made with nothing else left to be made. -/
theorem makeMove_eq (m : HostMove) (s : State) : makeMove m s = performMove m (takeMove [] s) := rfl

/-- Settles O55: every move keeps the cache correct (`performMove_cacheCorrect`) and what was learnt so
(`performMove_viewTruthful`); the capability asked for first is the one the command needs. -/
theorem whatTheHostLearnsStaysTrue : Obligations.WhatTheHostLearnsStaysTrue := by
  refine ⟨fun m v s t hc hv h => ?_, fun i v s hv hf hasked => ?_⟩
  · rw [makeMove_eq] at h
    exact ⟨performMove_cacheCorrect (s := takeMove [] s) hc h,
      performMove_viewTruthful (s := takeMove [] s) hc hv h⟩
  · obtain ⟨-, haes, hclmul⟩ := hv hf
    cases i with
    | hassupport mask => rfl
    | gfmul => exact hclmul hasked
    | _ => exact haes hasked

/-! ### Before the host has read `STATUS` -/

/-- The host has read no answer yet. -/
def NothingLearnt (v : HostView) : Prop := v.aes = false ∧ v.clmul = false

theorem nothingLearnt_issues (hv : NothingLearnt v) (w : CmdWord) : NothingLearnt (v.issues w) := by
  rw [HostView.issues]
  split <;> exact hv

/-- Only a read of `STATUS` teaches the host anything. -/
theorem nothingLearnt_after (hv : NothingLearnt v) (hm : m ≠ .readReg .status) (s : State) :
    NothingLearnt (v.after m s) := by
  cases m with
  | writeCmd w => exact nothingLearnt_issues hv w
  | readReg r =>
    rw [HostView.after, if_neg fun hr => hm (by rw [hr])]
    exact hv
  | reset => exact ⟨rfl, rfl⟩
  | _ => exact hv

/-- Every command but HASSUPPORT needs a capability that the host has asked for first. -/
theorem not_askedFirst (hv : NothingLearnt v) (hi : ∀ mask, i ≠ .hassupport mask) : ¬ AskedFirst i v := by
  obtain ⟨haes, hclmul⟩ := hv
  cases i with
  | hassupport mask => exact absurd rfl (hi mask)
  | gfmul => simp [AskedFirst, hclmul]
  | _ => simp [AskedFirst, haes]

/-- As long as no `STATUS` is read, no other command than HASSUPPORT is dutiful. -/
theorem not_goodFrom_of_unread (hw : ∀ mask, decode w ≠ .command (.hassupport mask)) (b : HostBuffers)
    (rest : List HostAct) {pre : List HostAct} (hpre : ∀ a ∈ pre, a.move ≠ .readReg .status)
    (hv : NothingLearnt v) : ¬ GoodFrom (pre ++ ⟨.writeCmd w, b⟩ :: rest) v s := by
  induction pre generalizing v s with
  | nil =>
    rintro ⟨-, ⟨i, hd, hasked, -⟩, -⟩
    exact not_askedFirst hv (fun mask hi => hw mask (hi ▸ hd)) hasked
  | cons a pre ih =>
    rintro ⟨-, -, t, -, hrest⟩
    rw [List.forall_mem_cons] at hpre
    exact ih hpre.2 (nothingLearnt_after hv hpre.1 s) hrest

/-- Settles O56: just after reset there is nothing to be wrong about; the first command that is not HASSUPPORT meets
a host that has read no answer (`not_goodFrom_of_unread`). -/
theorem hostStartsWithoutAnswers : Obligations.HostStartsWithoutAnswers :=
  ⟨fun s h => ⟨cacheCorrect_of_afterReset h, viewTruthful_none s⟩,
    fun _ _ b rest _ hpre hw hgood => not_goodFrom_of_unread hw b rest hpre ⟨rfl, rfl⟩ hgood.2⟩

end Sys2Proof.Machine
end

section
/-! PROOFS. The footprint of a command (20_memory.md R49, R53): its frame, and its ordered accesses. -/

namespace Sys2Proof.Machine

open Sys2Proof.Safety

variable {i : Instr} {s t : State} {a rounds : Nat} {indices : List Nat}

/-! ### The frame -/

/-- The byte at `a` lies in the region. -/
def Span.Holds (q : Span) (a : Nat) : Prop := q.addr ≤ a ∧ a < q.addr + q.len

theorem Span.holds_or_outside (q : Span) (a : Nat) : q.Holds a ∨ a < q.addr ∨ q.addr + q.len ≤ a := by
  rw [Span.Holds]
  omega

/-- Everything a command can do to the registers that are no part of its answer (10_state.md R22, R29). -/
theorem exec_registers (h : exec i s = .next t) :
    t.p0 = s.p0 ∧ t.p1 = s.p1 ∧ t.p2 = s.p2 ∧ t.moves = s.moves ∧ t.answer = s.answer := by
  rcases exec_cases h with ⟨-, -, rfl⟩ | ⟨c, -, -, rfl⟩ | ⟨-, -, -, rfl⟩ | ⟨-, -, -, rfl⟩
  · exact ⟨rfl, rfl, rfl, rfl, rfl⟩
  · exact ⟨rfl, rfl, rfl, rfl, rfl⟩
  · exact ⟨rfl, rfl, rfl, rfl, rfl⟩
  · simp

theorem exec_ptr (h : exec i s = .next t) (r : PtrReg) : ptr t r = ptr s r := by
  obtain ⟨h0, h1, h2, -, -⟩ := exec_registers h
  cases r
  · exact h0
  · exact h1
  · exact h2

/-- A command that does not run changes no byte (20_memory.md R50). -/
theorem exec_mem_of_stopped (h : exec i s = .next t) (hv : precheck i s ≠ .runs) : t.mem = s.mem := by
  rcases exec_mem h with ⟨hruns, -⟩ | ⟨-, hmem⟩
  · exact absurd hruns hv
  · exact hmem

/-- A command changes no byte outside the regions it writes (20_memory.md R49). -/
theorem exec_memGet_outside (h : exec i s = .next t)
    (ha : ∀ q ∈ writeSpans i s, a < q.addr ∨ q.addr + q.len ≤ a) :
    memGet t.mem a = memGet s.mem a := by
  rcases exec_mem h with ⟨hruns, hmem⟩ | ⟨-, hmem⟩ <;> rw [hmem]
  rcases stored_span hruns with ⟨mask, rfl⟩ | hspan
  · rfl
  · exact memGet_memWrite_outside _ _ (ha _ (hspan ▸ List.mem_singleton_self _))

/-- Settles O45: the registers by `exec_registers`, memory by `exec_memGet_outside` and `exec_mem_of_stopped`. -/
theorem commandsChangeOnlyTheirFootprint : Obligations.CommandsChangeOnlyTheirFootprint := by
  intro i s t h
  obtain ⟨h0, h1, h2, hmoves, hanswer⟩ := exec_registers h
  exact ⟨h0, h1, h2, exec_platform h, hmoves, hanswer, fun _ => exec_memGet_outside h, exec_mem_of_stopped h⟩

/-- Settles O57: each region stands at a pointer (`mem_footprint`), where the duty puts it in the buffer; the bytes
outside the buffers are outside the regions written. -/
theorem ownBuffersKeepOtherData : Obligations.OwnBuffersKeepOtherData := by
  intro i b s t hduty h
  have hwithin : ∀ q ∈ readSpans i s ++ writeSpans i s, ∃ r, SpanWithin q (b.buffer r) := by
    intro q hq
    obtain ⟨r, hr, rfl⟩ := mem_footprint.1 hq
    exact ⟨r, hduty r hr⟩
  refine ⟨hwithin, fun a ha => exec_memGet_outside h fun q hq => ?_⟩
  obtain ⟨r, hlow, hhigh⟩ := hwithin q (List.mem_append_right _ hq)
  exact (ha r).imp (fun h => h.trans_le hlow) fun h => hhigh.trans h

/-- Settles O47: a command under its checks always answers. -/
theorem everyCommandEnds : Obligations.EveryCommandEnds := fun i s => by
  rw [exec_eq_underChecks]
  exact underChecks_total ..

/-! ### The accesses -/

section
variable {bits : Nat} (s : State)

theorem readSpans_cryptblockEnc (h : legalRounds rounds = true) :
    readSpans (.cryptblockEnc rounds) s = [spanAt s .p0 (scheduleBytes rounds), spanAt s .p1 16] := if_pos h

theorem readSpans_cryptblockDec (h : legalRounds rounds = true) :
    readSpans (.cryptblockDec rounds) s = [spanAt s .p0 (scheduleBytes rounds), spanAt s .p1 16] := if_pos h

theorem readSpans_expandkey (h : legalBits bits = true) :
    readSpans (.expandkey bits) s = [spanAt s .p0 (bits / 8)] := if_pos h

theorem readSpans_derivedec (h : legalRounds rounds = true) :
    readSpans (.derivedec rounds) s = [spanAt s .p0 (scheduleBytes rounds)] := if_pos h

theorem writeSpans_cryptblockEnc (h : legalRounds rounds = true) :
    writeSpans (.cryptblockEnc rounds) s = [spanAt s .p2 16] := if_pos h

theorem writeSpans_cryptblockDec (h : legalRounds rounds = true) :
    writeSpans (.cryptblockDec rounds) s = [spanAt s .p2 16] := if_pos h

theorem writeSpans_expandkey (h : legalBits bits = true) : writeSpans (.expandkey bits) s =
    [spanAt s .p1 (scheduleBytes (roundsOfBits bits) + trailingBytes bits)] := if_pos h

theorem writeSpans_derivedec (h : legalRounds rounds = true) :
    writeSpans (.derivedec rounds) s = [spanAt s .p1 (scheduleBytes rounds)] := if_pos h

end

/-- The regions read, in the order of 20_memory.md R53. -/
def accessReads (i : Instr) (s : State) : List Span :=
  match i with
  | .hassupport _ => []
  | .cryptblockEnc rounds => spanAt s .p1 16 :: keySpans s .p0 (List.range (rounds + 1))
  | .cryptblockDec rounds => spanAt s .p1 16 :: keySpans s .p0 (List.range (rounds + 1))
  | .expandkey bits => [spanAt s .p0 (bits / 8)]
  | .derivedec rounds => keySpans s .p0 (List.range (rounds + 1)).reverse
  | .gfmul => [spanAt s .p0 16, spanAt s .p1 16]

/-- The regions written, in the order of 20_memory.md R53. -/
def accessWrites (i : Instr) (s : State) : List Span :=
  match i with
  | .hassupport _ => []
  | .cryptblockEnc _ => [spanAt s .p2 16]
  | .cryptblockDec _ => [spanAt s .p2 16]
  | .expandkey bits => [spanAt s .p1 (scheduleBytes (roundsOfBits bits) + trailingBytes bits)]
  | .derivedec rounds => keySpans s .p1 (List.range (rounds + 1))
  | .gfmul => [spanAt s .p2 16]

/-- Every command reads all its operands before it writes (20_memory.md R50, R53). -/
theorem accesses_eq (i : Instr) (s : State) :
    accesses i s = (accessReads i s).map .read ++ (accessWrites i s).map .write := by
  cases i <;> rfl

/-- The round keys `0 .. rounds` are the bytes of the schedule (20_memory.md R43). -/
theorem exists_keySpans_iff (hindices : ∀ k, k ∈ indices ↔ k < rounds + 1) (r : PtrReg) :
    (∃ q ∈ keySpans s r indices, q.Holds a) ↔ (spanAt s r (scheduleBytes rounds)).Holds a := by
  simp only [keySpans, List.mem_map, exists_exists_and_eq_and, hindices, Span.Holds, spanAt, scheduleBytes, effAddr]
  constructor
  · rintro ⟨k, hk, hlow, hhigh⟩
    omega
  · rintro ⟨hlow, hhigh⟩
    exact ⟨(a - (ptr s r).toNat) / 16, by omega, by omega, by omega⟩

/-- CRYPTBLOCK reads its input block first, then the schedule key by key (20_memory.md R53). -/
theorem exists_cryptblockReads_iff :
    (∃ q ∈ spanAt s .p1 16 :: keySpans s .p0 (List.range (rounds + 1)), q.Holds a) ↔
      ∃ q ∈ [spanAt s .p0 (scheduleBytes rounds), spanAt s .p1 16], q.Holds a := by
  have hkeys := exists_keySpans_iff (s := s) (a := a) (rounds := rounds) (fun _ => List.mem_range) .p0
  simp [hkeys, or_comm]

theorem exists_accessReads_iff (h : precheck i s = .runs) :
    (∃ q ∈ accessReads i s, q.Holds a) ↔ ∃ q ∈ readSpans i s, q.Holds a := by
  obtain ⟨-, -, hb, hr, -⟩ := precheck_runs_iff.1 h
  cases i with
  | hassupport mask => rfl
  | cryptblockEnc rounds =>
    rw [readSpans_cryptblockEnc s hr]
    exact exists_cryptblockReads_iff
  | cryptblockDec rounds =>
    rw [readSpans_cryptblockDec s hr]
    exact exists_cryptblockReads_iff
  | expandkey bits =>
    rw [readSpans_expandkey s hb]
    rfl
  | derivedec rounds =>
    rw [readSpans_derivedec s hr, accessReads, exists_keySpans_iff (rounds := rounds) (by simp)]
    simp
  | gfmul => rfl

theorem exists_accessWrites_iff (h : precheck i s = .runs) :
    (∃ q ∈ accessWrites i s, q.Holds a) ↔ ∃ q ∈ writeSpans i s, q.Holds a := by
  obtain ⟨-, -, hb, hr, -⟩ := precheck_runs_iff.1 h
  cases i with
  | hassupport mask => rfl
  | cryptblockEnc rounds =>
    rw [writeSpans_cryptblockEnc s hr]
    rfl
  | cryptblockDec rounds =>
    rw [writeSpans_cryptblockDec s hr]
    rfl
  | expandkey bits =>
    rw [writeSpans_expandkey s hb]
    rfl
  | derivedec rounds =>
    rw [writeSpans_derivedec s hr, accessWrites, exists_keySpans_iff (rounds := rounds) (by simp)]
    simp
  | gfmul => rfl

/-- Settles O52: the accesses are reads and then writes (`accesses_eq`), and cover what the regions cover
(`exists_accessReads_iff`, `exists_accessWrites_iff`). -/
theorem accessesAreTheFootprint : Obligations.AccessesAreTheFootprint := by
  intro i s h
  have hsplit := accesses_eq i s
  refine ⟨fun a => ?_, fun a => ?_, _, _, hsplit⟩
  · simpa [hsplit, Span.Holds] using exists_accessReads_iff (a := a) h
  · simpa [hsplit, Span.Holds] using exists_accessWrites_iff (a := a) h

end Sys2Proof.Machine
end

section
/-! PROOFS. What a command writes as a function of the bytes it reads (20_memory.md R50), and a command issued twice
(R54). -/

namespace Sys2Proof.Machine

variable {i : Instr} {s t u : State} {a k : Nat} {q : Span} {m n : Memory} {spans : List Span}

/-- Settles O53: the laws of reading after writing; canonical memories that read the same are the same list. -/
theorem memoryIsPlain : Obligations.MemoryIsPlain := by
  refine fun m a bs => ⟨memRead_memWrite_self m a bs, fun x n h => memRead_memWrite_disjoint m bs h, fun hm => ?_⟩
  refine memory_ext (memWrite_wf (memWrite_wf hm a bs) a bs) (memWrite_wf hm a bs) fun x => ?_
  rw [memGet_memWrite]
  split
  case isTrue hx => rw [memGet_memWrite, if_pos hx]
  case isFalse => rfl

/-! ### What a command stores depends on what it reads -/

/-- The region a running command writes is what it stores. -/
theorem writeSpan_eq_stored (h : precheck i s = .runs) (hq : q ∈ writeSpans i s) :
    q.addr = (stored i s).1 ∧ q.len = (stored i s).2.length := by
  rcases stored_span h with ⟨mask, rfl⟩ | hspan
  · cases hq
  · rw [hspan, List.mem_singleton] at hq
    rw [hq]
    exact ⟨rfl, rfl⟩

/-- Both memories read the same in the regions. -/
def AgreeOn (spans : List Span) (m n : Memory) : Prop :=
  ∀ q ∈ spans, ∀ a, q.addr ≤ a → a < q.addr + q.len → memGet m a = memGet n a

theorem AgreeOn.memRead_eq (h : AgreeOn spans m n) (hq : q ∈ spans) (hlow : q.addr ≤ a)
    (hhigh : a + k ≤ q.addr + q.len) : memRead m a k = memRead n a k :=
  memRead_congr fun j hj => h q hq (a + j) (by omega) (by omega)

theorem AgreeOn.readBlock_eq (h : AgreeOn spans m n) (hq : q ∈ spans) (hlow : q.addr ≤ a)
    (hhigh : a + 16 ≤ q.addr + q.len) : readBlock m a = readBlock n a := by
  rw [readBlock, h.memRead_eq hq hlow hhigh, readBlock]

theorem bytesOfSchedule_congr {rounds : Nat} {keys keys' : Nat → Block} (h : ∀ r ≤ rounds, keys r = keys' r) :
    bytesOfSchedule rounds keys = bytesOfSchedule rounds keys' :=
  List.flatMap_congr fun r hr => by rw [h r (Nat.lt_succ_iff.1 (List.mem_range.1 hr))]

section
variable (hptr : ∀ r, ptr u r = ptr s r) (hreads : AgreeOn (readSpans i s) u.mem s.mem)
include hptr hreads

/-- Two engines whose schedules agree have the same round keys. -/
theorem roundKeyAt_congr {rounds r : Nat} (hq : spanAt s .p0 (scheduleBytes rounds) ∈ readSpans i s)
    (hr : r ≤ rounds) : roundKeyAt u r = roundKeyAt s r := by
  rw [roundKeyAt, roundKeyAt, effAddr_congr hptr]
  refine hreads.readBlock_eq hq ?_ ?_ <;> simp only [spanAt, effAddr, scheduleBytes] <;> omega

theorem operandBlock_congr {r : PtrReg} (hq : spanAt s r 16 ∈ readSpans i s) :
    readBlock u.mem (effAddr u r 0) = readBlock s.mem (effAddr s r 0) := by
  rw [effAddr_congr hptr]
  exact hreads.readBlock_eq hq le_rfl le_rfl

/-- Both directions of CRYPTBLOCK read a schedule and a block (20_memory.md R49). -/
theorem cryptBlock_operands_congr {rounds : Nat} (round final : Block → Block → Block)
    (hspans : readSpans i s = [spanAt s .p0 (scheduleBytes rounds), spanAt s .p1 16]) :
    cryptBlock round final rounds (roundKeyAt u) (readBlock u.mem (effAddr u .p1 0)) =
      cryptBlock round final rounds (roundKeyAt s) (readBlock s.mem (effAddr s .p1 0)) := by
  rw [operandBlock_congr hptr hreads (r := .p1) (by simp [hspans])]
  exact cryptBlock_congr _ fun r hr => roundKeyAt_congr hptr hreads (by simp [hspans]) hr

/-- DERIVEDEC reads a schedule (20_memory.md R49). -/
theorem derivedSchedule_congr {rounds : Nat} (hspans : readSpans i s = [spanAt s .p0 (scheduleBytes rounds)]) :
    bytesOfSchedule rounds (decryptionKey rounds (roundKeyAt u)) =
      bytesOfSchedule rounds (decryptionKey rounds (roundKeyAt s)) := by
  refine bytesOfSchedule_congr fun r hr => ?_
  rw [decryptionKey_eq_keyTransform _ hr, decryptionKey_eq_keyTransform _ hr,
    roundKeyAt_congr hptr hreads (rounds := rounds) (by simp [hspans]) (Nat.sub_le ..)]

/-- The bytes stored depend on the bytes read, those that EXPANDKEY draws apart (20_memory.md R50). -/
theorem stored_getD_congr (h : precheck i s = .runs) (hk : k + drawsOf i < (stored i s).2.length) :
    (stored i u).2.getD k 0 = (stored i s).2.getD k 0 := by
  obtain ⟨-, -, hb, hr, -⟩ := precheck_runs_iff.1 h
  cases i with
  | hassupport mask => rfl
  | cryptblockEnc rounds =>
    have hblock := cryptBlock_operands_congr hptr hreads aesRound aesFinalRound (readSpans_cryptblockEnc s hr)
    rw [stored, stored, encryptBlock, hblock, encryptBlock]
  | cryptblockDec rounds =>
    have hblock := cryptBlock_operands_congr hptr hreads aesInvRound aesInvFinalRound (readSpans_cryptblockDec s hr)
    rw [stored, stored, decryptBlock, hblock, decryptBlock]
  | expandkey bits =>
    have hkey : memRead u.mem (effAddr u .p0 0) (bits / 8) = memRead s.mem (effAddr s .p0 0) (bits / 8) := by
      rw [effAddr_congr hptr]
      exact hreads.memRead_eq (readSpans_expandkey s hb ▸ List.mem_singleton_self _) le_rfl le_rfl
    simp only [stored, drawsOf, List.length_append, drawBytes_length, hkey] at hk ⊢
    rw [List.getD_append _ _ _ _ (by omega), List.getD_append _ _ _ _ (by omega)]
  | derivedec rounds => rw [stored, stored, derivedSchedule_congr hptr hreads (readSpans_derivedec s hr)]
  | gfmul =>
    rw [stored, stored, operandBlock_congr hptr hreads (r := .p0) (by simp [readSpans]),
      operandBlock_congr hptr hreads (r := .p1) (by simp [readSpans])]

/-- The bytes a command leaves where it writes depend on the bytes it reads, the free trailing ones apart. -/
theorem memGet_effectOf_congr (hs : precheck i s = .runs) (hu : precheck i u = .runs) (hq : q ∈ writeSpans i s)
    (hlow : q.addr ≤ a) (hhigh : a + drawsOf i < q.addr + q.len) :
    memGet (effectOf i u).mem a = memGet (effectOf i s).mem a := by
  obtain ⟨haddr, hlen⟩ := writeSpan_eq_stored hs hq
  obtain ⟨haddr', hlen'⟩ := writeSpan_eq_stored hu (writeSpans_congr hptr i ▸ hq)
  rw [effectOf_mem, effectOf_mem, memGet_memWrite, memGet_memWrite, if_pos (by omega), if_pos (by omega), ← haddr,
    ← haddr']
  exact stored_getD_congr hptr hreads hs (by omega)

end

/-- Settles O50: both states run the command and have the same pointers, so `memGet_effectOf_congr` applies. -/
theorem resultsDependOnlyOnBytesRead : Obligations.ResultsDependOnlyOnBytesRead := by
  intro i s t u m hs hreads ht hu q hq a hlow hhigh
  have hptr (r : PtrReg) : ptr { s with mem := m } r = ptr s r := by cases r <;> rfl
  have hs' : precheck i { s with mem := m } = .runs := (precheck_congr hptr rfl rfl i).trans hs
  rw [exec_of_runs hs] at ht
  rw [exec_of_runs hs'] at hu
  cases ht
  cases hu
  change a < q.addr + q.len - drawsOf i at hhigh
  exact (memGet_effectOf_congr hptr hreads hs hs' hq hlow (by omega)).symm

/-! ### A command issued twice -/

/-- A command that a check stops is stopped again when it is issued once more. -/
theorem precheck_runs_of_exec (h : exec i s = .next t) (ht : precheck i t = .runs) : precheck i s = .runs := by
  obtain ⟨hfault, -⟩ := precheck_runs_iff.1 ht
  rcases exec_cases h with ⟨-, -, rfl⟩ | ⟨c, -, -, rfl⟩ | ⟨-, -, hb, -⟩ | ⟨hs, -, -, -⟩
  · exact ht
  · exact absurd hfault (by simp)
  · obtain ⟨-, -, hb', -⟩ := precheck_runs_iff.1 ht
    exact absurd (hb.symm.trans hb') Bool.false_ne_true
  · exact hs

/-- A command whose regions written meet none it reads still reads the same bytes afterwards. -/
theorem exec_agreeOn_reads (h : exec i s = .next t)
    (hdisjoint : ∀ r ∈ readSpans i s, ∀ q ∈ writeSpans i s,
      r.addr + r.len ≤ q.addr ∨ q.addr + q.len ≤ r.addr) :
    AgreeOn (readSpans i s) t.mem s.mem := fun r hr a hlow hhigh =>
  exec_memGet_outside h fun q hq => (hdisjoint r hr q hq).imp (by omega) (by omega)

/-- The bytes of a region written that R54 speaks of lie in front of those that EXPANDKEY draws. -/
theorem add_drawsOf_lt
    (ha : ∀ bits, i = .expandkey bits → ∀ q ∈ writeSpans i s,
      a < q.addr + q.len - trailingBytes bits ∨ q.addr + q.len ≤ a)
    (hq : q ∈ writeSpans i s) (hhigh : a < q.addr + q.len) : a + drawsOf i < q.addr + q.len := by
  cases i with
  | expandkey bits =>
    have hfront := ha bits rfl q hq
    rw [drawsOf]
    omega
  | _ => exact hhigh

/-- Settles O51: the second run reads the bytes the first one read (`exec_agreeOn_reads`), so it writes the same
(`memGet_effectOf_congr`); a command that was stopped is stopped again. -/
theorem commandsAreIdempotent : Obligations.CommandsAreIdempotent := by
  intro i s _ hdisjoint
  obtain ⟨t, ht⟩ := everyCommandEnds i s
  obtain ⟨u, hu⟩ := everyCommandEnds i t
  refine ⟨t, u, ht, hu, fun a ha => ?_⟩
  by_cases hruns : precheck i t = .runs
  · have hptr := exec_ptr ht
    have hs := precheck_runs_of_exec ht hruns
    by_cases hin : ∃ q ∈ writeSpans i s, q.Holds a
    · obtain ⟨q, hq, hlow, hhigh⟩ := hin
      have hwritten := memGet_effectOf_congr hptr (exec_agreeOn_reads ht hdisjoint) hs hruns hq hlow
        (add_drawsOf_lt ha hq hhigh)
      rw [exec_of_runs hs] at ht
      rw [exec_of_runs hruns] at hu
      cases ht
      cases hu
      exact hwritten
    · refine exec_memGet_outside hu fun q hq => ?_
      rw [writeSpans_congr hptr] at hq
      exact (q.holds_or_outside a).resolve_left fun hholds => hin ⟨q, hq, hholds⟩
  · rw [exec_mem_of_stopped hu hruns]

end Sys2Proof.Machine
end

section
/-! PROOFS. `RESET` (70_reset_and_hazards.md R205, R206), the host's other moves (R209), the register block and the
command port (10_state.md R21, R23, R35). -/

namespace Sys2Proof.Machine

variable {i : Instr} {m : HostMove} {w : CmdWord} {s t : State} {base addr off : Nat} {r : HostReg}

/-! ### `RESET` -/

/-- `STATUS` after reset reads 0 (10_state.md R35). -/
theorem statusWord_statusAtReset : statusWord statusAtReset = 0 := by decide

/-- After `RESET` HASSUPPORT is the first query: it completes and caches the hardware facts again
(70_reset_and_hazards.md R205). -/
theorem exec_hassupport_resetEngine (mask : BitVec 2) (s : State) :
    ∃ u, exec (.hassupport mask) (resetEngine s) = .next u ∧ u.capv = true ∧ u.cap = capabilityBits s.platform :=
  ⟨_, exec_hassupport rfl, by simp, by simp⟩

/-- Settles O39: `RESET` by the fields of `resetEngine` and `exec_hassupport_resetEngine`; every other move keeps
`STATUS` on a faulted engine (`performMove_faulted`). -/
theorem resetMoveRestoresTheEngine : Obligations.ResetMoveRestoresTheEngine := by
  refine ⟨fun s rest hm => ⟨resetEngine (takeMove rest s), step_of_moves hm, rfl, rfl, rfl,
    statusWord_statusAtReset, rfl, rfl, rfl, fun mask => exec_hassupport_resetEngine mask (takeMove rest s)⟩,
    fun m rest s t hm hr hf h => ?_⟩
  rw [step_of_moves hm] at h
  obtain ⟨hstatus, -⟩ := performMove_faulted (s := takeMove rest s) hf hr h
  rw [hstatus]
  exact hf

/-- Settles O40: each field of `State.reset`, `STATUS` as a word by `statusWord_statusAtReset`. -/
theorem resetValues : Obligations.ResetValues := ⟨rfl, rfl, rfl, statusWord_statusAtReset, rfl⟩

/-! ### The other moves -/

theorem performMove_load_valid {addr : Addr} {n : Nat} (h : spanValid s.platform addr.toNat n = true) :
    performMove (.load addr n) s = .next (giveAnswer (.bytes (memRead s.mem addr.toNat n)) s) := by
  rw [performMove, if_pos h]

theorem performMove_load_absent {addr : Addr} {n : Nat} (h : spanValid s.platform addr.toNat n = false) :
    performMove (.load addr n) s = .fault (.hostAddressAbsent addr n) := by
  rw [performMove, if_neg (by simp [h])]

theorem performMove_store_valid {addr : Addr} {bytes : List Byte}
    (h : spanValid s.platform addr.toNat bytes.length = true) :
    performMove (.store addr bytes) s = .next (storeBytes addr.toNat bytes s) := by
  rw [performMove, if_pos h]

theorem performMove_store_absent {addr : Addr} {bytes : List Byte}
    (h : spanValid s.platform addr.toNat bytes.length = false) :
    performMove (.store addr bytes) s = .fault (.hostAddressAbsent addr bytes.length) := by
  rw [performMove, if_neg (by simp [h])]

/-- Settles O41: a step makes the oldest move (`step_of_moves`), and each move does what its own equation says; the
bytes of a load and a store by the laws of memory. -/
theorem hostMovesDoWhatIsListed : Obligations.HostMovesDoWhatIsListed := by
  intro s rest
  refine ⟨fun r v hm => ?_, fun v hm => step_of_moves hm, fun hm => step_of_moves hm, fun hm => step_of_moves hm,
    fun r hm => step_of_moves hm, fun a n hm hv => ?_, fun a bs hm hv => ?_, fun a n hm hv => ?_,
    fun a bs hm hv => ?_, step_of_no_moves⟩
  · rw [step_of_moves hm]
    cases r <;> rfl
  · refine ⟨memRead s.mem a.toNat n, memRead_length .., fun k hk => memRead_getD _ _ hk, ?_⟩
    rw [step_of_moves hm]
    exact performMove_load_valid (s := takeMove rest s) hv
  · refine ⟨storeBytes a.toNat bs (takeMove rest s), ?_, rfl, fun k hk => memGet_memWrite_inside _ _ hk,
      fun x hx => memGet_memWrite_outside _ _ hx⟩
    rw [step_of_moves hm]
    exact performMove_store_valid (s := takeMove rest s) hv
  · rw [step_of_moves hm]
    exact performMove_load_absent (s := takeMove rest s) hv
  · rw [step_of_moves hm]
    exact performMove_store_absent (s := takeMove rest s) hv

/-! ### The register block -/

/-- A register stands at its own offset, and no other one does (10_state.md R21). -/
theorem regAtAddress_regOffset (base : Nat) (r : HostReg) : regAtAddress base (base + regOffset r) = some r := by
  rcases r with _ | _ | r
  · simp [regAtAddress, regOffset]
  · simp [regAtAddress, regOffset]
  · cases r <;> simp [regAtAddress, regOffset]

theorem regAtAddress_eq_none (h : ∀ r, addr ≠ base + regOffset r) : regAtAddress base addr = none := by
  rw [regAtAddress, List.find?_eq_none]
  intro r _
  simpa using (h r).symm

theorem regOffset_mem (r : HostReg) : regOffset r ∈ [0x00, 0x04, 0x08, 0x10, 0x18] := by
  rcases r with _ | _ | r
  · decide
  · decide
  · cases r <;> decide

/-- Settles O42: each register is found at its offset (`regAtAddress_regOffset`), and the five offsets are all there
are (`regOffset_mem`). -/
theorem registerBlockOffsets : Obligations.RegisterBlockOffsets := fun base _ =>
  ⟨regAtAddress_regOffset base .cmd, regAtAddress_regOffset base .status, regAtAddress_regOffset base (.ptr .p0),
    regAtAddress_regOffset base (.ptr .p1), regAtAddress_regOffset base (.ptr .p2),
    fun h => regAtAddress_eq_none fun r => h _ (regOffset_mem r)⟩

/-! ### The command port -/

/-- A legal word is its command, on a faulted engine too: both are refused there. -/
theorem issueWord_command (hd : decode w = .command i) (s : State) : issueWord w s = exec i s := by
  cases hf : s.status.fault with
  | true => rw [issueWord_refused hf, exec_refused hf]
  | false => simp [issueWord, hf, hd]

theorem step_writeCmd {rest : List HostMove} (hd : decode w = .command i) (hm : s.moves = .writeCmd w :: rest) :
    step s = exec i (takeMove rest s) :=
  (step_of_moves hm).trans (issueWord_command hd _)

theorem tableWord_toNat (w : CmdWord) : tableWord 32 w.toNat = w := by
  rw [tableWord, Nat.mod_eq_of_lt w.isLt, BitVec.ofNat_toNat, BitVec.setWidth_eq]

/-- Settles O5: the step is the command (`step_writeCmd`), whether the word stands in the moves or is placed
there. -/
theorem stepRunsTheDecodedCommand : Obligations.StepRunsTheDecodedCommand := by
  refine fun s w i rest hd => ⟨step_writeCmd hd, ?_⟩
  rw [State.withFetchWord, tableWord_toNat]
  exact step_writeCmd (s := placeCommand w s) hd rfl

/-- Settles O4: by evaluating the decoder. -/
theorem hostWordsDecode : Obligations.HostWordsDecode := by
  unfold Obligations.HostWordsDecode
  decide

end Sys2Proof.Machine
end

section
/-! PROOFS. Decryption with derived keys (42_blockcipher.md R131), the round constants (40_primitives.md R82), the wire
format of a field element (45_gfmul.md R166) and the laws of its product (R173). -/

namespace Sys2Proof.Machine

variable {w n : Nat}

/-- Settles O12: decryption with derived keys is the straightforward inverse cipher (`decryptBlock_decryptionKey`),
which goes back through the rounds of encryption (`plainInverse_encryptBlock`). -/
theorem decryptionUndoesEncryption : Obligations.DecryptionUndoesEncryption := fun rounds rk x h => calc
  _ = plainInverse rounds rk (encryptBlock rounds rk x) := decryptBlock_decryptionKey rk _ h
  _ = x := plainInverse_encryptBlock rk x h

theorem roundConstant_succ {j : Nat} (h : 1 ≤ j) : roundConstant (j + 1) = xtime (roundConstant j) := by
  obtain ⟨k, rfl⟩ := Nat.exists_eq_add_of_le' h
  rfl

/-- Settles O17: each constant is the double of the one before (`roundConstant_succ`); the list by evaluation. -/
theorem roundConstantsDouble : Obligations.RoundConstantsDouble :=
  ⟨rfl, fun _ => roundConstant_succ, by decide⟩

/-! ### The wire format -/

/-- A slice of a slice. -/
theorem extractLsb'_within (x : BitVec w) {start len start' len' : Nat} (h : start' + len' ≤ len) :
    (x.extractLsb' start len).extractLsb' start' len' = x.extractLsb' (start + start') len' := by
  ext j hj
  simp [show start' + j < len by omega, Nat.add_assoc]

/-- Byte `i` of a stored 128-bit value is its bits `8*(15-i) .. 8*(15-i)+7` (00_scope.md R12). -/
theorem bytesOfBlock_blockBe_getD (v : BitVec 128) {i : Nat} (hi : i < 16) :
    (bytesOfBlock (blockBe v)).getD i 0 = v.extractLsb' (8 * (15 - i)) 8 := by
  interval_cases i <;> exact extractLsb'_within v (by decide)

/-- The coefficient of `x^k` (45_gfmul.md R166). -/
theorem be128_getLsbD_coefficient (e : Block) {k : Nat} (hk : k < 128) :
    (be128 e).getLsbD (127 - k) = ((bytesOfBlock e).getD (k / 8) 0).getLsbD (7 - k % 8) := by
  conv_rhs => rw [← blockBe_be128 e]
  rw [bytesOfBlock_blockBe_getD _ (by omega), BitVec.getLsbD_extractLsb', decide_eq_true (by omega), Bool.true_and]
  congr 1
  omega

/-- Settles O26: the coefficients by the bytes of a stored value (`be128_getLsbD_coefficient`), the round trips by
`blockBe_be128` and `be128_blockBe`. -/
theorem wireFormatIsBitReflected : Obligations.WireFormatIsBitReflected :=
  ⟨fun e _ hk => be128_getLsbD_coefficient e hk, blockBe_be128, be128_blockBe⟩

/-! ### The laws of the product -/

/-- Storing is linear. -/
theorem blockBe_xor (x y : BitVec 128) : blockBe (x ^^^ y) = xorBlock (blockBe x) (blockBe y) := by
  simp only [blockBe, wordBe, xorBlock, xorWord, BitVec.extractLsb'_xor]

/-- Loading is linear. -/
theorem be128_xorBlock (x y : Block) : be128 (xorBlock x y) = be128 x ^^^ be128 y := by
  rw [← be128_blockBe (be128 x ^^^ be128 y), blockBe_xor, blockBe_be128, blockBe_be128]

/-- A sum of doublings from its first term on. -/
theorem doublingSum_succ_left (D : BitVec w → BitVec w) (p : Nat → Bool) (n : Nat) (y : BitVec w) :
    doublingSum D p (n + 1) y = (if p 0 then y else 0#w) ^^^ doublingSum D (fun i => p (i + 1)) n (D y) := by
  rw [Nat.add_comm, doublingSum_add, doublingSum, doublingSum, BitVec.zero_xor]
  simp only [Nat.add_comm 1]
  rfl

/-- The iterations of `RefMul` add up the doublings of `V` over the bits of `x` from the highest down
(45_gfmul.md R173). -/
theorem refMulFrom_eq_doublingSum (x : BitVec 128) (n i : Nat) (z v : BitVec 128) :
    refMulFrom x n i z v = z ^^^ doublingSum refDouble (fun k => x.getLsbD (127 - (i + k))) n v := by
  induction n generalizing i z v with
  | zero => exact BitVec.xor_zero.symm
  | succ n ih =>
    rw [refMulFrom, ih, doublingSum_succ_left, ← BitVec.xor_assoc]
    simp only [Nat.add_zero, Nat.add_right_comm i 1, Nat.add_assoc]
    cases x.getLsbD (127 - i) <;> simp

theorem refMul_eq_doublingSum (x y : BitVec 128) :
    refMul x y = doublingSum refDouble (fun k => x.getLsbD (127 - k)) 128 y := by
  rw [refMul, refMulFrom_eq_doublingSum, BitVec.zero_xor]
  simp only [Nat.zero_add]

theorem refMul_linear (x : BitVec 128) : XorLinear (refMul x) := by
  rw [funext (refMul_eq_doublingSum x)]
  exact doublingSum_linear refDouble_linear _ _

/-- Products with two factors, being sums of doublings, may change places. -/
theorem refMul_left_comm (x y z : BitVec 128) : refMul x (refMul y z) = refMul y (refMul x z) := by
  simp only [refMul_eq_doublingSum]
  exact doublingSum_comm refDouble_linear z

/-- A sum of the first doubling alone. -/
theorem doublingSum_first (D : BitVec w → BitVec w) (n : Nat) (y : BitVec w) :
    doublingSum D (fun i => decide (i = 0)) (n + 1) y = y := by
  induction n with
  | zero => exact BitVec.zero_xor
  | succ n ih => rw [doublingSum, ih]; exact BitVec.xor_zero

/-- The neutral element (45_gfmul.md R173): the coefficient of `x^0` alone is 1. -/
def unitBlock : Block := ⟨⟨0x80#8, 0, 0, 0⟩, zeroWord, zeroWord, zeroWord⟩

theorem unitBlock_coefficient : ∀ k < 128, (be128 unitBlock).getLsbD (127 - k) = decide (k = 0) := by decide +kernel

theorem refMul_unitBlock (y : BitVec 128) : refMul (be128 unitBlock) y = y := by
  rw [refMul_eq_doublingSum, doublingSum_congr unitBlock_coefficient, doublingSum_first]

theorem be128_gfProduct (a b : Block) : be128 (gfProduct a b) = refMul (be128 a) (be128 b) := by
  rw [gfProduct_eq_refMul, be128_blockBe]

theorem gfProduct_unitBlock (a : Block) : gfProduct a unitBlock = a := by
  rw [gfProduct_comm, gfProduct_eq_refMul, refMul_unitBlock, blockBe_be128]

theorem gfProduct_xorBlock (a b c : Block) :
    gfProduct a (xorBlock b c) = xorBlock (gfProduct a b) (gfProduct a c) := by
  simp only [gfProduct_eq_refMul, be128_xorBlock, refMul_linear _ _ _, blockBe_xor]

theorem gfProduct_left_comm (a b c : Block) : gfProduct a (gfProduct b c) = gfProduct b (gfProduct a c) := by
  apply be128_injective
  simp only [be128_gfProduct, refMul_left_comm (be128 a)]

theorem gfProduct_assoc (a b c : Block) : gfProduct a (gfProduct b c) = gfProduct (gfProduct a b) c := calc
  gfProduct a (gfProduct b c) = gfProduct a (gfProduct c b) := by rw [gfProduct_comm b]
  _ = gfProduct c (gfProduct a b) := gfProduct_left_comm a c b
  _ = gfProduct (gfProduct a b) c := gfProduct_comm c _

/-- Settles O23: the product is a sum of doublings chosen by the first factor's bits (`refMul_eq_doublingSum`), hence
linear in the other factor; such sums commute, which with symmetry is associativity. -/
theorem fieldProductLaws : Obligations.FieldProductLaws := fun a b c =>
  ⟨gfProduct_unitBlock a, gfProduct_xorBlock a b c, gfProduct_assoc a b c⟩

end Sys2Proof.Machine
end
